-- ==== Sys2Proof/Word.lean ====
section
/-! DEFINITION. The words of the block and the plain tuples of numbers its operations carry
(spec/00_scope.md R4, R5; spec/30_encoding.md R62). -/

namespace Sys2Proof

/-- A byte (R5). -/
abbrev Byte := BitVec 8

/-- A signed coordinate as the operand port carries it: `COORD_W` = 16 bits (R4, R62; log 18). -/
abbrev Coord := BitVec 16

/-- The numeric type `Pos` of positions and gains: exact rationals (R4; log 20). -/
abbrev Pos := Rat

/-- Four integers in the order `rowStart, rowEnd, colStart, colEnd`, both ends inclusive: a region of
interest or a bounding box (R62, R150). -/
structure Rect where
  rowStart : Int
  rowEnd   : Int
  colStart : Int
  colEnd   : Int
deriving DecidableEq, Repr, Inhabited

/-- A point: `row, col` (R62). -/
structure Point where
  row : Int
  col : Int
deriving DecidableEq, Repr, Inhabited

end Sys2Proof
end

