-- ==== Sys2Proof/Config.lean ====
section
/-! DEFINITION. The configuration record `Cfg` of spec/00_scope.md R4 with the named parameters of
spec/93_implementation_defined.md, and the values the spec leaves free: opaque constants without a
body, so that no proof can see a value of one. -/

namespace Sys2Proof

/-- `FRAME_START_EDGE`: (0,1) is `rising`, (1,0) is `falling` (R4, R122, D13). -/
inductive Edge where
  | rising
  | falling
deriving DecidableEq, Repr

/-- `DEC_MAP`: the decided ascending map, the observed mirrored one (R127), or any other map, given by
its values on the kept coordinates it moves; an unlisted coordinate takes the ascending map (log 17). -/
inductive DecMap where
  | ascending
  | mirrored
  | table (entries : List ((Nat × Nat) × (Int × Int)))
deriving DecidableEq, Repr

/-- `OVERLAY`: the identity by decision (D27), or the debug overlay nothing defines (log 16). -/
inductive Overlay where
  | identity
  | debug
deriving DecidableEq, Repr

/-- `NACK_POLICY` (D6): the master NACKs the byte after which STOP is requested, or every byte (R98). -/
inductive NackPolicy where
  | finalByte
  | everyByte
deriving DecidableEq, Repr

/-- `CLOSED_BUS_POLICY` (U4): a byte command without START on a released bus, and a transfer without
address on a bus held in the other direction (R216), is refused (the spec's default), or nobody answers:
the acknowledge is 1 and the byte read is any value (log 12). -/
inductive ClosedBusPolicy where
  | refuse
  | nobodyAnswers
deriving DecidableEq, Repr

/-- A read of a frame byte nothing has written (U7): refused (the spec's default), or any value
(log 11). -/
inductive UnwrittenPolicy where
  | refuse
  | anyValue
deriving DecidableEq, Repr

/-- A command written while `EN` = 0: refused (U1, G7, the spec's default), or ignored, as the bit's own
description says (R17) (log 13). -/
inductive DisabledPolicy where
  | refuse
  | ignore
deriving DecidableEq, Repr

/-- How a midpoint is rounded (U15): floor by decision, truncation as the alternative (log 15). -/
inductive Rounding where
  | floor
  | truncate
deriving DecidableEq, Repr

/-- The configuration record of R4. It is a field of `State` that no step writes, so that every
statement holds for every value of it (log 1). -/
structure Cfg where
  bmBase : Nat
  fgBase : Nat
  actBase : Nat
  fbBase : Nat
  regStride : Nat
  clkDiv : BitVec 16
  sensorRows : Nat
  sensorCols : Nat
  winRowLo : Nat
  winRowHi : Nat
  winColLo : Nat
  winColHi : Nat
  rows : Nat
  cols : Nat
  decMap : DecMap
  frameStart : Edge
  fsyncBit : Nat
  rsyncBit : Nat
  pclkBit : Nat
  minRun : Nat
  panGain : Pos
  tiltGain : Pos
  panMin : Pos
  panMax : Pos
  tiltMin : Pos
  tiltMax : Pos
  panHome : Pos
  tiltHome : Pos
  overlay : Overlay
  nackPolicy : NackPolicy
  closedBus : ClosedBusPolicy
  unwritten : UnwrittenPolicy
  disabledCore : DisabledPolicy
  midpoint : Rounding
deriving DecidableEq, Repr

/-- The constraints R4 puts on the fields. No step checks them (log 32): a claim that needs one takes
this as a premise. -/
structure Cfg.Ok (c : Cfg) : Prop where
  stride : 0 < c.regStride
  sensorRows : 1 ≤ c.sensorRows
  sensorCols : 1 ≤ c.sensorCols
  winRows : c.winRowLo ≤ c.winRowHi ∧ c.winRowHi < c.sensorRows
  winCols : c.winColLo ≤ c.winColHi ∧ c.winColHi < c.sensorCols
  rows : 1 ≤ c.rows
  cols : 1 ≤ c.cols
  bits : c.fsyncBit < 8 ∧ c.rsyncBit < 8 ∧ c.pclkBit < 8
  bitsDistinct : c.fsyncBit ≠ c.rsyncBit ∧ c.fsyncBit ≠ c.pclkBit ∧ c.rsyncBit ≠ c.pclkBit
  panLimits : 0 ≤ c.panMin ∧ c.panMin ≤ c.panMax ∧ c.panMax ≤ 1
  tiltLimits : 0 ≤ c.tiltMin ∧ c.tiltMin ≤ c.tiltMax ∧ c.tiltMax ≤ 1
  panHome : c.panMin ≤ c.panHome ∧ c.panHome ≤ c.panMax
  tiltHome : c.tiltMin ≤ c.tiltHome ∧ c.tiltHome ≤ c.tiltMax

/-- The configuration `State.reset` carries: every field the spec decides at its decided value, every
OPEN field at a value of the vectors of spec/95_test_vectors.md (DESIGN CHOICE, unsafe, log 2). -/
def Cfg.reference : Cfg where
  bmBase := 0
  fgBase := 16
  actBase := 32
  fbBase := 256
  regStride := 1
  clkDiv := 0x00C7#16
  sensorRows := 4
  sensorCols := 8
  winRowLo := 1
  winRowHi := 2
  winColLo := 2
  winColHi := 7
  rows := 2
  cols := 3
  decMap := .ascending
  frameStart := .rising
  fsyncBit := 2
  rsyncBit := 1
  pclkBit := 0
  minRun := 2
  panGain := -1/100
  tiltGain := 1/50
  panMin := 0
  panMax := 1
  tiltMin := 0
  tiltMax := 1
  panHome := 1/2
  tiltHome := 1/2
  overlay := .identity
  nackPolicy := .finalByte
  closedBus := .refuse
  unwritten := .refuse
  disabledCore := .refuse
  midpoint := .floor

namespace Config

/-- What a free value is drawn for: each element of the state that a reset leaves unspecified (R31),
and each read the spec lets give any value (U11, U12, U20, U21). -/
inductive Site where
  | slaveAddr | dir | stop | addr | dataIn | success | dataOut
  | divLo | divHi | txr | rxr | ack
  | fgRow | fgCol | fgMin | fgMax | fgSummary
  | threshold | boxRowStart | boxRowEnd | boxColStart | boxColEnd
  | trMin | trMax | trRun | trBest | trI | trJ | panErr | tiltErr
  | resSuccess | resData | resVal | resSummary
  | resBox0 | resBox1 | resBox2 | resBox3 | resPanError | resTiltError | resNewPan | resNewTilt
  | ackAfterRead | failedVal | closedBusByte | pixel
deriving DecidableEq, Repr

/-- A free bit; the second argument is the state's counter of draws. -/
opaque freeBit : Site → Nat → Bool

/-- A free byte. -/
opaque freeByte : Site → Nat → Byte

/-- A free 16-bit word. -/
opaque freeCoord : Site → Nat → Coord

/-- A free integer. -/
opaque freeInt : Site → Nat → Int

/-- A free natural number. -/
opaque freeNat : Site → Nat → Nat

/-- A free position. -/
opaque freePos : Site → Nat → Pos

/-- The bits of `BM_STATUS` other than `ACK` and `TIP`, by bit number and draw counter (R20, U11). -/
opaque statusBit : Nat → Nat → Bool

/-- Bits 6:0 of a read of `BM_CTRL`, by draw counter (R17, U11; log 35). -/
opaque ctrlBits : Nat → BitVec 7

/-- What a frame byte holds that nothing has written since reset, by number of resets and offset: read
only under `UnwrittenPolicy.anyValue` (U7). -/
opaque unwrittenByte : Nat → Nat → Byte

/-- What 16 bits of a result register show of an integer they cannot carry (R62; log 19). -/
opaque unrepresentable : Int → Coord

/-- The stores `(row, col, value)` of the debug overlay, from the frame and the box (R160; log 16). -/
opaque overlayWrites : List Host.Cell → Rect → List (Int × Int × Byte)

end Config
end Sys2Proof
end

