-- ==== Sys2Proof/Syntax.lean ====
section
/-! DEFINITION. The instructions: one constructor for each row of spec/opcode_table.json, with its
operands as spec/30_encoding.md R62 types them (`coord` and `err` operands as integers, R68). -/

namespace Sys2Proof

/-- Format H, the host operations (R61); format C, the command bytes (R65); format A, the address byte
(R66). -/
inductive Instr where
  | bmInit (slaveAddress : Byte)
  | bmXfer (d s a : Bool) (data : Byte)
  | bmRegwr (sub val : Byte)
  | bmRegrd (sub : Byte)
  | fgCapture
  | fbRdpix (row col : Int)
  | fbWrpix (row col : Int) (val : Byte)
  | trUpdthr (roi : Rect)
  | trLocate (roi : Rect) (thr : Byte)
  | trError (box : Rect) (roiCenter : Point)
  | trCommand (panError tiltError : Int) (lastPan lastTilt : Pos)
  | trSnapshot (roi : Rect)
  | trTrack (roi : Rect)
  | blkReset
  | cStaWr
  | cWr
  | cWrSto
  | cRd
  | cRdNackSto
  | cSto
  | cRdNack
  | cRdSto
  | addrByte (addr : BitVec 7) (d : Bool)
deriving DecidableEq, Repr

end Sys2Proof
end

