-- ==== Sys2Proof/WellFormed.lean ====
section
/-! DEFINITION. Well-formed instructions: every `coord` and `err` operand is an integer that `COORD_W`
= 16 bits of two's complement carry (spec/30_encoding.md R62, R68). -/

namespace Sys2Proof

/-- The range of a `coord`. -/
def coordOk (v : Int) : Bool := decide (-32768 ≤ v) && decide (v ≤ 32767)

def Rect.ok (r : Rect) : Bool :=
  coordOk r.rowStart && coordOk r.rowEnd && coordOk r.colStart && coordOk r.colEnd

def Point.ok (p : Point) : Bool := coordOk p.row && coordOk p.col

/-- The instruction's operands fit the port's operand registers. -/
def wellFormed : Instr → Bool
  | .bmInit _ => true
  | .bmXfer _ _ _ _ => true
  | .bmRegwr _ _ => true
  | .bmRegrd _ => true
  | .fgCapture => true
  | .fbRdpix row col => coordOk row && coordOk col
  | .fbWrpix row col _ => coordOk row && coordOk col
  | .trUpdthr roi => roi.ok
  | .trLocate roi _ => roi.ok
  | .trError box c => box.ok && c.ok
  | .trCommand pe te _ _ => coordOk pe && coordOk te
  | .trSnapshot roi => roi.ok
  | .trTrack roi => roi.ok
  | .blkReset => true
  | .cStaWr => true
  | .cWr => true
  | .cWrSto => true
  | .cRd => true
  | .cRdNackSto => true
  | .cSto => true
  | .cRdNack => true
  | .cRdSto => true
  | .addrByte _ _ => true

end Sys2Proof
end

