-- ==== Sys2Proof/Decode.lean ====
section
/-! DEFINITION. The encodings of spec/30_encoding.md: the operation word and its operand registers
(format H, R60 to R63), the command byte (format C, R64, R65), the address byte (format A, R66); the
decoder, total and rejecting by name (R69), and after it the encoder. -/

namespace Sys2Proof

/-- The three formats. Nothing in a byte says which one it is: the port it arrives on does (log 22). -/
inductive Format where
  | operation
  | command
  | address
deriving DecidableEq, Repr

/-- Four `coord` operand registers: an `roi` or a `box` (R62). -/
structure RectRegs where
  rowStart : Coord
  rowEnd   : Coord
  colStart : Coord
  colEnd   : Coord
deriving DecidableEq, Repr

/-- The operand registers of the port, named as R62 names the operands (log 21). -/
structure Operands where
  slaveAddress : Byte
  data         : Byte
  sub          : Byte
  val          : Byte
  thr          : Byte
  row          : Coord
  col          : Coord
  roi          : RectRegs
  box          : RectRegs
  centerRow    : Coord
  centerCol    : Coord
  panError     : Coord
  tiltError    : Coord
  lastPan      : Pos
  lastTilt     : Pos
deriving DecidableEq, Repr

/-- All four registers zero. -/
def RectRegs.zero : RectRegs := ⟨0, 0, 0, 0⟩

/-- Every operand register zero. -/
def Operands.zero : Operands :=
  ⟨0, 0, 0, 0, 0, 0, 0, RectRegs.zero, RectRegs.zero, 0, 0, 0, 0, 0, 0⟩

/-- A byte with its format and the operand registers beside it. -/
structure Packet where
  format : Format
  word   : Byte
  args   : Operands
deriving DecidableEq, Repr

/-- Why a byte is no instruction (R69). -/
inductive Reject where
  /-- operation code 0x0 or 0xE -/
  | reservedCode
  /-- `flags[3]` = 1, or non-zero flags on an operation other than `BM_XFER` -/
  | reservedFlags
  /-- one of the 248 command bytes outside R65 -/
  | reservedCommand
deriving DecidableEq, Repr

/-- The eight legal command bytes (R65). -/
inductive Cmd where
  | staWr
  | wr
  | wrSto
  | rd
  | rdNackSto
  | sto
  | rdNack
  | rdSto
deriving DecidableEq, Repr

/-- The byte of a command (R65). -/
def Cmd.byte : Cmd → Byte
  | .staWr => 0x90
  | .wr => 0x10
  | .wrSto => 0x50
  | .rd => 0x20
  | .rdNackSto => 0x68
  | .sto => 0x40
  | .rdNack => 0x28
  | .rdSto => 0x60

/-- The bus core's own decoder: every other byte is reserved (R65, R69, C12). -/
def Cmd.ofByte (b : Byte) : Option Cmd :=
  if b = 0x90 then some .staWr
  else if b = 0x10 then some .wr
  else if b = 0x50 then some .wrSto
  else if b = 0x20 then some .rd
  else if b = 0x68 then some .rdNackSto
  else if b = 0x40 then some .sto
  else if b = 0x28 then some .rdNack
  else if b = 0x60 then some .rdSto
  else none

/-- The fields of a command byte, by the bit positions of R19. -/
def Cmd.sta (c : Cmd) : Bool := c.byte.getLsbD 7
def Cmd.stop (c : Cmd) : Bool := c.byte.getLsbD 6
def Cmd.read (c : Cmd) : Bool := c.byte.getLsbD 5
def Cmd.write (c : Cmd) : Bool := c.byte.getLsbD 4
def Cmd.nack (c : Cmd) : Bool := c.byte.getLsbD 3

/-- A command moves a byte: `RD` or `WR` is set (R81). -/
def Cmd.moves (c : Cmd) : Bool := c.read || c.write

/-- The instruction a command is. -/
def Cmd.instr : Cmd → Instr
  | .staWr => .cStaWr
  | .wr => .cWr
  | .wrSto => .cWrSto
  | .rd => .cRd
  | .rdNackSto => .cRdNackSto
  | .sto => .cSto
  | .rdNack => .cRdNack
  | .rdSto => .cRdSto

/-- Four `coord` registers read as integers by sign extension (R62, R68). -/
def RectRegs.value (r : RectRegs) : Rect :=
  ⟨r.rowStart.toInt, r.rowEnd.toInt, r.colStart.toInt, r.colEnd.toInt⟩

/-- An operation that takes no flags: `flags` must be 0000 (R61, R69). -/
def plainOp (flags : BitVec 4) (i : Instr) : Except Reject Instr :=
  if flags = 0 then .ok i else .error .reservedFlags

/-- Format H: the operation word with the operand registers (R60 to R63). -/
def decodeOperation (w : Byte) (x : Operands) : Except Reject Instr :=
  let flags := w.extractLsb' 0 4
  match (w.extractLsb' 4 4).toNat with
  | 0x1 => plainOp flags (.bmInit x.slaveAddress)
  | 0x2 =>
    if flags.getLsbD 3 then .error .reservedFlags
    else .ok (.bmXfer (flags.getLsbD 2) (flags.getLsbD 1) (flags.getLsbD 0) x.data)
  | 0x3 => plainOp flags (.bmRegwr x.sub x.val)
  | 0x4 => plainOp flags (.bmRegrd x.sub)
  | 0x5 => plainOp flags .fgCapture
  | 0x6 => plainOp flags (.fbRdpix x.row.toInt x.col.toInt)
  | 0x7 => plainOp flags (.fbWrpix x.row.toInt x.col.toInt x.val)
  | 0x8 => plainOp flags (.trUpdthr x.roi.value)
  | 0x9 => plainOp flags (.trLocate x.roi.value x.thr)
  | 0xA => plainOp flags (.trError x.box.value ⟨x.centerRow.toInt, x.centerCol.toInt⟩)
  | 0xB => plainOp flags (.trCommand x.panError.toInt x.tiltError.toInt x.lastPan x.lastTilt)
  | 0xC => plainOp flags (.trSnapshot x.roi.value)
  | 0xD => plainOp flags (.trTrack x.roi.value)
  | 0xF => plainOp flags .blkReset
  | _ => .error .reservedCode

/-- Format C (R64, R65). -/
def decodeCommand (w : Byte) : Except Reject Instr :=
  match Cmd.ofByte w with
  | some c => .ok c.instr
  | none => .error .reservedCommand

/-- Format A: bits 7:1 are the address, bit 0 the direction (R66). -/
def decodeAddress (w : Byte) : Instr := .addrByte (w.extractLsb' 1 7) (w.getLsbD 0)

/-- The decoder: total on every byte of every format. -/
def decode (p : Packet) : Except Reject Instr :=
  match p.format with
  | .operation => decodeOperation p.word p.args
  | .command => decodeCommand p.word
  | .address => .ok (decodeAddress p.word)

/-- `AddrByte`: bits 7:1 of the address, then the direction bit, 1 for a read (R66). -/
def addrWord (addr : BitVec 7) (d : Bool) : Byte := addr ++ BitVec.ofBool d

/-- The operation word of `BM_XFER`: `0x20 + 4d + 2s + a` (R61, R63). -/
def xferWord (d s a : Bool) : Byte :=
  0x20 + 4 * (BitVec.ofBool d).setWidth 8 + 2 * (BitVec.ofBool s).setWidth 8
    + (BitVec.ofBool a).setWidth 8

/-- Four integers laid into `coord` registers. -/
def RectRegs.of (r : Rect) : RectRegs :=
  ⟨.ofInt 16 r.rowStart, .ofInt 16 r.rowEnd, .ofInt 16 r.colStart, .ofInt 16 r.colEnd⟩

/-- A request: an operation word beside operand registers. -/
def opPacket (w : Byte) (x : Operands) : Packet := ⟨.operation, w, x⟩

/-- A command byte; the operand registers take no part. -/
def cmdPacket (c : Cmd) : Packet := ⟨.command, c.byte, .zero⟩

/-- The encoder: the word R61, R65 or R66 gives the instruction, its operands in the registers R62
names, every other operand register zero. -/
def encode : Instr → Packet
  | .bmInit v => opPacket 0x10 { Operands.zero with slaveAddress := v }
  | .bmXfer d s a v => opPacket (xferWord d s a) { Operands.zero with data := v }
  | .bmRegwr sub v => opPacket 0x30 { Operands.zero with sub := sub, val := v }
  | .bmRegrd sub => opPacket 0x40 { Operands.zero with sub := sub }
  | .fgCapture => opPacket 0x50 .zero
  | .fbRdpix r c => opPacket 0x60 { Operands.zero with row := .ofInt 16 r, col := .ofInt 16 c }
  | .fbWrpix r c v =>
    opPacket 0x70 { Operands.zero with row := .ofInt 16 r, col := .ofInt 16 c, val := v }
  | .trUpdthr roi => opPacket 0x80 { Operands.zero with roi := .of roi }
  | .trLocate roi t => opPacket 0x90 { Operands.zero with roi := .of roi, thr := t }
  | .trError box c => opPacket 0xA0 { Operands.zero with
      box := .of box, centerRow := .ofInt 16 c.row, centerCol := .ofInt 16 c.col }
  | .trCommand pe te lp lt => opPacket 0xB0 { Operands.zero with
      panError := .ofInt 16 pe, tiltError := .ofInt 16 te, lastPan := lp, lastTilt := lt }
  | .trSnapshot roi => opPacket 0xC0 { Operands.zero with roi := .of roi }
  | .trTrack roi => opPacket 0xD0 { Operands.zero with roi := .of roi }
  | .blkReset => opPacket 0xF0 .zero
  | .cStaWr => cmdPacket .staWr
  | .cWr => cmdPacket .wr
  | .cWrSto => cmdPacket .wrSto
  | .cRd => cmdPacket .rd
  | .cRdNackSto => cmdPacket .rdNackSto
  | .cSto => cmdPacket .sto
  | .cRdNack => cmdPacket .rdNack
  | .cRdSto => cmdPacket .rdSto
  | .addrByte addr d => ⟨.address, addrWord addr d, .zero⟩

/-- The instruction the host's port reads from a table word with every operand register zero. A word of
the table arrives on the operation port, so it is read in format H; formats C and A share its byte
values and arrive elsewhere (log 22). -/
def decodeTableWord (nbits w : Nat) : Option Instr :=
  if nbits = 8 ∧ w < 256 then
    match decode ⟨.operation, BitVec.ofNat 8 w, .zero⟩ with
    | .ok i => some i
    | .error _ => none
  else none

end Sys2Proof
end

