-- ==== Sys2Proof/Machine/State.lean ====
section
/-! DEFINITION. The state of the block (spec/10_state.md), the reasons a step can stop, and the state
after reset (R31). The parameters of the step relation, configuration and environment, are plain data
beside it (R4, R30; log 1, 3). -/

namespace Sys2Proof.Machine

/-- The faults of the machine. The spec describes no fault and no trap (R180, R182, R186, R187):
nothing raises one. -/
inductive Fault where
deriving DecidableEq, Repr

/-- Why the model rejects a step by name (spec/93_implementation_defined.md part 1). Every one is safe:
the machine stops where hardware would do something the spec does not give. -/
inductive Refusal where
  /-- an arm of `exec` without a meaning; safe -/
  | notModelled (mnemonic : String)
  /-- U1: a command byte written while `BM_CTRL.EN` = 0; raised by a write of `BM_CMD`; safe -/
  | coreDisabled
  /-- U2: a command byte written while another is in flight; raised by a write of `BM_CMD`; safe -/
  | commandInFlight
  /-- U3: a reserved command byte; raised by a write of `BM_CMD`; safe -/
  | reservedCommandByte
  /-- U4: a byte command without START on a released bus; raised by a write of `BM_CMD`; safe -/
  | closedBus
  /-- U4 by R216: a transfer without address on an open bus that is not held in its direction; raised by
  BM_XFER; safe -/
  | wrongDirection
  /-- U6: a bus operation before `BM_INIT`; raised by BM_XFER, BM_REGWR, BM_REGRD; safe -/
  | notInitialised
  /-- U7: a read of a pixel nothing has written since reset; raised by FB_RDPIX and the tracker's
  scans; safe -/
  | unwrittenPixel
  /-- U8: `BM_INIT` inside a held bus transaction; safe -/
  | initOnOpenBus
  /-- U9: a request other than BLK_RESET while `OP.busy` = 1; safe -/
  | busy
  /-- U10: operation code 0x0 or 0xE on the operation port; safe -/
  | reservedCode
  /-- U10: `flags[3]` = 1, or flags on an operation that takes none; safe -/
  | reservedFlags
  /-- U17: `BM_DATA` written while a command is in flight; safe -/
  | dataInFlight
deriving DecidableEq, Repr

/-- `BM.phase` (R13). -/
inductive BmPhase where
  | idle | addrLoad | addrIssue | addrWait | addrCheck
  | dataLoad | dataIssue | dataWait | dataCheck | fail
deriving DecidableEq, Repr

/-- `BM.sub`: which transfer of a register-level operation is running (R13). -/
inductive BmSub where
  | none | first | second
deriving DecidableEq, Repr

/-- `FG.phase` (R13). -/
inductive FgPhase where
  | idle | frameWaitA | frameWaitB | rowWaitFall | rowWaitRise | pixWaitFall | pixWaitRise
  | sample | done
deriving DecidableEq, Repr

/-- `TR.phase` (R13). -/
inductive TrPhase where
  | idle | capture | threshold | rowPass | colPass | error | command
deriving DecidableEq, Repr

/-- The bus events of the wire trace (R21): `ack` 0 is ACK, `nack` 1 is NACK. -/
inductive Event where
  | start
  | tx (b : Byte) (ack : Bool)
  | rx (b : Byte) (nack : Bool)
  | stop
deriving DecidableEq, Repr

/-- One write of an I/O register, for the model's own history of them (log 26). -/
inductive IoWrite where
  | divLo (b : Byte)
  | divHi (b : Byte)
  | ctrl (b : Byte)
  | data (b : Byte)
  | cmd (b : Byte)
  | actPan (p : Pos)
  | actTilt (p : Pos)
deriving DecidableEq, Repr

/-- Unit BM: working, result and phase registers (R11, R12, R13). -/
structure Bm where
  slaveAddr : Byte
  inited    : Bool
  dir       : Bool
  stop      : Bool
  addr      : Bool
  dataIn    : Byte
  success   : Bool
  dataOut   : Byte
  phase     : BmPhase
  sub       : BmSub
deriving DecidableEq, Repr

/-- The bus core: its registers (R16 to R20), the command in flight, the open bus and the wire trace,
oldest event first (R21). `BM_CMD` stores nothing (R19). -/
structure BusCore where
  divLo    : Byte
  divHi    : Byte
  ctrl     : Byte
  txr      : Byte
  rxr      : Byte
  ack      : Bool
  tip      : Bool
  inflight : Option Cmd
  busOpen  : Bool
  wire     : List Event
deriving DecidableEq, Repr

/-- Unit FG: phase, counters and working registers (R13, R24). -/
structure Fg where
  phase   : FgPhase
  r       : Nat
  c       : Nat
  min     : Byte
  max     : Byte
  summary : Byte
deriving DecidableEq, Repr

/-- Unit TR: phase, kept registers and scan registers (R13, R26). -/
structure Tr where
  phase     : TrPhase
  threshold : Byte
  box       : Rect
  boxValid  : Bool
  lastPan   : Pos
  lastTilt  : Pos
  min       : Byte
  max       : Byte
  run       : Nat
  best      : Nat
  i         : Int
  j         : Int
  panErr    : Int
  tiltErr   : Int
deriving DecidableEq, Repr

/-- The actuator registers (R27). -/
structure Act where
  pan  : Pos
  tilt : Pos
deriving DecidableEq, Repr

/-- The result registers of the port (R62). -/
structure Results where
  success   : Bool
  data      : Byte
  val       : Byte
  summary   : Byte
  box       : RectRegs
  panError  : Coord
  tiltError : Coord
  newPan    : Pos
  newTilt   : Pos
deriving DecidableEq, Repr

/-- The host operation port (R28, R62): the request (strobe, word, operand registers), the operation
being carried out with its latched operands, and the results. `OP.busy` is a function of the phases. -/
structure Port where
  strobe : Bool
  word   : Byte
  args   : Operands
  cur    : Option Instr
  res    : Results
deriving DecidableEq, Repr

/-- A move of the outside world (R28, R200): a request put on the port, once the block is idle or, if
`early`, whatever the block is doing; or the reset input. -/
inductive HostMove where
  | request (early : Bool) (word : Byte) (args : Operands)
  | resetInput
deriving DecidableEq, Repr

/-- The environment as data (R30; log 3 to 6): the coming acknowledge bits and bytes of the slave, the
coming answers of `FG_STATUS` and `FG_PIXEL`, the coming moves of the host, how many sequencer steps
the block takes in each coming step of the machine (none listed: as many as it needs), and the counters
of free values drawn and of resets. -/
structure Env where
  slaveAcks  : List Bool
  slaveBytes : List Byte
  status     : List Byte
  pixels     : List Byte
  host       : List HostMove
  pace       : List Nat
  draws      : Nat
  resets     : Nat
deriving DecidableEq, Repr

/-- The state (R10), the configuration (R4), the environment (R30) and the history of register writes,
oldest first. `fb` is the frame buffer: the written bytes by offset, offsets rising (R25). -/
structure State where
  cfg : Cfg
  bm  : Bm
  bus : BusCore
  fg  : Fg
  fb  : List Host.Cell
  tr  : Tr
  act : Act
  op  : Port
  env : Env
  io  : List IoWrite
deriving DecidableEq, Repr

/-- BM after reset (R31); zero where R31 gives no value (log 9). -/
def Bm.reset : Bm := ⟨0, false, false, false, false, 0, false, 0, .idle, .none⟩

/-- The bus core after the first reset (R31); zero where R31 gives no value (log 9). -/
def BusCore.reset : BusCore := ⟨0, 0, 0, 0, 0, false, false, none, false, []⟩

/-- FG after reset (R31); zero where R31 gives no value (log 9). -/
def Fg.reset : Fg := ⟨.idle, 0, 0, 0, 0, 0⟩

/-- TR after reset: the last positions at home (R31); zero where R31 gives no value (log 9). -/
def Tr.reset (c : Cfg) : Tr :=
  ⟨.idle, 0, ⟨0, 0, 0, 0⟩, false, c.panHome, c.tiltHome, 0, 0, 0, 0, 0, 0, 0, 0⟩

/-- The port after reset: no request, no operation running; zero where R31 gives no value (log 9). -/
def Port.reset : Port :=
  ⟨false, 0, .zero, none, ⟨false, 0, 0, 0, .zero, 0, 0, 0, 0⟩⟩

/-- An environment that has answered nothing yet, and a host that asks nothing (log 3, 5). -/
def Env.silent : Env := ⟨[], [], [], [], [], [], 0, 0⟩

/-- The machine right after the first reset, with a given configuration (R31). -/
def State.resetWith (c : Cfg) : State where
  cfg := c
  bm := .reset
  bus := .reset
  fg := .reset
  fb := []
  tr := .reset c
  act := ⟨0, 0⟩
  op := .reset
  env := .silent
  io := []

/-- The machine right after reset, with the reference configuration (R31; log 2, 9). -/
def State.reset : State := State.resetWith Cfg.reference

end Sys2Proof.Machine
end

