-- ==== Sys2Proof/Machine/Flags.lean ====
section
/-! DEFINITION. The one-bit conditions the rules test (spec/10_state.md R14): the enable bit, the bits of
`BM_STATUS` and `OP.busy`. No operation of the block computes an arithmetic flag. -/

namespace Sys2Proof.Machine

/-- `BM_CTRL.EN`, bit 7 (R17). -/
def State.enabled (s : State) : Bool := s.bus.ctrl.getLsbD 7

/-- One bit of a read of `BM_STATUS` (R20): bit 7 is `ACK` (1 = NACK, C1), bit 1 is `TIP` (C2), the
others are any value (U11; log 31). -/
def State.statusBit (s : State) (i : Nat) : Bool :=
  if i = 7 then s.bus.ack else if i = 1 then s.bus.tip else Config.statusBit i s.env.draws

/-- The acknowledge bit an acknowledge check reads (R93). -/
def State.nacked (s : State) : Bool := s.statusBit 7

/-- The transfer-in-progress flag a poll reads (R91). -/
def State.inProgress (s : State) : Bool := s.statusBit 1

/-- `OP.busy`: 1 while any sequencer is out of `Idle` (R28; log 25). -/
def State.busy (s : State) : Bool :=
  decide (s.bm.phase ≠ .idle) || decide (s.fg.phase ≠ .idle) || decide (s.tr.phase ≠ .idle)

end Sys2Proof.Machine
end

