-- ==== Sys2Proof/Machine/Operands.lean ====
section
/-! DEFINITION. Operand forms and the arithmetic on them: clamping, midpoints, integer ranges, and what a
result register carries (spec/00_scope.md R5; spec/30_encoding.md R62, R68). -/

namespace Sys2Proof.Machine

/-- `clamp` on integers (R5). -/
def clampInt (v lo hi : Int) : Int := if v < lo then lo else if hi < v then hi else v

/-- `clamp` on positions (R5). -/
def clampPos (v lo hi : Pos) : Pos := if v < lo then lo else if hi < v then hi else v

/-- `(a + b) div 2`: floor by decision (R5, D22), truncation by the parameter of U15 (log 15). -/
def midpoint (m : Rounding) (a b : Int) : Int :=
  match m with
  | .floor => (a + b) / 2
  | .truncate => (a + b).tdiv 2

/-- The middle of a rectangle: `RoiCenter` (R150) and the box centre (R156). -/
def rectCenter (m : Rounding) (r : Rect) : Point :=
  ⟨midpoint m r.rowStart r.rowEnd, midpoint m r.colStart r.colEnd⟩

/-- The integers `a .. b`, both ends included; none when `b < a` (R150). -/
def span (a b : Int) : List Int := (List.range (b - a + 1).toNat).map fun (k : Nat) => a + (k : Int)

/-- The rows and the columns of a region (R150). -/
def rowsOf (r : Rect) : List Int := span r.rowStart r.rowEnd
def colsOf (r : Rect) : List Int := span r.colStart r.colEnd

/-- An integer carried in the `COORD_W` bits of a result register (R62). Of one that does not fit the
spec states no bits: a free value (log 19). -/
def coordOut (v : Int) : Coord :=
  if coordOk v then BitVec.ofInt 16 v else Config.unrepresentable v

/-- A box carried in four result registers (R62). -/
def rectOut (r : Rect) : RectRegs :=
  ⟨coordOut r.rowStart, coordOut r.rowEnd, coordOut r.colStart, coordOut r.colEnd⟩

/-- `AddrByte(slaveAddr, d)`: bits 7:1 of the stored address, then the direction (R66, D5). -/
def slaveAddrByte (slaveAddr : Byte) (d : Bool) : Byte := addrWord (slaveAddr.extractLsb' 1 7) d

/-- Minimum and maximum of bytes, unsigned (R126, R151). -/
def byteMin (a b : Byte) : Byte := if b < a then b else a
def byteMax (a b : Byte) : Byte := if a < b then b else a

end Sys2Proof.Machine
end

