-- ==== Sys2Proof/Machine/Ops.lean ====
section
/-! DEFINITION. The named operations over the registers and the frame buffer: `FbRead`, `FbWrite`,
`IoRead`, `IoWrite`, the command write and the command completion of the bus core, the failure path and
the block's reset (spec/00_scope.md R6; spec/40_busmaster.md R81, R82, R92; spec/42_framebuffer.md;
spec/70_reset_and_hazards.md R200). -/

namespace Sys2Proof.Machine

/-! Whole-unit updates. -/

def State.withBm (s : State) (x : Bm) : State := { s with bm := x }
def State.withBus (s : State) (x : BusCore) : State := { s with bus := x }
def State.withFg (s : State) (x : Fg) : State := { s with fg := x }
def State.withFb (s : State) (x : List Host.Cell) : State := { s with fb := x }
def State.withTr (s : State) (x : Tr) : State := { s with tr := x }
def State.withAct (s : State) (x : Act) : State := { s with act := x }
def State.withOp (s : State) (x : Port) : State := { s with op := x }
def State.withEnv (s : State) (x : Env) : State := { s with env := x }

/-- One more register write in the history (log 26). -/
def State.logged (s : State) (w : IoWrite) : State := { s with io := s.io ++ [w] }

/-- One more free value drawn. -/
def State.drawn (s : State) : State := s.withEnv { s.env with draws := s.env.draws + 1 }

/-- The operation being carried out is done: `op.cur` is cleared. -/
def State.retired (s : State) : State := s.withOp { s.op with cur := none }

/-- Write the result registers (R62). -/
def State.results (s : State) (r : Results) : State := s.withOp { s.op with res := r }

/-! The frame buffer (R25, R140 to R142). -/

/-- The byte at an offset, if anything has written it. -/
def Memory.read : List Host.Cell → Nat → Option Byte
  | [], _ => none
  | (a, v) :: m, k => if a = k then some v else Memory.read m k

/-- Store one byte, keeping the offsets rising. -/
def Memory.write : List Host.Cell → Nat → Byte → List Host.Cell
  | [], k, v => [(k, v)]
  | (a, w) :: m, k, v =>
    if k < a then (k, v) :: (a, w) :: m
    else if k = a then (k, v) :: m
    else (a, w) :: Memory.write m k v

/-- The canonical form: offsets strictly rising. No entry equals what an unlisted offset reads as, since
an unlisted offset holds no value. -/
abbrev Memory.wf (m : List Host.Cell) : Prop := m.Pairwise fun x y => x.1 < y.1

/-- `PixAddr`: both coordinates clamped, then row-major (R140). -/
def pixAddr (c : Cfg) (row col : Int) : Nat :=
  (clampInt row 0 ((c.rows : Int) - 1) * (c.cols : Int)
    + clampInt col 0 ((c.cols : Int) - 1)).toNat

/-- `FbRead` (R141). A byte nothing has written is refused, or any value by policy (U7; log 11). -/
def fbRead (row col : Int) (s : State) : Except Refusal Byte :=
  match Memory.read s.fb (pixAddr s.cfg row col) with
  | some v => .ok v
  | none =>
    match s.cfg.unwritten with
    | .refuse => .error .unwrittenPixel
    | .anyValue => .ok (Config.unwrittenByte s.env.resets (pixAddr s.cfg row col))

/-- `FbWrite` (R142). -/
def fbWrite (row col : Int) (v : Byte) (s : State) : State :=
  s.withFb (Memory.write s.fb (pixAddr s.cfg row col) v)

/-! The bus core (R80 to R82). -/

/-- `emit e` (R6, R21). -/
def State.emit (s : State) (e : Event) : State := s.withBus { s.bus with wire := s.bus.wire ++ [e] }

/-- Set `BM.busOpen` (R21). -/
def State.openBus (s : State) (v : Bool) : State := s.withBus { s.bus with busOpen := v }

/-- The direction the bus is held in, read off the wire trace, newest event first: bit 0 of the address
byte that followed the last START (R66, R67). None after a STOP, and none where a byte sent since that
START, the address byte or another, was not acknowledged (R216: a successful transfer; DEDUCED, log 38). -/
def heldDirection : List Event → Option Bool
  | .tx b false :: .start :: _ => some (b.getLsbD 0)
  | .tx _ false :: rest => heldDirection rest
  | .rx _ _ :: rest => heldDirection rest
  | _ => none

/-- The direction the bus is held in (R216). -/
def State.direction (s : State) : Option Bool := heldDirection s.bus.wire.reverse

/-- BM carries out a transfer without address on an open bus that is not held in the transfer's direction:
the case R216 sends to U4. -/
def State.misdirected (s : State) : Bool :=
  !s.bm.addr && s.bus.busOpen && decide (s.direction ≠ some s.bm.dir)

/-- Whether the slave listens to the byte BM waits for: not in a misdirected transfer (R216, U4). -/
def State.listening (s : State) : Bool := !(decide (s.bm.phase = .dataWait) && s.misdirected)

/-- A write of a legal command byte to `BM_CMD` (R81): a byte command goes in flight and raises `TIP`,
STOP alone is recorded at the write (D9; log 27). Refused: U1, U2, U4. The direction the bus is held in
is not checked here (R86) but for a transfer without address (`dataIssue`; R216, log 38). -/
def cmdWrite (c : Cmd) (s : State) : Except Refusal State :=
  if s.enabled = false then
    match s.cfg.disabledCore with
    | .refuse => .error .coreDisabled
    | .ignore => .ok (s.logged (.cmd c.byte))
  else if s.bus.inflight ≠ none then .error .commandInFlight
  else if c.moves then
    if c.sta = false ∧ s.bus.busOpen = false ∧ s.cfg.closedBus = .refuse then .error .closedBus
    else .ok ((s.logged (.cmd c.byte)).withBus { s.bus with inflight := some c, tip := true })
  else .ok (((s.logged (.cmd c.byte)).emit .stop).openBus false)

/-- The slave's acknowledge for a sent byte: the next answer; none yet, the byte is still in flight. On
a released bus, and where the slave does not listen, nobody answers: 1 (R82, R216, U4). -/
def ackAnswer (listening : Bool) (s : State) : Option (Bool × State) :=
  if s.bus.busOpen = false ∨ listening = false then some (true, s)
  else
    match s.env.slaveAcks with
    | [] => none
    | a :: rest => some (a, s.withEnv { s.env with slaveAcks := rest })

/-- The slave's byte for a READ: the next answer; none yet, the byte is still in flight. On a released
bus, and where the slave does not listen, it is any value (R82, R216, U4). -/
def byteAnswer (listening : Bool) (s : State) : Option (Byte × State) :=
  if s.bus.busOpen = false ∨ listening = false then
    some (Config.freeByte .closedBusByte s.env.draws, s.drawn)
  else
    match s.env.slaveBytes with
    | [] => none
    | b :: rest => some (b, s.withEnv { s.env with slaveBytes := rest })

/-- The START part of a completion (R82). -/
def startPart (c : Cmd) (s : State) : State :=
  if c.sta then (s.emit .start).openBus true else s

/-- The WRITE part of a completion (R82). -/
def writePart (listening : Bool) (c : Cmd) (s : State) : Option State :=
  if c.write then
    (ackAnswer listening s).map fun x =>
      (x.2.emit (.tx s.bus.txr x.1)).withBus
        { (x.2.emit (.tx s.bus.txr x.1)).bus with ack := x.1 }
  else some s

/-- The READ part of a completion (R82): `ACK` is left at any value (U12; log 8). -/
def readPart (listening : Bool) (c : Cmd) (s : State) : Option State :=
  if c.read then
    (byteAnswer listening s).map fun x =>
      (x.2.drawn.emit (.rx x.1 c.nack)).withBus
        { (x.2.drawn.emit (.rx x.1 c.nack)).bus with
          rxr := x.1, ack := Config.freeBit .ackAfterRead x.2.env.draws }
  else some s

/-- The STOP part of a completion, and the clearing of `TIP`, last (R82, R49). -/
def stopPart (c : Cmd) (s : State) : State :=
  let t := if c.stop then (s.emit .stop).openBus false else s
  t.withBus { t.bus with inflight := none, tip := false }

/-- `Complete(c)` (R82): START, byte, STOP in this order; nothing while the slave has not answered. -/
def coreComplete (listening : Bool) (c : Cmd) (s : State) : Option State :=
  ((writePart listening c (startPart c s)).bind (readPart listening c)).map (stopPart c)

/-- The one step of the bus core agent; it acts only while `EN` = 1 (R80, R82). -/
def coreTick (listening : Bool) (s : State) : Option State :=
  if s.enabled then s.bus.inflight.bind fun c => coreComplete listening c s else none

/-! The register file (R41, R46). -/

/-- The registers of the block (R41). -/
inductive IoReg where
  | divLo | divHi | ctrl | data | cmdStatus | fgStatus | fgPixel | actPan | actTilt
deriving DecidableEq, Repr

/-- A register's address: base plus index times stride (R41). No rule reads it. -/
def regAddress (c : Cfg) : IoReg → Nat
  | .divLo => c.bmBase
  | .divHi => c.bmBase + c.regStride
  | .ctrl => c.bmBase + 2 * c.regStride
  | .data => c.bmBase + 3 * c.regStride
  | .cmdStatus => c.bmBase + 4 * c.regStride
  | .fgStatus => c.fgBase
  | .fgPixel => c.fgBase + c.regStride
  | .actPan => c.actBase
  | .actTilt => c.actBase + c.regStride

/-- `IoWrite` of a byte (R6, R46): `BM_DATA` loads `TXR` (R18), not while a command is in flight (U17);
`BM_CMD` starts a command (R81), a reserved byte is refused (R69, U3); the capture registers are
read-only, a write is ignored (R22, R23). The actuator registers hold no byte: see `actWrite`. -/
def ioWrite (r : IoReg) (b : Byte) (s : State) : Except Refusal State :=
  match r with
  | .divLo => .ok ((s.logged (.divLo b)).withBus { s.bus with divLo := b })
  | .divHi => .ok ((s.logged (.divHi b)).withBus { s.bus with divHi := b })
  | .ctrl => .ok ((s.logged (.ctrl b)).withBus { s.bus with ctrl := b })
  | .data =>
    if s.bus.inflight ≠ none then .error .dataInFlight
    else .ok ((s.logged (.data b)).withBus { s.bus with txr := b })
  | .cmdStatus =>
    match Cmd.ofByte b with
    | some c => cmdWrite c s
    | none => .error .reservedCommandByte
  | .fgStatus => .ok s
  | .fgPixel => .ok s
  | .actPan => .ok s
  | .actTilt => .ok s

/-- A write of an actuator register (R27, R157). -/
def actWrite (r : IoReg) (p : Pos) (s : State) : State :=
  match r with
  | .actPan => (s.logged (.actPan p)).withAct { s.act with pan := p }
  | .actTilt => (s.logged (.actTilt p)).withAct { s.act with tilt := p }
  | _ => s

/-- `IoRead` of `FG_STATUS`: the sensor's next answer; none yet, the poll goes on (R22, R50). -/
def readFgStatus (s : State) : Option (Byte × State) :=
  match s.env.status with
  | [] => none
  | b :: rest => some (b, s.withEnv { s.env with status := rest })

/-- `IoRead` of `FG_PIXEL`: the sensor's next answer, or any byte (R23, U20; log 4). -/
def readFgPixel (s : State) : Byte × State :=
  match s.env.pixels with
  | [] => (Config.freeByte .pixel s.env.draws, s.drawn)
  | p :: rest => (p, s.withEnv { s.env with pixels := rest })

/-- `IoRead` of the byte registers of the bus core that store one: the divisor and the control register
read (R16, R17), bits 6:0 of `BM_CTRL` as any value (U11; log 35); `BM_DATA` reads `RXR` (R18).
`BM_STATUS` is read bit by bit (`State.statusBit`). -/
def readBusByte (r : IoReg) (s : State) : Option Byte :=
  match r with
  | .divLo => some s.bus.divLo
  | .divHi => some s.bus.divHi
  | .ctrl => some (s.bus.ctrl.extractLsb' 7 1 ++ Config.ctrlBits s.env.draws)
  | .data => some s.bus.rxr
  | _ => none

/-! The failure path and the reset: what stands in place of an exception. -/

/-- `FailStop` (R92, R180, R184): STOP, `success` = 0, back to `Idle`. -/
def failStop (s : State) : Except Refusal State :=
  (ioWrite .cmdStatus 0x40 s).map fun t =>
    t.withBm { t.bm with success := false, phase := .idle }

/-- Reset (R200, R31), by the reset input or `BLK_RESET`: every element at its value, whatever the block
was doing; no bus event, no actuator write, the wire trace kept. What R31 leaves unspecified or
unwritten becomes a free value (log 10). -/
def blockReset (s : State) : State :=
  let n := s.env.draws
  { s with
    bm := ⟨Config.freeByte .slaveAddr n, false, Config.freeBit .dir n, Config.freeBit .stop n,
      Config.freeBit .addr n, Config.freeByte .dataIn n, Config.freeBit .success n,
      Config.freeByte .dataOut n, .idle, .none⟩
    bus := ⟨Config.freeByte .divLo n, Config.freeByte .divHi n, 0, Config.freeByte .txr n,
      Config.freeByte .rxr n, Config.freeBit .ack n, false, none, false, s.bus.wire⟩
    fg := ⟨.idle, Config.freeNat .fgRow n, Config.freeNat .fgCol n, Config.freeByte .fgMin n,
      Config.freeByte .fgMax n, Config.freeByte .fgSummary n⟩
    fb := []
    tr := ⟨.idle, Config.freeByte .threshold n,
      ⟨Config.freeInt .boxRowStart n, Config.freeInt .boxRowEnd n, Config.freeInt .boxColStart n,
        Config.freeInt .boxColEnd n⟩,
      false, s.cfg.panHome, s.cfg.tiltHome, Config.freeByte .trMin n, Config.freeByte .trMax n,
      Config.freeNat .trRun n, Config.freeNat .trBest n, Config.freeInt .trI n, Config.freeInt .trJ n,
      Config.freeInt .panErr n, Config.freeInt .tiltErr n⟩
    op := { s.op with
      cur := none
      res := ⟨Config.freeBit .resSuccess n, Config.freeByte .resData n, Config.freeByte .resVal n,
        Config.freeByte .resSummary n,
        ⟨Config.freeCoord .resBox0 n, Config.freeCoord .resBox1 n, Config.freeCoord .resBox2 n,
          Config.freeCoord .resBox3 n⟩,
        Config.freeCoord .resPanError n, Config.freeCoord .resTiltError n,
        Config.freePos .resNewPan n, Config.freePos .resNewTilt n⟩ }
    env := { s.env with draws := n + 1, resets := s.env.resets + 1 } }

end Sys2Proof.Machine
end

