-- ==== Sys2Proof/Machine/BlockOps.lean ====
section
/-! DEFINITION. The operation of the whole block (spec/70_reset_and_hazards.md R201). -/

namespace Sys2Proof.Machine

/-- `BLK_RESET` (R201): the block reset, accepted whatever the block is doing. -/
def execBlkReset (s : State) : Host.Outcome State Fault Refusal := .next (blockReset s)

end Sys2Proof.Machine
end

