-- ==== Sys2Proof/Machine/BusMaster.lean ====
section
/-! DEFINITION. The BM sequencer: `initialize`, one transfer, and the two register-level operations as
two transfers, phase by phase (spec/40_busmaster.md R89 to R97). -/

namespace Sys2Proof.Machine

/-- `BM_INIT` (R90): divisor low, divisor high, enable, store the address. -/
def initBus (slaveAddress : Byte) (s : State) : Except Refusal State := do
  let s ← ioWrite .divLo (s.cfg.clkDiv.extractLsb' 0 8) s
  let s ← ioWrite .divHi (s.cfg.clkDiv.extractLsb' 8 8) s
  let s ← ioWrite .ctrl 0x80 s
  return s.withBm { s.bm with slaveAddr := slaveAddress, inited := true }

/-- The phase a transfer starts in (R93, R94). -/
def firstPhase (d a : Bool) : BmPhase :=
  if a then .addrLoad else if d then .dataIssue else .dataLoad

/-- The first line of R93: the descriptor and the operand are loaded, `dataOut` passes the operand
through (R12). `sub` says which transfer of a register-level operation this is (R96, R97). -/
def startXfer (sub : BmSub) (d stop a : Bool) (data : Byte) (s : State) : State :=
  s.withBm { s.bm with
    dir := d, stop := stop, addr := a, dataIn := data, dataOut := data,
    phase := firstPhase d a, sub := sub }

/-- The command of the data phase (R89), by `NACK_POLICY` (D6, R98; log 14). -/
def dataCmd (p : NackPolicy) (d stop : Bool) : Cmd :=
  if d then
    if stop then .rdNackSto
    else
      match p with
      | .finalByte => .rd
      | .everyByte => .rdNack
  else if stop then .wrSto else .wr

/-- Go on to a phase of BM. -/
def State.bmTo (s : State) (p : BmPhase) : State := s.withBm { s.bm with phase := p }

/-- The end of a BM operation: its results on the port (R62; log 28, 30). -/
def bmFinish (s : State) : State :=
  match s.op.cur with
  | some (.bmXfer _ _ _ _) =>
    (s.results { s.op.res with success := s.bm.success, data := s.bm.dataOut }).retired
  | some (.bmRegwr _ _) =>
    (s.results { s.op.res with success := s.bm.success }).retired
  | some (.bmRegrd _) =>
    if s.bm.success then
      (s.results { s.op.res with success := true, val := s.bm.dataOut }).retired
    else
      ((s.results { s.op.res with
        success := false, val := Config.freeByte .failedVal s.env.draws }).drawn).retired
  | _ => s.retired

/-- `BM.sub <- None`. -/
def State.subNone (s : State) : State := s.withBm { s.bm with sub := .none }

/-- The return of a transfer, with `success` written and the phase at `Idle`: the second transfer of a
register-level operation starts when the first has succeeded (R96, R97), otherwise the operation is
done. -/
def bmReturn (s : State) : State :=
  match s.bm.sub with
  | .first =>
    if s.bm.success then
      match s.op.cur with
      | some (.bmRegwr _ val) => startXfer .second false true false val s
      | some (.bmRegrd _) =>
        (startXfer .second true true true (Config.freeByte .dataIn s.env.draws) s).drawn
      | _ => bmFinish s.subNone
    else bmFinish s.subNone
  | _ => bmFinish s.subNone

/-- The success end of R93. -/
def bmSucceed (s : State) : State :=
  bmReturn (s.withBm { s.bm with success := true, phase := .idle })

/-- `DataIssue`: the command of the data phase is written (R89, R93). A transfer without address on an open
bus that is not held in its direction is refused by the default of `CLOSED_BUS_POLICY` (R216, U4). -/
def dataIssue (s : State) : Except Refusal State :=
  if s.misdirected = true ∧ s.cfg.closedBus = .refuse then .error .wrongDirection
  else ioWrite .cmdStatus (dataCmd s.cfg.nackPolicy s.bm.dir s.bm.stop).byte s

/-- One step of the BM sequencer, the next line of R93; `none`: the poll of `TIP` goes on (R91). -/
def bmTick (s : State) : Except Refusal (Option State) :=
  match s.bm.phase with
  | .idle => .ok none
  | .addrLoad =>
    (ioWrite .data (slaveAddrByte s.bm.slaveAddr s.bm.dir) s).map fun t => some (t.bmTo .addrIssue)
  | .addrIssue => (ioWrite .cmdStatus Cmd.staWr.byte s).map fun t => some (t.bmTo .addrWait)
  | .addrWait => .ok (if s.inProgress then none else some (s.bmTo .addrCheck))
  | .addrCheck =>
    .ok (some (s.bmTo (if s.nacked then .fail else if s.bm.dir then .dataIssue else .dataLoad)))
  | .dataLoad => (ioWrite .data s.bm.dataIn s).map fun t => some (t.bmTo .dataIssue)
  | .dataIssue => (dataIssue s).map fun t => some (t.bmTo .dataWait)
  | .dataWait => .ok (if s.inProgress then none else some (s.bmTo .dataCheck))
  | .dataCheck =>
    .ok (some (
      if s.bm.dir then bmSucceed (s.withBm { s.bm with dataOut := s.bus.rxr })
      else if s.nacked then s.bmTo .fail
      else bmSucceed s))
  | .fail => (failStop s).map fun t => some (bmReturn t)

end Sys2Proof.Machine
end

