-- ==== Sys2Proof/Machine/FrameGrabber.lean ====
section
/-! DEFINITION. The FG sequencer: the waits, the kept test, the decimated store and the summary
(spec/41_framegrabber.md R121 to R128). -/

namespace Sys2Proof.Machine

/-- The two levels awaited for a frame start (R122). -/
def edgeFrom : Edge → Bool
  | .rising => false
  | .falling => true

def edgeTo : Edge → Bool
  | .rising => true
  | .falling => false

/-- `Kept` (R125). -/
def kept (c : Cfg) (row col : Nat) : Bool :=
  decide (c.winRowLo ≤ row) && decide (row ≤ c.winRowHi) && decide (c.winColLo ≤ col)
    && decide (col ≤ c.winColHi) && decide (col % 2 = 0)

/-- The ascending map of R127. -/
def ascendingMap (c : Cfg) (row col : Nat) : Int × Int :=
  ((row : Int) - c.winRowLo, ((col : Int) - c.winColLo) / 2)

/-- `DEC_MAP` (R127; log 17). -/
def decMap (c : Cfg) (row col : Nat) : Int × Int :=
  match c.decMap with
  | .ascending => ascendingMap c row col
  | .mirrored =>
    ((c.rows : Int) - 1 - (ascendingMap c row col).1, (c.cols : Int) - 1 - (ascendingMap c row col).2)
  | .table entries =>
    match entries.find? (fun e => decide (e.1 = (row, col))) with
    | some e => e.2
    | none => ascendingMap c row col

/-- Go on to a phase of FG. -/
def State.fgTo (s : State) (p : FgPhase) : State := s.withFg { s.fg with phase := p }

/-- The first line of R121: neutral minimum and maximum, then the frame wait. -/
def startCapture (s : State) : State :=
  s.withFg { s.fg with min := 255, max := 0, phase := .frameWaitA }

/-- One read of a poll of a level (R50): `none` when the sensor has not answered; past the wait when the
level is the awaited one; otherwise the poll goes on. -/
def pollLevel (bit : Nat) (level : Bool) (next : State → State) (s : State) : Option State :=
  (readFgStatus s).map fun x => if x.1.getLsbD bit = level then next x.2 else x.2

/-- The head of the row loop, at row `row` (R121 step 2). -/
def enterRow (row : Nat) (s : State) : State :=
  s.withFg { s.fg with
    r := row, phase := if row < s.cfg.sensorRows then .rowWaitFall else .done }

/-- The head of the column loop, at column `col` (R121 step 3). -/
def enterCol (col : Nat) (s : State) : State :=
  if col < s.cfg.sensorCols then s.withFg { s.fg with c := col, phase := .pixWaitFall }
  else enterRow (s.fg.r + 1) (s.withFg { s.fg with c := col })

/-- `SampleAndStore` (R126). -/
def sampleAndStore (s : State) : State :=
  let x := readFgPixel s
  let at' := decMap s.cfg s.fg.r s.fg.c
  let t := fbWrite at'.1 at'.2 x.1 x.2
  t.withFg { t.fg with min := byteMin t.fg.min x.1, max := byteMax t.fg.max x.1 }

/-- The summary: each half truncated, then added (R128). -/
def summaryOf (lo hi : Byte) : Byte := (lo >>> 1) + (hi >>> 1)

/-- The end of a capture (R121 step 6): the summary is kept, and it is the result unless the capture is
the first part of a tracking cycle (R158). -/
def captureDone (s : State) : State :=
  let v := summaryOf s.fg.min s.fg.max
  let t := s.withFg { s.fg with summary := v, phase := .idle }
  if s.tr.phase = .capture then t
  else (t.results { t.op.res with summary := v }).retired

/-- One step of the FG sequencer (R121 to R124); `none`: a poll goes on. -/
def fgTick (s : State) : Option State :=
  match s.fg.phase with
  | .idle => none
  | .frameWaitA =>
    pollLevel s.cfg.fsyncBit (edgeFrom s.cfg.frameStart) (fun t => t.fgTo .frameWaitB) s
  | .frameWaitB => pollLevel s.cfg.fsyncBit (edgeTo s.cfg.frameStart) (enterRow 0) s
  | .rowWaitFall => pollLevel s.cfg.rsyncBit false (fun t => t.fgTo .rowWaitRise) s
  | .rowWaitRise => pollLevel s.cfg.rsyncBit true (enterCol 0) s
  | .pixWaitFall => pollLevel s.cfg.pclkBit false (fun t => t.fgTo .pixWaitRise) s
  | .pixWaitRise => pollLevel s.cfg.pclkBit true (fun t => t.fgTo .sample) s
  | .sample =>
    some (enterCol (s.fg.c + 1) (if kept s.cfg s.fg.r s.fg.c then sampleAndStore s else s))
  | .done => some (captureDone s)

end Sys2Proof.Machine
end

