-- ==== Sys2Proof/Machine/Tracker.lean ====
section
/-! DEFINITION. The TR sequencer: threshold, the two run searches, error, actuator command, and the cycle
made of them (spec/43_tracker.md R150 to R160). A scan is one step of the sequencer (log 34). -/

namespace Sys2Proof.Machine

/-- One pixel of the threshold scan (R151). -/
def thresholdPixel (i j : Int) (s : State) : Except Refusal State :=
  (fbRead i j s).map fun p =>
    s.withTr { s.tr with i := i, j := j, min := byteMin s.tr.min p, max := byteMax s.tr.max p }

/-- The midpoint of two bytes, the sum formed without wrap-around (R151). -/
def thresholdOf (lo hi : Byte) : Byte := BitVec.ofNat 8 ((lo.toNat + hi.toNat) / 2)

/-- `updateThreshold` (R151). -/
def updateThreshold (roi : Rect) (s : State) : Except Refusal State := do
  let s ← (rowsOf roi).foldlM
    (fun s i => (colsOf roi).foldlM (fun s j => thresholdPixel i j s) (s.withTr { s.tr with i := i }))
    (s.withTr { s.tr with min := 255, max := 0 })
  return s.withTr { s.tr with threshold := thresholdOf s.tr.min s.tr.max }

/-- The two passes: along the rows (R154), along the columns (R155). -/
inductive Axis where
  | row
  | col
deriving DecidableEq, Repr

/-- The scan lines of a pass, in order, and the positions along one. -/
def linesOf (a : Axis) (roi : Rect) : List Int :=
  match a with
  | .row => rowsOf roi
  | .col => colsOf roi

def alongOf (a : Axis) (roi : Rect) : List Int :=
  match a with
  | .row => colsOf roi
  | .col => rowsOf roi

/-- The last position along a scan line. -/
def lastOf (a : Axis) (roi : Rect) : Int :=
  match a with
  | .row => roi.colEnd
  | .col => roi.rowEnd

/-- The pixel at position `x` of line `l`. -/
def pixelOf (a : Axis) (l x : Int) : Int × Int :=
  match a with
  | .row => (l, x)
  | .col => (x, l)

/-- The scan counters at position `x` of line `l` (R154, R155). -/
def State.scanAt (s : State) (a : Axis) (l x : Int) : State :=
  s.withTr { s.tr with i := (pixelOf a l x).1, j := (pixelOf a l x).2 }

/-- Record a run's first and last pixel: columns in the row pass, rows in the column pass (R153). -/
def setBounds (a : Axis) (lo hi : Int) (b : Rect) : Rect :=
  match a with
  | .row => { b with colStart := lo, colEnd := hi }
  | .col => { b with rowStart := lo, rowEnd := hi }

/-- The qualifying test, both comparisons strict (R153). -/
def qualifies (minRun run best : Nat) : Bool := decide (minRun < run) && decide (best < run)

/-- A run ends with its last pixel at `last` (R153): a qualifying run replaces the axis's bounds. -/
def closeRun (a : Axis) (last : Int) (s : State) : State :=
  if qualifies s.cfg.minRun s.tr.run s.tr.best then
    s.withTr { s.tr with
      best := s.tr.run, box := setBounds a (last - (s.tr.run : Int) + 1) last s.tr.box }
  else s

/-- `TR.run`. -/
def State.runTo (s : State) (n : Nat) : State := s.withTr { s.tr with run := n }

/-- One pixel of a pass (R153): bright is strictly greater than the threshold. -/
def scanPixel (a : Axis) (thr : Byte) (l : Int) (s : State) (x : Int) : Except Refusal State :=
  (fbRead (pixelOf a l x).1 (pixelOf a l x).2 s).map fun p =>
    let t := s.scanAt a l x
    if thr < p then t.runTo (t.tr.run + 1) else (closeRun a (x - 1) t).runTo 0

/-- The line counter of a pass (R154: `TR.i`, R155: `TR.j`). -/
def State.lineAt (s : State) (a : Axis) (l : Int) : State :=
  match a with
  | .row => s.withTr { s.tr with i := l }
  | .col => s.withTr { s.tr with j := l }

/-- One scan line: the line's end closes the run (R154, R155). -/
def scanLine (a : Axis) (roi : Rect) (thr : Byte) (s : State) (l : Int) : Except Refusal State :=
  ((alongOf a roi).foldlM (scanPixel a thr l) ((s.lineAt a l).runTo 0)).map (closeRun a (lastOf a roi))

/-- `RowPass` (R154) and `ColPass` (R155). -/
def pass (a : Axis) (roi : Rect) (thr : Byte) (s : State) : Except Refusal State :=
  (linesOf a roi).foldlM (scanLine a roi thr) (s.withTr { s.tr with best := 0 })

/-- The box is initialised to the full ROI on first use (R152, D26). -/
def initBox (roi : Rect) (s : State) : State :=
  if s.tr.boxValid then s else s.withTr { s.tr with box := roi, boxValid := true }

/-- `OVERLAY`, every write through `FbWrite` (R160; log 16). -/
def overlay (s : State) : State :=
  match s.cfg.overlay with
  | .identity => s
  | .debug =>
    (Config.overlayWrites s.fb s.tr.box).foldl (fun t w => fbWrite w.1 w.2.1 w.2.2 t) s

/-- `computeError` (R156): pan from columns, tilt from rows. -/
def computeError (box : Rect) (roiCenter : Point) (s : State) : State :=
  s.withTr { s.tr with
    panErr := roiCenter.col - (rectCenter s.cfg.midpoint box).col
    tiltErr := roiCenter.row - (rectCenter s.cfg.midpoint box).row }

/-- The new positions of R157. -/
def newPan (c : Cfg) (panError : Int) (lastPan : Pos) : Pos :=
  clampPos (lastPan + (panError : Pos) * c.panGain) c.panMin c.panMax

def newTilt (c : Cfg) (tiltError : Int) (lastTilt : Pos) : Pos :=
  clampPos (lastTilt + (tiltError : Pos) * c.tiltGain) c.tiltMin c.tiltMax

/-- `commandActuators` (R157): pan is written before tilt (R52). Both writes are made in one step of the
sequencer: a reset lands before or after both (DESIGN CHOICE, log 37). -/
def commandActuators (panError tiltError : Int) (lastPan lastTilt : Pos) (s : State) : State :=
  let np := newPan s.cfg panError lastPan
  let nt := newTilt s.cfg tiltError lastTilt
  let t := actWrite .actTilt nt (actWrite .actPan np s)
  t.withTr { t.tr with lastPan := np, lastTilt := nt }

/-! The operation being carried out, as the sequencer sees it (R62; log 36). -/

/-- The region an operation scans. -/
def roiOf : Option Instr → Rect
  | some (.trUpdthr roi) => roi
  | some (.trLocate roi _) => roi
  | some (.trSnapshot roi) => roi
  | some (.trTrack roi) => roi
  | _ => ⟨0, -1, 0, -1⟩

/-- A cycle operation goes on to the next part (R158, R159). -/
def isCycle : Option Instr → Bool
  | some (.trSnapshot _) => true
  | some (.trTrack _) => true
  | _ => false

/-- The threshold of a `locateBoundingBox`: its operand, or in a cycle `TR.threshold` (R158). -/
def thrOf (s : State) : Byte :=
  match s.op.cur with
  | some (.trLocate _ thr) => thr
  | _ => s.tr.threshold

/-- The operands of a `computeError`: its own, or in a cycle the box and `RoiCenter` (R158, D23). -/
def errorArgs (s : State) : Rect × Point :=
  match s.op.cur with
  | some (.trError box c) => (box, c)
  | _ => (s.tr.box, rectCenter s.cfg.midpoint (roiOf s.op.cur))

/-- Go on to a phase of TR. -/
def State.trTo (s : State) (p : TrPhase) : State := s.withTr { s.tr with phase := p }

/-- The end of an operation of TR: `Idle`, with its results on the port (R62). -/
def trFinish (r : Results) (s : State) : State := ((s.trTo .idle).results r).retired

/-- The results of the error registers, carried in `COORD_W` bits (R62; log 19). -/
def errorResults (s : State) : Results :=
  { s.op.res with panError := coordOut s.tr.panErr, tiltError := coordOut s.tr.tiltErr }

/-- Start a cycle: its first part is a capture (R158). -/
def startCycle (s : State) : State := (startCapture s).trTo .capture

/-- The end of the `Command` phase, by operation: `TR_COMMAND` and `TR_SNAPSHOT` end, `TR_TRACK` starts
its next cycle (R157 to R159). -/
def afterCommand (s : State) : State :=
  match s.op.cur with
  | some (.trSnapshot _) =>
    trFinish { errorResults s with
      box := rectOut s.tr.box, newPan := s.tr.lastPan, newTilt := s.tr.lastTilt } s
  | some (.trTrack _) => startCycle s
  | _ => trFinish { s.op.res with newPan := s.tr.lastPan, newTilt := s.tr.lastTilt } s

/-- The `Command` phase: the operands of `TR_COMMAND`, or in a cycle the error and the last positions
(R157, R158). One step of the sequencer (log 37). -/
def commandPhase (s : State) : State :=
  match s.op.cur with
  | some (.trCommand pe te lp lt) => commandActuators pe te lp lt s
  | _ => commandActuators s.tr.panErr s.tr.tiltErr s.tr.lastPan s.tr.lastTilt s

/-- One step of the TR sequencer, the phase about to be taken (R13, R158). -/
def trTick (s : State) : Except Refusal (Option State) :=
  match s.tr.phase with
  | .idle => .ok none
  | .capture => .ok (some (s.trTo .threshold))
  | .threshold =>
    (updateThreshold (roiOf s.op.cur) s).map fun t =>
      some (if isCycle t.op.cur then t.trTo .rowPass else trFinish t.op.res t)
  | .rowPass =>
    (pass .row (roiOf s.op.cur) (thrOf s) (initBox (roiOf s.op.cur) s)).map fun t =>
      some (t.trTo .colPass)
  | .colPass =>
    (pass .col (roiOf s.op.cur) (thrOf s) s).map fun t =>
      some (if isCycle t.op.cur then (overlay t).trTo .error
        else trFinish { (overlay t).op.res with box := rectOut (overlay t).tr.box } (overlay t))
  | .error =>
    let t := computeError (errorArgs s).1 (errorArgs s).2 s
    .ok (some (if isCycle t.op.cur then t.trTo .command else trFinish (errorResults t) t))
  | .command => .ok (some (afterCommand (commandPhase s)))

end Sys2Proof.Machine
end

