-- ==== Sys2Proof/Machine/Sequencer.lean ====
section
/-! DEFINITION. How the block runs on: the bus core, the BM, FG and TR sequencers take their steps one at
a time, until the operation is done, a poll holds, or the steps given to this step of the machine are
used (spec/00_scope.md R7; spec/20_memory.md R48, R50; log 6, 7). -/

namespace Sys2Proof.Machine

/-- One step of the one agent whose turn it is (R7, R48): the bus core while a command is in flight, else
the sequencer out of its idle phase; TR waits in `Capture` for FG. `none`: nothing can go on without the
environment (R50). -/
def tick (s : State) : Except Refusal (Option State) :=
  if s.bus.inflight ≠ none then .ok (coreTick s.listening s)
  else if s.bm.phase ≠ .idle then bmTick s
  else if s.fg.phase ≠ .idle then .ok (fgTick s)
  else trTick s

/-- At most `n` steps. -/
def drive : Nat → State → Host.Outcome State Fault Refusal
  | 0, s => .next s
  | n + 1, s =>
    match tick s with
    | .ok none => .next s
    | .ok (some t) => drive n t
    | .error r => .refused r

/-- More steps than the longest operation takes before it is done or holds: a capture reads one answer
in each wait step, a cycle reads at least two, and nothing else takes more than a fixed number. -/
def ampleSteps (s : State) : Nat := 64 + 6 * s.env.status.length

/-- The steps given to this step of the machine (log 6). -/
def quantum (s : State) : Nat :=
  match s.env.pace with
  | [] => ampleSteps s
  | n :: _ => n

/-- The block runs on. -/
def resume (s : State) : Host.Outcome State Fault Refusal :=
  drive (quantum s) (s.withEnv { s.env with pace := s.env.pace.tail })

/-- A request is accepted: its operands are latched (R62), its sequencer is started and runs on. -/
def launch (i : Instr) (start : State → State) (s : State) : Host.Outcome State Fault Refusal :=
  resume (start (s.withOp { s.op with cur := some i }))

/-- The acceptance of a request (R28): only while `OP.busy` = 0 (U9). -/
def accept (i : Instr) (start : State → State) (s : State) : Host.Outcome State Fault Refusal :=
  if s.busy then .refused .busy else launch i start s

/-- A BM operation is refused before `BM_INIT` (U6, R210). -/
def acceptBus (i : Instr) (start : State → State) (s : State) : Host.Outcome State Fault Refusal :=
  if s.busy then .refused .busy
  else if s.bm.inited = false then .refused .notInitialised
  else launch i start s

end Sys2Proof.Machine
end

