-- ==== Sys2Proof/Machine/BusOps.lean ====
section
/-! DEFINITION. The operations of unit BM (spec/40_busmaster.md R90, R93, R96, R97). -/

namespace Sys2Proof.Machine

/-- `BM_INIT` (R90). Refused while busy (U9) or inside a held transaction (U8). -/
def execBmInit (slaveAddress : Byte) (s : State) : Host.Outcome State Fault Refusal :=
  if s.busy then .refused .busy
  else if s.bus.busOpen then .refused .initOnOpenBus
  else
    match initBus slaveAddress s with
    | .ok t => .next t
    | .error r => .refused r

/-- `BM_XFER` (R93): one transfer, with its descriptor `d s a` and its operand. -/
def execBmXfer (d stop a : Bool) (data : Byte) (s : State) : Host.Outcome State Fault Refusal :=
  acceptBus (.bmXfer d stop a data) (startXfer .none d stop a data) s

/-- `BM_REGWR` (R96): its first transfer sends the sub-address and keeps the bus. -/
def execBmRegwr (sub val : Byte) (s : State) : Host.Outcome State Fault Refusal :=
  acceptBus (.bmRegwr sub val) (startXfer .first false false true sub) s

/-- `BM_REGRD` (R97): its first transfer sends the sub-address and keeps the bus. -/
def execBmRegrd (sub : Byte) (s : State) : Host.Outcome State Fault Refusal :=
  acceptBus (.bmRegrd sub) (startXfer .first false false true sub) s

end Sys2Proof.Machine
end

