-- ==== Sys2Proof/Machine/CommandBytes.lean ====
section
/-! DEFINITION. The command bytes (spec/40_busmaster.md R83 to R88, R98, R99): the write of the byte to
`BM_CMD` (R81), then its completion (R82) if the slave has answered; if it has not, the byte stays in
flight and the bus core completes it in a later step (log 23). And the address byte
(spec/30_encoding.md R66). -/

namespace Sys2Proof.Machine

/-- A command byte given to the bus core (R81, R82). -/
def busCommand (c : Cmd) (s : State) : Host.Outcome State Fault Refusal :=
  match ioWrite .cmdStatus c.byte s with
  | .ok t => .next ((coreTick true t).getD t)
  | .error r => .refused r

/-- `C_STA_WR` (R83). -/
def execCStaWr (s : State) : Host.Outcome State Fault Refusal := busCommand .staWr s

/-- `C_WR` (R84). -/
def execCWr (s : State) : Host.Outcome State Fault Refusal := busCommand .wr s

/-- `C_WR_STO` (R85). -/
def execCWrSto (s : State) : Host.Outcome State Fault Refusal := busCommand .wrSto s

/-- `C_RD` (R86). -/
def execCRd (s : State) : Host.Outcome State Fault Refusal := busCommand .rd s

/-- `C_RD_NACK_STO` (R87). -/
def execCRdNackSto (s : State) : Host.Outcome State Fault Refusal := busCommand .rdNackSto s

/-- `C_STO` (R88). -/
def execCSto (s : State) : Host.Outcome State Fault Refusal := busCommand .sto s

/-- `C_RD_NACK` (R98). -/
def execCRdNack (s : State) : Host.Outcome State Fault Refusal := busCommand .rdNack s

/-- `C_RD_STO` (R99). -/
def execCRdSto (s : State) : Host.Outcome State Fault Refusal := busCommand .rdSto s

/-- The address byte (R66): what the address phase loads into `TXR` for `C_STA_WR` to send (R93; log
24). -/
def execAddrByte (addr : BitVec 7) (d : Bool) (s : State) : Host.Outcome State Fault Refusal :=
  match ioWrite .data (addrWord addr d) s with
  | .ok t => .next t
  | .error r => .refused r

end Sys2Proof.Machine
end

