-- ==== Sys2Proof/Machine/FrameOps.lean ====
section
/-! DEFINITION. The operations of units FG and FB (spec/41_framegrabber.md R121;
spec/42_framebuffer.md R141, R142). The accessor has no sequencer: a load or a store is one step. -/

namespace Sys2Proof.Machine

/-- `FG_CAPTURE` (R121). -/
def execFgCapture (s : State) : Host.Outcome State Fault Refusal :=
  accept .fgCapture startCapture s

/-- `FB_RDPIX` (R141). -/
def execFbRdpix (row col : Int) (s : State) : Host.Outcome State Fault Refusal :=
  if s.busy then .refused .busy
  else
    match fbRead row col s with
    | .ok v => .next (s.results { s.op.res with val := v })
    | .error r => .refused r

/-- `FB_WRPIX` (R142). -/
def execFbWrpix (row col : Int) (val : Byte) (s : State) : Host.Outcome State Fault Refusal :=
  if s.busy then .refused .busy else .next (fbWrite row col val s)

end Sys2Proof.Machine
end

