-- ==== Sys2Proof/Machine/TrackerOps.lean ====
section
/-! DEFINITION. The operations of unit TR (spec/43_tracker.md R151, R152, R156 to R159): each starts the
sequencer in its first phase. -/

namespace Sys2Proof.Machine

/-- `TR_UPDTHR` (R151). -/
def execTrUpdthr (roi : Rect) (s : State) : Host.Outcome State Fault Refusal :=
  accept (.trUpdthr roi) (fun t => t.trTo .threshold) s

/-- `TR_LOCATE` (R152). -/
def execTrLocate (roi : Rect) (thr : Byte) (s : State) : Host.Outcome State Fault Refusal :=
  accept (.trLocate roi thr) (fun t => t.trTo .rowPass) s

/-- `TR_ERROR` (R156). -/
def execTrError (box : Rect) (roiCenter : Point) (s : State) : Host.Outcome State Fault Refusal :=
  accept (.trError box roiCenter) (fun t => t.trTo .error) s

/-- `TR_COMMAND` (R157). -/
def execTrCommand (panError tiltError : Int) (lastPan lastTilt : Pos) (s : State) :
    Host.Outcome State Fault Refusal :=
  accept (.trCommand panError tiltError lastPan lastTilt) (fun t => t.trTo .command) s

/-- `TR_SNAPSHOT` (R158). -/
def execTrSnapshot (roi : Rect) (s : State) : Host.Outcome State Fault Refusal :=
  accept (.trSnapshot roi) startCycle s

/-- `TR_TRACK` (R159): it never completes. -/
def execTrTrack (roi : Rect) (s : State) : Host.Outcome State Fault Refusal :=
  accept (.trTrack roi) startCycle s

end Sys2Proof.Machine
end

