-- ==== Sys2Proof/Machine/Dispatch.lean ====
section
/-! DEFINITION. One arm per instruction: its meaning. -/

namespace Sys2Proof.Machine

def exec (i : Instr) (s : State) : Host.Outcome State Fault Refusal :=
  match i with
  -- format H: unit BM
  | .bmInit slaveAddress => Sys2Proof.Machine.execBmInit slaveAddress s
  | .bmXfer d stop a data => Sys2Proof.Machine.execBmXfer d stop a data s
  | .bmRegwr sub val => Sys2Proof.Machine.execBmRegwr sub val s
  | .bmRegrd sub => Sys2Proof.Machine.execBmRegrd sub s
  -- units FG and FB
  | .fgCapture => Sys2Proof.Machine.execFgCapture s
  | .fbRdpix row col => Sys2Proof.Machine.execFbRdpix row col s
  | .fbWrpix row col val => Sys2Proof.Machine.execFbWrpix row col val s
  -- unit TR
  | .trUpdthr roi => Sys2Proof.Machine.execTrUpdthr roi s
  | .trLocate roi thr => Sys2Proof.Machine.execTrLocate roi thr s
  | .trError box roiCenter => Sys2Proof.Machine.execTrError box roiCenter s
  | .trCommand pe te lp lt => Sys2Proof.Machine.execTrCommand pe te lp lt s
  | .trSnapshot roi => Sys2Proof.Machine.execTrSnapshot roi s
  | .trTrack roi => Sys2Proof.Machine.execTrTrack roi s
  -- the block
  | .blkReset => Sys2Proof.Machine.execBlkReset s
  -- format C
  | .cStaWr => Sys2Proof.Machine.execCStaWr s
  | .cWr => Sys2Proof.Machine.execCWr s
  | .cWrSto => Sys2Proof.Machine.execCWrSto s
  | .cRd => Sys2Proof.Machine.execCRd s
  | .cRdNackSto => Sys2Proof.Machine.execCRdNackSto s
  | .cSto => Sys2Proof.Machine.execCSto s
  | .cRdNack => Sys2Proof.Machine.execCRdNack s
  | .cRdSto => Sys2Proof.Machine.execCRdSto s
  -- format A
  | .addrByte addr d => Sys2Proof.Machine.execAddrByte addr d s

end Sys2Proof.Machine
end

