-- ==== Sys2Proof/Machine/HostPort.lean ====
section
/-! DEFINITION. The operation port and the host's moves (spec/10_state.md R28;
spec/70_reset_and_hazards.md R200, R201). -/

namespace Sys2Proof.Machine

/-- The name under which a reserved word is refused (U10, R69). -/
def rejected : Reject → Refusal
  | .reservedCode => .reservedCode
  | .reservedFlags => .reservedFlags
  | .reservedCommand => .reservedCommandByte

/-- What the port holds: format H, the word and the operand registers (R60, R62). -/
def portPacket (s : State) : Packet := ⟨.operation, s.op.word, s.op.args⟩

/-- The strobe is taken down as the request is served. -/
def clearStrobe (s : State) : State := s.withOp { s.op with strobe := false }

/-- Put a request on the port. -/
def putRequest (word : Byte) (args : Operands) (s : State) : State :=
  s.withOp { s.op with strobe := true, word := word, args := args }

/-- Whether the host makes its next move now: the reset input and an early request at any time (R200,
R201, U9), any other request once the block is idle and no command is in flight (R212). -/
def moveLands (m : HostMove) (s : State) : Bool :=
  match m with
  | .resetInput => true
  | .request early _ _ => early || (!s.busy && decide (s.bus.inflight = none))

/-- The host's next move. -/
def hostMove (m : HostMove) (rest : List HostMove) (s : State) : State :=
  let t := s.withEnv { s.env with host := rest }
  match m with
  | .resetInput => blockReset t
  | .request _ word args => putRequest word args t

end Sys2Proof.Machine
end

