-- ==== Sys2Proof/Machine/Step.lean ====
section
/-! DEFINITION. One step of the machine: a request standing on the port is served; else the host moves, if
its next move lands now; else the block runs on (spec/00_scope.md R7). -/

namespace Sys2Proof.Machine

/-- With no request on the port. -/
def runOn (s : State) : Host.Outcome State Fault Refusal :=
  match s.env.host with
  | [] => resume s
  | m :: rest => if moveLands m s then .next (hostMove m rest s) else resume s

/-- One step. -/
def step (s : State) : Host.Outcome State Fault Refusal :=
  if s.op.strobe then
    match decode (portPacket s) with
    | .ok i => exec i (clearStrobe s)
    | .error r => .refused (rejected r)
  else runOn s

/-- The state with an operation word of the table on the port, every operand register zero, and the
strobe up: the next step serves it (log 5). -/
def State.withFetchWord (s : State) (_nbits w : Nat) : State :=
  putRequest (BitVec.ofNat 8 w) .zero s

end Sys2Proof.Machine
end

