-- ==== Sys2Proof/Safety.lean ====
section
/-! DEFINITION. What counts as a safe state and a completed operation, in the terms the claims use: the
conditions an operation executes normally under, the invariants of the block, the state a transfer ends
in (spec/40_busmaster.md R94), a sensor under which a capture ends (spec/41_framegrabber.md R130), and what
a run of bright pixels is (spec/43_tracker.md R153). -/

namespace Sys2Proof.Machine

/-! Conditions on the state an operation is accepted in. -/

/-- The block is idle (R28), no command is in flight, and the steps are not counted out (log 6). -/
structure Idle (s : State) : Prop where
  free : s.busy = false
  noCommand : s.bus.inflight = none
  unpaced : s.env.pace = []

/-- Idle, and the bus core initialised and enabled (R90, R93). -/
structure BusReady (s : State) : Prop extends Idle s where
  inited : s.bm.inited = true
  enabled : s.enabled = true

/-- No move of the host lands (R200, R212): it has none listed, or the next one waits for the block. -/
def HostWaits (s : State) : Prop := ∀ m rest, s.env.host = m :: rest → moveLands m s = false

/-! Invariants. -/

/-- Every byte of the frame buffer lies inside it (R42). -/
def FrameInRange (s : State) : Prop := ∀ e ∈ s.fb, e.1 < s.cfg.rows * s.cfg.cols

/-- `TIP` = 1 exactly while a command with `RD` or `WR` is in flight (R21), and no other is. -/
def TipMatches (s : State) : Prop :=
  (∀ c, s.bus.inflight = some c → c.moves = true) ∧ (s.bus.tip = true ↔ s.bus.inflight ≠ none)

/-- An initialised bus core is enabled (R90, U1). -/
def InitedEnabled (s : State) : Prop := s.bm.inited = true → s.enabled = true

/-- At most one sequencer is out of its idle phase, but for TR waiting in `Capture` for FG; a command is
in flight only while BM waits for it (R7, R33, R91). -/
def OneSequencer (s : State) : Prop :=
  (s.bm.phase ≠ .idle → s.fg.phase = .idle ∧ s.tr.phase = .idle) ∧
  (s.fg.phase ≠ .idle → s.tr.phase = .idle ∨ s.tr.phase = .capture) ∧
  (s.bus.inflight ≠ none → s.bm.phase = .addrWait ∨ s.bm.phase = .dataWait)

/-- The last commanded positions lie within the travel limits (R157). -/
def PositionsInLimits (s : State) : Prop :=
  s.cfg.panMin ≤ s.tr.lastPan ∧ s.tr.lastPan ≤ s.cfg.panMax ∧
  s.cfg.tiltMin ≤ s.tr.lastTilt ∧ s.tr.lastTilt ≤ s.cfg.tiltMax

/-! The state a transfer ends in. -/

/-- What one transfer leaves (the columns of R94, and the registers behind them). -/
structure TransferEnd where
  events  : List Event
  writes  : List IoWrite
  success : Bool
  dataOut : Byte
  txr     : Byte
  rxr     : Byte
  ack     : Bool
  busOpen : Bool

/-- The state in which a transfer `d stop a` with operand `x` leaves the block, the results apart; every
field not named is as before. -/
def transferEnd (s : State) (d stop a : Bool) (x : Byte) (e : TransferEnd) (env : Env) : State :=
  { s with
    bm := { s.bm with
      dir := d, stop := stop, addr := a, dataIn := x, success := e.success, dataOut := e.dataOut,
      phase := .idle, sub := .none }
    bus := { s.bus with
      txr := e.txr, rxr := e.rxr, ack := e.ack, tip := false, inflight := none,
      busOpen := e.busOpen, wire := s.bus.wire ++ e.events }
    op := { s.op with cur := none }
    env := env
    io := s.io ++ e.writes }

/-- The results of a `BM_XFER`: `success` and `data` (R62). -/
def xferResults (t : State) : State :=
  { t with op := { t.op with
      res := { t.op.res with success := t.bm.success, data := t.bm.dataOut } } }

/-- A STOP event when it was asked for. -/
def stopIf (stop : Bool) : List Event := if stop then [.stop] else []

/-- The address phase is not acknowledged: the rows AK1 of R94. -/
def addrNack (s : State) (d : Bool) (x : Byte) : TransferEnd where
  events := [.start, .tx (slaveAddrByte s.bm.slaveAddr d) true, .stop]
  writes := [.data (slaveAddrByte s.bm.slaveAddr d), .cmd 0x90, .cmd 0x40]
  success := false
  dataOut := x
  txr := slaveAddrByte s.bm.slaveAddr d
  rxr := s.bus.rxr
  ack := true
  busOpen := false

/-- The writes and the events of an acknowledged address phase (R94). -/
def addrWrites (s : State) (d a : Bool) : List IoWrite :=
  if a then [.data (slaveAddrByte s.bm.slaveAddr d), .cmd 0x90] else []

def addrEvents (s : State) (d a : Bool) : List Event :=
  if a then [.start, .tx (slaveAddrByte s.bm.slaveAddr d) false] else []

/-- The rows DK0 of R94. -/
def writeAck (s : State) (stop a : Bool) (x : Byte) : TransferEnd where
  events := addrEvents s false a ++ [.tx x false] ++ stopIf stop
  writes := addrWrites s false a ++ [.data x, .cmd (if stop then 0x50 else 0x10)]
  success := true
  dataOut := x
  txr := x
  rxr := s.bus.rxr
  ack := false
  busOpen := !stop

/-- The rows DK1 of R94: with STOP requested two STOP events are recorded. -/
def writeNack (s : State) (stop a : Bool) (x : Byte) : TransferEnd where
  events := addrEvents s false a ++ [.tx x true] ++ stopIf stop ++ [.stop]
  writes := addrWrites s false a ++ [.data x, .cmd (if stop then 0x50 else 0x10), .cmd 0x40]
  success := false
  dataOut := x
  txr := x
  rxr := s.bus.rxr
  ack := true
  busOpen := false

/-- Whether the master answers the byte of a read with NACK: when STOP follows (R89), and under
`NACK_POLICY` = every byte always (R98, D6). -/
def readNack (c : Cfg) (stop : Bool) : Bool := stop || decide (c.nackPolicy = .everyByte)

/-- The command byte of the data phase of a read (R89, R98). -/
def readWord (c : Cfg) (stop : Bool) : Byte :=
  if stop then 0x68 else if readNack c stop then 0x28 else 0x20

/-- The rows with a byte read (R94), for every `NACK_POLICY`; `v` is what the read leaves in `ACK`, any
value (U12). -/
def readByte (s : State) (stop a : Bool) (b : Byte) (v : Bool) : TransferEnd where
  events := addrEvents s true a ++ [.rx b (readNack s.cfg stop)] ++ stopIf stop
  writes := addrWrites s true a ++ [.cmd (readWord s.cfg stop)]
  success := true
  dataOut := b
  txr := if a then slaveAddrByte s.bm.slaveAddr true else s.bus.txr
  rxr := b
  ack := v
  busOpen := !stop

/-! The ends of the register-level operations (R96, R97). -/

/-- The register write has sent sub-address and value: its second transfer ends it (R96). `nack` is the
slave's answer to the value. -/
def regWriteEnd (s : State) (sub val : Byte) (nack : Bool) : TransferEnd where
  events := [.start, .tx (slaveAddrByte s.bm.slaveAddr false) false, .tx sub false, .tx val nack, .stop]
    ++ stopIf nack
  writes := [.data (slaveAddrByte s.bm.slaveAddr false), .cmd 0x90, .data sub, .cmd 0x10, .data val,
    .cmd 0x50] ++ (if nack then [.cmd 0x40] else [])
  success := !nack
  dataOut := val
  txr := val
  rxr := s.bus.rxr
  ack := nack
  busOpen := false

/-- The first transfer of a register read and the address of its second (R97). -/
def regReadEvents (s : State) (sub : Byte) (nack : Bool) : List Event :=
  [.start, .tx (slaveAddrByte s.bm.slaveAddr false) false, .tx sub false, .start,
    .tx (slaveAddrByte s.bm.slaveAddr true) nack]

def regReadWrites (s : State) (sub : Byte) : List IoWrite :=
  [.data (slaveAddrByte s.bm.slaveAddr false), .cmd 0x90, .data sub, .cmd 0x10,
    .data (slaveAddrByte s.bm.slaveAddr true), .cmd 0x90]

/-- The register read has received its byte (R97); `v` is what the read leaves in `ACK` (U12). -/
def regReadEnd (s : State) (sub b : Byte) (v : Bool) : TransferEnd where
  events := regReadEvents s sub false ++ [.rx b true, .stop]
  writes := regReadWrites s sub ++ [.cmd 0x68]
  success := true
  dataOut := b
  txr := slaveAddrByte s.bm.slaveAddr true
  rxr := b
  ack := v
  busOpen := false

/-- The read address of a register read is not acknowledged (R97): `dataOut` is the operand `y` of the
second transfer. -/
def regReadNack (s : State) (sub y : Byte) : TransferEnd where
  events := regReadEvents s sub true ++ [.stop]
  writes := regReadWrites s sub ++ [.cmd 0x40]
  success := false
  dataOut := y
  txr := slaveAddrByte s.bm.slaveAddr true
  rxr := s.bus.rxr
  ack := true
  busOpen := false

/-- The result of a `BM_REGWR`: `success` (R62). -/
def regwrResults (t : State) : State :=
  { t with op := { t.op with res := { t.op.res with success := t.bm.success } } }

/-- The results of a `BM_REGRD`: `success` and `val` (R62). -/
def regrdResults (v : Byte) (t : State) : State :=
  { t with op := { t.op with res := { t.op.res with success := t.bm.success, val := v } } }

/-- The machine has come from `s` to a poll of `TIP` that waits (R91): BM stands in phase `p`, command
`c` is in flight, `events` are on the wires. It stays there while no request and no move of the host
lands (R213). -/
structure WaitsForCore (s t : State) (p : BmPhase) (c : Cmd) (events : List Event) : Prop where
  phase : t.bm.phase = p
  flying : t.bus.inflight = some c
  tip : t.bus.tip = true
  busy : t.busy = true
  wire : t.bus.wire = s.bus.wire ++ events
  holds : t.op.strobe = false → HostWaits t → step t = .next t

/-! A sensor under which a capture ends (R130). -/

/-- The two levels one wait for an edge awaits, in order, with the bit of `FG_STATUS` they are polled on
(R122 to R124). -/
def edgeWait (bit : Nat) (l1 l2 : Bool) : List (Nat × Bool) := [(bit, l1), (bit, l2)]

/-- What one row awaits: its row start, then one pixel clock for each raw column (R121). -/
def rowWaits (c : Cfg) : List (Nat × Bool) :=
  edgeWait c.rsyncBit false true ++
    (List.replicate c.sensorCols (edgeWait c.pclkBit false true)).flatten

/-- What one capture awaits: its frame start, then each row (R121). -/
def frameWaits (c : Cfg) : List (Nat × Bool) :=
  edgeWait c.fsyncBit (edgeFrom c.frameStart) (edgeTo c.frameStart) ++
    (List.replicate c.sensorRows (rowWaits c)).flatten

/-- The reads of `FG_STATUS` end a list of waits, in order: for each, any number of reads that show the
other level of the polled signal, then one that shows the awaited level (R50). Every bit that a wait does
not poll is any value (R22, U11). An ideal sensor's reads (R130) do this. -/
def EndsWaits : List (Nat × Bool) → List Byte → Prop
  | [], reads => reads = []
  | w :: ws, reads => ∃ others b rest, reads = others ++ b :: rest ∧
      (∀ x ∈ others, x.getLsbD w.1 ≠ w.2) ∧ b.getLsbD w.1 = w.2 ∧ EndsWaits ws rest

/-- The kept coordinates in sensor order: row by row, column by column (R52, R125). -/
def keptCoords (c : Cfg) : List (Nat × Nat) :=
  (List.range c.sensorRows).flatMap fun r =>
    ((List.range c.sensorCols).filter fun k => kept c r k).map fun k => (r, k)

/-- The kept samples of a sensor frame. -/
def keptSamples (c : Cfg) (frame : Nat → Nat → Byte) : List Byte :=
  (keptCoords c).map fun k => frame k.1 k.2

/-- The frame buffer after the kept samples have been stored through the accessor, in sensor order. -/
def storeKept (c : Cfg) (frame : Nat → Nat → Byte) (m : List Host.Cell) : List Host.Cell :=
  (keptCoords c).foldl
    (fun m k => Memory.write m (pixAddr c (decMap c k.1 k.2).1 (decMap c k.1 k.2).2)
      (frame k.1 k.2)) m

/-! The waits (R122 to R124): the signal polled, the level awaited, and what follows. -/

/-- For a wait phase of FG: the bit of `FG_STATUS`, the awaited level, the state after the wait. -/
def waitOf (c : Cfg) : FgPhase → Option (Nat × Bool × (State → State))
  | .frameWaitA => some (c.fsyncBit, edgeFrom c.frameStart, fun t => t.fgTo .frameWaitB)
  | .frameWaitB => some (c.fsyncBit, edgeTo c.frameStart, enterRow 0)
  | .rowWaitFall => some (c.rsyncBit, false, fun t => t.fgTo .rowWaitRise)
  | .rowWaitRise => some (c.rsyncBit, true, enterCol 0)
  | .pixWaitFall => some (c.pclkBit, false, fun t => t.fgTo .pixWaitRise)
  | .pixWaitRise => some (c.pclkBit, true, fun t => t.fgTo .sample)
  | .idle => none
  | .sample => none
  | .done => none

/-! Runs of bright pixels (R153). -/

/-- In a line given by its brightness, `lo .. hi` is a maximal bright sequence within `first .. last`. -/
def IsRun (bright : Int → Prop) (first last lo hi : Int) : Prop :=
  first ≤ lo ∧ lo ≤ hi ∧ hi ≤ last ∧ (∀ x, lo ≤ x → x ≤ hi → bright x) ∧
  (lo = first ∨ ¬ bright (lo - 1)) ∧ (hi = last ∨ ¬ bright (hi + 1))

/-- The first and the last scan line, the first and the last position along one (R154, R155). -/
def firstLine (a : Axis) (roi : Rect) : Int :=
  match a with
  | .row => roi.rowStart
  | .col => roi.colStart

def lastLine (a : Axis) (roi : Rect) : Int :=
  match a with
  | .row => roi.rowEnd
  | .col => roi.colEnd

def firstAlong (a : Axis) (roi : Rect) : Int :=
  match a with
  | .row => roi.colStart
  | .col => roi.rowStart

/-- The bounds a pass may write (R154: columns, R155: rows). -/
def boundsOf (a : Axis) (b : Rect) : Int × Int :=
  match a with
  | .row => (b.colStart, b.colEnd)
  | .col => (b.rowStart, b.rowEnd)

/-- Every pixel of a region has a value, given by `p` (R217). -/
def RegionReads (s : State) (roi : Rect) (p : Int → Int → Byte) : Prop :=
  ∀ i j, roi.rowStart ≤ i → i ≤ roi.rowEnd → roi.colStart ≤ j → j ≤ roi.colEnd →
    fbRead i j s = .ok (p i j)

/-- The pixel at position `x` of line `l` is strictly brighter than the threshold (R153). -/
def brightAt (a : Axis) (p : Int → Int → Byte) (thr : Byte) (l x : Int) : Prop :=
  thr < p (pixelOf a l x).1 (pixelOf a l x).2

/-- `lo .. hi` is the run a pass selects: a run of some line, longer than the minimum, no run of the
region longer, and none of the same length in an earlier line or earlier in its line (R153: "first-seen
wins ties"). -/
def Selected (a : Axis) (roi : Rect) (p : Int → Int → Byte) (thr : Byte) (minRun : Nat)
    (lo hi : Int) : Prop :=
  ∃ l, firstLine a roi ≤ l ∧ l ≤ lastLine a roi ∧
    IsRun (brightAt a p thr l) (firstAlong a roi) (lastOf a roi) lo hi ∧
    (minRun : Int) < hi - lo + 1 ∧
    ∀ l' lo' hi', firstLine a roi ≤ l' → l' ≤ lastLine a roi →
      IsRun (brightAt a p thr l') (firstAlong a roi) (lastOf a roi) lo' hi' →
      hi' - lo' ≤ hi - lo ∧ (hi' - lo' = hi - lo → l < l' ∨ l = l' ∧ lo ≤ lo')

/-- No run of the region is longer than the minimum. -/
def NoneQualifies (a : Axis) (roi : Rect) (p : Int → Int → Byte) (thr : Byte) (minRun : Nat) : Prop :=
  ∀ l lo hi, firstLine a roi ≤ l → l ≤ lastLine a roi →
    IsRun (brightAt a p thr l) (firstAlong a roi) (lastOf a roi) lo hi → hi - lo + 1 ≤ (minRun : Int)

/-- The box a `locateBoundingBox` starts from: the region on first use (R152). -/
def boxBefore (s : State) (roi : Rect) : Rect := if s.tr.boxValid then s.tr.box else roi

/-! The operations of the host (R61) and the reserved words (R69). -/

/-- The operations refused while the block is busy: every one but `BLK_RESET` (R28, R201). -/
def waitsForIdle : Instr → Bool
  | .bmInit _ => true
  | .bmXfer _ _ _ _ => true
  | .bmRegwr _ _ => true
  | .bmRegrd _ => true
  | .fgCapture => true
  | .fbRdpix _ _ => true
  | .fbWrpix _ _ _ => true
  | .trUpdthr _ => true
  | .trLocate _ _ => true
  | .trError _ _ => true
  | .trCommand _ _ _ _ => true
  | .trSnapshot _ => true
  | .trTrack _ => true
  | .blkReset => false
  | .cStaWr => false
  | .cWr => false
  | .cWrSto => false
  | .cRd => false
  | .cRdNackSto => false
  | .cSto => false
  | .cRdNack => false
  | .cRdSto => false
  | .addrByte _ _ => false

/-- A reserved operation word (R69): code 0x0 or 0xE, `flags[3]` = 1, or flags on an operation other
than `BM_XFER`. -/
def reservedWord (w : Byte) : Bool :=
  let op := w.extractLsb' 4 4
  let flags := w.extractLsb' 0 4
  decide (op = 0x0) || decide (op = 0xE) || flags.getLsbD 3 || (decide (op ≠ 0x2) && decide (flags ≠ 0))

end Sys2Proof.Machine
end

