-- ==== Sys2Proof/Certificates/Slice0/Obligations.lean ====
section
/-! DEFINITION. The statements about the model, each a def of its own; what a name rests on is said in
its docstring. A value the model chose and not the spec is named there with its log entry. -/

open Sys2Proof Sys2Proof.Machine

/-! ## Encodings -/

/-- Every well-formed instruction of every format is what its encoding decodes to (R60 to R68). -/
def Obligations.DecodeOfEncodeIsTheInstruction : Prop :=
  ∀ i : Instr, wellFormed i = true → decode (encode i) = .ok i

/-- What decodes is well-formed and encodes to the same word of the same format (R60 to R66). -/
def Obligations.DecodedInstructionKeepsItsWord : Prop :=
  ∀ (p : Packet) (i : Instr), decode p = .ok i →
    wellFormed i = true ∧ (encode i).format = p.format ∧ (encode i).word = p.word

/-- Words written out from R61, R63, R65 and R66 decode to the instruction they stand for. -/
def Obligations.SpecWordsDecode : Prop :=
  decode ⟨.operation, 0b00010000, { Operands.zero with slaveAddress := 0xC0 }⟩ = .ok (.bmInit 0xC0) ∧
  decode ⟨.operation, 0b00100011, { Operands.zero with data := 0x12 }⟩
    = .ok (.bmXfer false true true 0x12) ∧
  decode ⟨.operation, 0b01110000, { Operands.zero with row := 0xFFFF, col := 0x0009, val := 0xFF }⟩
    = .ok (.fbWrpix (-1) 9 0xFF) ∧
  decode ⟨.operation, 0b10010000, { Operands.zero with roi := ⟨0, 7, 0, 0xB⟩, thr := 0x69 }⟩
    = .ok (.trLocate ⟨0, 7, 0, 11⟩ 0x69) ∧
  decode ⟨.command, 0b01101000, .zero⟩ = .ok .cRdNackSto ∧
  decode ⟨.address, 0b11000001, .zero⟩ = .ok (.addrByte 0b1100000 true)

/-- R69, U10, U3: exactly the reserved operation words decode to nothing, and a request with one is
refused by name, whatever the block is doing; every command byte but the eight of R65 is refused in every
state. -/
def Obligations.ReservedWordsRefused : Prop :=
  (∀ (w : Byte) (x : Operands), reservedWord w = true ↔ ∃ r, decodeOperation w x = .error r) ∧
  (∀ s : State, s.op.strobe = true → reservedWord s.op.word = true →
    step s = .refused .reservedCode ∨ step s = .refused .reservedFlags) ∧
  ∀ (b : Byte) (s : State),
    b ∉ [0x90#8, 0x10#8, 0x50#8, 0x20#8, 0x68#8, 0x40#8, 0x28#8, 0x60#8] →
    decode ⟨.command, b, .zero⟩ = .error .reservedCommand ∧
    ioWrite .cmdStatus b s = .error .reservedCommandByte

/-! ## The step -/

/-- A request standing on the port is decoded and executed; around it the step takes the strobe down
(R28, R60). -/
def Obligations.StepRunsTheDecodedInstruction : Prop :=
  ∀ (s : State) (i : Instr), s.op.strobe = true → decode (portPacket s) = .ok i →
    wellFormed i = true ∧ step s = exec i { s with op := { s.op with strobe := false } }

/-- The host's next request is put on the port once the block is idle, and the step after that serves
it (R28, R212; the list of the host's moves is log 5). -/
def Obligations.HostRequestIsPutThenServed : Prop :=
  ∀ (s : State) (early : Bool) (w : Byte) (x : Operands) (rest : List HostMove) (i : Instr),
    s.op.strobe = false → s.busy = false → s.bus.inflight = none →
    s.env.host = .request early w x :: rest → decode ⟨.operation, w, x⟩ = .ok i →
    ∃ t, step s = .next t ∧
      step t = exec i { s with
        op := { s.op with word := w, args := x }, env := { s.env with host := rest } }

/-- R50, U13: where no agent can go on and no move of the host lands, the machine stays where it is: an
unbounded poll has no timeout (that a hang is a step to itself is log 7). -/
def Obligations.HeldMachineStaysPut : Prop :=
  ∀ s : State, s.op.strobe = false → HostWaits s → s.env.pace = [] → tick s = .ok none →
    step s = .next s

/-- A step that is not counted out runs until nothing can go on without the environment or the host
(R48, R50; the granularity is log 6). -/
def Obligations.UncountedRunEndsHeld : Prop :=
  ∀ s t : State, s.env.pace = [] → resume s = .next t → tick t = .ok none

/-! ## The bus core -/

/-- R81: a byte command raises `TIP` and goes in flight at its write; nothing is on the wires yet. -/
def Obligations.ByteCommandWriteRaisesTip : Prop :=
  ∀ (c : Cmd) (s : State), c.moves = true → s.enabled = true → s.bus.inflight = none →
    (c.sta = true ∨ s.bus.busOpen = true) →
    ioWrite .cmdStatus c.byte s = .ok { s with
      bus := { s.bus with inflight := some c, tip := true }
      io := s.io ++ [.cmd c.byte] }

/-- R83: START, the byte of `TXR` with the slave's acknowledge, the bus open. -/
def Obligations.StartWriteCompletes : Prop :=
  ∀ (s : State) (a : Bool) (rest : List Bool),
    s.enabled = true → s.bus.inflight = none → s.env.slaveAcks = a :: rest →
    exec .cStaWr s = .next { s with
      bus := { s.bus with
        wire := s.bus.wire ++ [.start, .tx s.bus.txr a], ack := a, tip := false, inflight := none,
        busOpen := true }
      env := { s.env with slaveAcks := rest }
      io := s.io ++ [.cmd 0x90] }

/-- R84: the byte of `TXR` on an open bus, which stays open. -/
def Obligations.WriteCompletes : Prop :=
  ∀ (s : State) (a : Bool) (rest : List Bool),
    s.enabled = true → s.bus.inflight = none → s.bus.busOpen = true → s.env.slaveAcks = a :: rest →
    exec .cWr s = .next { s with
      bus := { s.bus with
        wire := s.bus.wire ++ [.tx s.bus.txr a], ack := a, tip := false, inflight := none }
      env := { s.env with slaveAcks := rest }
      io := s.io ++ [.cmd 0x10] }

/-- R85: the byte of `TXR`, then STOP, whether or not the byte was acknowledged. -/
def Obligations.WriteStopCompletes : Prop :=
  ∀ (s : State) (a : Bool) (rest : List Bool),
    s.enabled = true → s.bus.inflight = none → s.bus.busOpen = true → s.env.slaveAcks = a :: rest →
    exec .cWrSto s = .next { s with
      bus := { s.bus with
        wire := s.bus.wire ++ [.tx s.bus.txr a, .stop], ack := a, tip := false, inflight := none,
        busOpen := false }
      env := { s.env with slaveAcks := rest }
      io := s.io ++ [.cmd 0x50] }

/-- R86, R98: a byte received on an open bus, answered with ACK or NACK, the bus kept; `ACK` is any
value (U12, log 8). -/
def Obligations.ReadsKeepingTheBusComplete : Prop :=
  ∀ (s : State) (b : Byte) (rest : List Byte),
    s.enabled = true → s.bus.inflight = none → s.bus.busOpen = true → s.env.slaveBytes = b :: rest →
    (∃ v, exec .cRd s = .next { s with
      bus := { s.bus with
        wire := s.bus.wire ++ [.rx b false], rxr := b, ack := v, tip := false, inflight := none }
      env := { s.env with slaveBytes := rest, draws := s.env.draws + 1 }
      io := s.io ++ [.cmd 0x20] }) ∧
    ∃ v, exec .cRdNack s = .next { s with
      bus := { s.bus with
        wire := s.bus.wire ++ [.rx b true], rxr := b, ack := v, tip := false, inflight := none }
      env := { s.env with slaveBytes := rest, draws := s.env.draws + 1 }
      io := s.io ++ [.cmd 0x28] }

/-- R87, R99: a byte received, answered with NACK or ACK, then STOP; `ACK` is any value (U12, log 8). -/
def Obligations.ReadsWithStopComplete : Prop :=
  ∀ (s : State) (b : Byte) (rest : List Byte),
    s.enabled = true → s.bus.inflight = none → s.bus.busOpen = true → s.env.slaveBytes = b :: rest →
    (∃ v, exec .cRdNackSto s = .next { s with
      bus := { s.bus with
        wire := s.bus.wire ++ [.rx b true, .stop], rxr := b, ack := v, tip := false,
        inflight := none, busOpen := false }
      env := { s.env with slaveBytes := rest, draws := s.env.draws + 1 }
      io := s.io ++ [.cmd 0x68] }) ∧
    ∃ v, exec .cRdSto s = .next { s with
      bus := { s.bus with
        wire := s.bus.wire ++ [.rx b false, .stop], rxr := b, ack := v, tip := false,
        inflight := none, busOpen := false }
      env := { s.env with slaveBytes := rest, draws := s.env.draws + 1 }
      io := s.io ++ [.cmd 0x60] }

/-- R88: STOP alone is recorded at the write, on an open bus and on a released one (U5), and raises no
`TIP`. -/
def Obligations.StopAloneCompletes : Prop :=
  ∀ s : State, s.enabled = true → s.bus.inflight = none →
    exec .cSto s = .next { s with
      bus := { s.bus with wire := s.bus.wire ++ [.stop], busOpen := false }
      io := s.io ++ [.cmd 0x40] }

/-- U1, U2, U4: the refusals of a command write, in the order the model checks them, and the model's
alternatives to two of them, both configuration: a disabled core ignores the command (R17, log 13), and on
a released bus nobody answers: a written byte is not acknowledged, a byte read is any value (U4, log 12). -/
def Obligations.CommandWritePolicies : Prop :=
  (∀ (c : Cmd) (s : State),
    (s.enabled = false → s.cfg.disabledCore = .refuse → exec c.instr s = .refused .coreDisabled) ∧
    (s.enabled = true → s.bus.inflight ≠ none → exec c.instr s = .refused .commandInFlight) ∧
    (s.enabled = true → s.bus.inflight = none → c.moves = true → c.sta = false →
      s.bus.busOpen = false → s.cfg.closedBus = .refuse → exec c.instr s = .refused .closedBus)) ∧
  (∀ (c : Cmd) (s : State), s.enabled = false → s.cfg.disabledCore = .ignore →
    exec c.instr s = .next { s with io := s.io ++ [.cmd c.byte] }) ∧
  ∀ s : State, s.enabled = true → s.bus.inflight = none → s.bus.busOpen = false →
    s.cfg.closedBus = .nobodyAnswers →
    exec .cWr s = .next { s with
      bus := { s.bus with
        wire := s.bus.wire ++ [.tx s.bus.txr true], ack := true, tip := false, inflight := none }
      io := s.io ++ [.cmd 0x10] } ∧
    ∃ b v, exec .cRd s = .next { s with
      bus := { s.bus with
        wire := s.bus.wire ++ [.rx b false], rxr := b, ack := v, tip := false, inflight := none }
      env := { s.env with draws := s.env.draws + 2 }
      io := s.io ++ [.cmd 0x20] }

/-- R66: bits 7:1 of the address byte are bits 7:1 of the stored address, bit 0 is the direction; the
address phase loads it into `TXR`, and nothing else changes (R93, log 24). While a command is in flight
the load is refused (U17). -/
def Obligations.AddressByteLoads : Prop :=
  (∀ (v : Byte) (d : Bool), (slaveAddrByte v d).getLsbD 0 = d ∧
    ∀ k, 1 ≤ k → (slaveAddrByte v d).getLsbD k = v.getLsbD k) ∧
  ∀ (addr : BitVec 7) (d : Bool) (s : State),
    (s.bus.inflight = none → exec (.addrByte addr d) s = .next { s with
      bus := { s.bus with txr := addrWord addr d }
      io := s.io ++ [.data (addrWord addr d)] }) ∧
    (s.bus.inflight ≠ none → exec (.addrByte addr d) s = .refused .dataInFlight)

/-! ## The operations of BM -/

/-- R90: the divisor, low byte then high byte, the enable bit, the stored address; no bus event. -/
def Obligations.InitConfiguresTheBus : Prop :=
  ∀ (v : Byte) (s : State), s.busy = false → s.bus.busOpen = false →
    exec (.bmInit v) s = .next { s with
      bm := { s.bm with slaveAddr := v, inited := true }
      bus := { s.bus with
        divLo := s.cfg.clkDiv.extractLsb' 0 8, divHi := s.cfg.clkDiv.extractLsb' 8 8, ctrl := 0x80 }
      io := s.io ++ [.divLo (s.cfg.clkDiv.extractLsb' 0 8), .divHi (s.cfg.clkDiv.extractLsb' 8 8),
        .ctrl 0x80] }

/-- R93, R94: a write with the address phase, by the slave's answers. -/
def Obligations.AddressedWriteTransfer : Prop :=
  ∀ (s : State) (stop : Bool) (x : Byte) (rest : List Bool), BusReady s →
    (s.env.slaveAcks = true :: rest →
      exec (.bmXfer false stop true x) s = .next (xferResults
        (transferEnd s false stop true x (addrNack s false x) { s.env with slaveAcks := rest }))) ∧
    (s.env.slaveAcks = false :: false :: rest →
      exec (.bmXfer false stop true x) s = .next (xferResults
        (transferEnd s false stop true x (writeAck s stop true x) { s.env with slaveAcks := rest }))) ∧
    (s.env.slaveAcks = false :: true :: rest →
      exec (.bmXfer false stop true x) s = .next (xferResults
        (transferEnd s false stop true x (writeNack s stop true x) { s.env with slaveAcks := rest })))

/-- R93, R94, R216: a write without the address phase, on an open bus: held for writing, by the slave's
answer; held otherwise, by `CLOSED_BUS_POLICY`: refused, or not acknowledged (U4, log 12). How the direction
is read off the wire trace is DEDUCED (log 38). -/
def Obligations.UnaddressedWriteTransfer : Prop :=
  ∀ (s : State) (stop : Bool) (x : Byte) (rest : List Bool), BusReady s → s.bus.busOpen = true →
    (s.direction = some false → s.env.slaveAcks = false :: rest →
      exec (.bmXfer false stop false x) s = .next (xferResults
        (transferEnd s false stop false x (writeAck s stop false x)
          { s.env with slaveAcks := rest }))) ∧
    (s.direction = some false → s.env.slaveAcks = true :: rest →
      exec (.bmXfer false stop false x) s = .next (xferResults
        (transferEnd s false stop false x (writeNack s stop false x)
          { s.env with slaveAcks := rest }))) ∧
    (s.direction ≠ some false → s.cfg.closedBus = .refuse →
      exec (.bmXfer false stop false x) s = .refused .wrongDirection) ∧
    (s.direction ≠ some false → s.cfg.closedBus = .nobodyAnswers →
      exec (.bmXfer false stop false x) s = .next (xferResults
        (transferEnd s false stop false x (writeNack s stop false x) s.env)))

/-- R93, R94: a read with the address phase, by the slave's answers, under either `NACK_POLICY` (R89, R98;
log 14). What the read leaves in `ACK` is any value (U12, log 8). -/
def Obligations.AddressedReadTransfer : Prop :=
  ∀ (s : State) (stop : Bool) (x : Byte) (rest : List Bool), BusReady s →
    (s.env.slaveAcks = true :: rest →
      exec (.bmXfer true stop true x) s = .next (xferResults
        (transferEnd s true stop true x (addrNack s true x) { s.env with slaveAcks := rest }))) ∧
    ∀ (b : Byte) (more : List Byte), s.env.slaveAcks = false :: rest → s.env.slaveBytes = b :: more →
      ∃ v, exec (.bmXfer true stop true x) s = .next (xferResults
        (transferEnd s true stop true x (readByte s stop true b v)
          { s.env with slaveAcks := rest, slaveBytes := more, draws := s.env.draws + 1 }))

/-- R93, R94, R216: a read without the address phase, on an open bus: held for reading, it checks no
acknowledge and succeeds whatever the slave does, under either `NACK_POLICY` (R89, R98; log 14); held
otherwise, by `CLOSED_BUS_POLICY`: refused, or with any byte (U4, log 12). How the direction is read off the
wire trace is DEDUCED (log 38). -/
def Obligations.UnaddressedReadTransfer : Prop :=
  ∀ (s : State) (stop : Bool) (x : Byte), BusReady s → s.bus.busOpen = true →
    (∀ (b : Byte) (more : List Byte), s.direction = some true → s.env.slaveBytes = b :: more →
      ∃ v, exec (.bmXfer true stop false x) s = .next (xferResults
        (transferEnd s true stop false x (readByte s stop false b v)
          { s.env with slaveBytes := more, draws := s.env.draws + 1 }))) ∧
    (s.direction ≠ some true → s.cfg.closedBus = .refuse →
      exec (.bmXfer true stop false x) s = .refused .wrongDirection) ∧
    (s.direction ≠ some true → s.cfg.closedBus = .nobodyAnswers →
      ∃ b v, exec (.bmXfer true stop false x) s = .next (xferResults
        (transferEnd s true stop false x (readByte s stop false b v)
          { s.env with draws := s.env.draws + 2 })))

/-- R96: the register write, by the slave's answers; a failed first transfer sends no value. -/
def Obligations.RegisterWriteOutcomes : Prop :=
  ∀ (s : State) (sub val : Byte) (rest : List Bool), BusReady s →
    (s.env.slaveAcks = true :: rest →
      exec (.bmRegwr sub val) s = .next (regwrResults
        (transferEnd s false false true sub (addrNack s false sub) { s.env with slaveAcks := rest }))) ∧
    (s.env.slaveAcks = false :: true :: rest →
      exec (.bmRegwr sub val) s = .next (regwrResults
        (transferEnd s false false true sub (writeNack s false true sub)
          { s.env with slaveAcks := rest }))) ∧
    ∀ nack, s.env.slaveAcks = false :: false :: nack :: rest →
      exec (.bmRegwr sub val) s = .next (regwrResults
        (transferEnd s false true false val (regWriteEnd s sub val nack)
          { s.env with slaveAcks := rest }))

/-- R97: the register read, by the slave's answers. The operand `y` of the second transfer, `ACK` after
the read and the value `u` of a failed read are any value (U12, U21; log 8, 28). -/
def Obligations.RegisterReadOutcomes : Prop :=
  ∀ (s : State) (sub : Byte) (rest : List Bool), BusReady s →
    (s.env.slaveAcks = true :: rest →
      ∃ u, exec (.bmRegrd sub) s = .next (regrdResults u
        (transferEnd s false false true sub (addrNack s false sub)
          { s.env with slaveAcks := rest, draws := s.env.draws + 1 }))) ∧
    (s.env.slaveAcks = false :: true :: rest →
      ∃ u, exec (.bmRegrd sub) s = .next (regrdResults u
        (transferEnd s false false true sub (writeNack s false true sub)
          { s.env with slaveAcks := rest, draws := s.env.draws + 1 }))) ∧
    (s.env.slaveAcks = false :: false :: true :: rest →
      ∃ u y, exec (.bmRegrd sub) s = .next (regrdResults u
        (transferEnd s true true true y (regReadNack s sub y)
          { s.env with slaveAcks := rest, draws := s.env.draws + 2 }))) ∧
    ∀ (b : Byte) (more : List Byte), s.env.slaveAcks = false :: false :: false :: rest →
      s.env.slaveBytes = b :: more →
      ∃ y v, exec (.bmRegrd sub) s = .next (regrdResults b
        (transferEnd s true true true y (regReadEnd s sub b v)
          { s.env with slaveAcks := rest, slaveBytes := more, draws := s.env.draws + 2 }))

/-- R95 (b), (d): when a transfer has returned false, or STOP was requested, it has written a command
with the STOP bit; when it has returned false, the bus is released. R93 (5), R216: when it has succeeded
without STOP, the bus is held in its direction (a transfer without address that U4's alternative let run
with nobody answering, log 12, apart; how the direction is read is DEDUCED, log 38). -/
def Obligations.TransferReleasesOrHoldsTheBus : Prop :=
  ∀ (d stop a : Bool) (x : Byte) (s t : State), BusReady s →
    exec (.bmXfer d stop a x) s = .next t → t.busy = false →
    (t.bm.success = false ∨ stop = true →
      ∃ c : Cmd, c.stop = true ∧ IoWrite.cmd c.byte ∈ t.io.drop s.io.length) ∧
    (t.bm.success = false → t.bus.busOpen = false) ∧
    (t.bm.success = true → stop = false → a = true ∨ s.cfg.closedBus = .refuse →
      t.bus.busOpen = true ∧ t.direction = some d)

/-- U8; U6, R210; U4, R216: `BM_INIT` inside a held bus transaction, a bus operation before `BM_INIT`, and
a transfer without address on a released bus, are refused (the last by the spec's default of
`CLOSED_BUS_POLICY`, log 12). -/
def Obligations.BusOperationRefusals : Prop :=
  (∀ (v : Byte) (s : State), s.busy = false → s.bus.busOpen = true →
    exec (.bmInit v) s = .refused .initOnOpenBus) ∧
  (∀ (d stop a : Bool) (x sub val : Byte) (s : State), s.busy = false → s.bm.inited = false →
    exec (.bmXfer d stop a x) s = .refused .notInitialised ∧
    exec (.bmRegwr sub val) s = .refused .notInitialised ∧
    exec (.bmRegrd sub) s = .refused .notInitialised) ∧
  ∀ (d stop : Bool) (x : Byte) (s : State), BusReady s → s.bus.busOpen = false →
    s.cfg.closedBus = .refuse → exec (.bmXfer d stop false x) s = .refused .closedBus

/-- R91, R213: where the slave has not answered for a byte, the transfer waits for the bus core with `TIP`
= 1, without end: for the address byte in `AddrWait`, for the data byte in `DataWait`, in `BM_XFER` and in
each transfer of the register-level operations. That an answer not listed is an answer not given yet is
the model's form of the slave (log 3). -/
def Obligations.TransferWaitsForTheCore : Prop :=
  (∀ (s : State) (stop : Bool) (x : Byte), BusReady s →
    (∀ d, s.env.slaveAcks = [] → ∃ t, exec (.bmXfer d stop true x) s = .next t ∧
      WaitsForCore s t .addrWait .staWr []) ∧
    (s.env.slaveAcks = [false] → ∃ t, exec (.bmXfer false stop true x) s = .next t ∧
      WaitsForCore s t .dataWait (dataCmd s.cfg.nackPolicy false stop) (addrEvents s false true)) ∧
    (∀ rest, s.env.slaveAcks = false :: rest → s.env.slaveBytes = [] →
      ∃ t, exec (.bmXfer true stop true x) s = .next t ∧
        WaitsForCore s t .dataWait (dataCmd s.cfg.nackPolicy true stop) (addrEvents s true true)) ∧
    (s.bus.busOpen = true → s.direction = some false → s.env.slaveAcks = [] →
      ∃ t, exec (.bmXfer false stop false x) s = .next t ∧
        WaitsForCore s t .dataWait (dataCmd s.cfg.nackPolicy false stop) []) ∧
    (s.bus.busOpen = true → s.direction = some true → s.env.slaveBytes = [] →
      ∃ t, exec (.bmXfer true stop false x) s = .next t ∧
        WaitsForCore s t .dataWait (dataCmd s.cfg.nackPolicy true stop) [])) ∧
  ∀ (s : State) (sub val : Byte), BusReady s →
    (∀ i, i = .bmRegwr sub val ∨ i = .bmRegrd sub →
      (s.env.slaveAcks = [] → ∃ t, exec i s = .next t ∧ WaitsForCore s t .addrWait .staWr []) ∧
      (s.env.slaveAcks = [false] → ∃ t, exec i s = .next t ∧
        WaitsForCore s t .dataWait .wr (addrEvents s false true))) ∧
    (s.env.slaveAcks = [false, false] →
      (∃ t, exec (.bmRegwr sub val) s = .next t ∧
        WaitsForCore s t .dataWait .wrSto (addrEvents s false true ++ [.tx sub false])) ∧
      ∃ t, exec (.bmRegrd sub) s = .next t ∧
        WaitsForCore s t .addrWait .staWr (addrEvents s false true ++ [.tx sub false])) ∧
    ∀ rest, s.env.slaveAcks = false :: false :: false :: rest → s.env.slaveBytes = [] →
      ∃ t, exec (.bmRegrd sub) s = .next t ∧
        WaitsForCore s t .dataWait .rdNackSto (regReadEvents s sub false)

/-! ## The capture -/

/-- R121 to R128, R130: under a sensor whose reads end every wait, whatever their other bits are and
however often the other level shows first (an ideal sensor is one), a capture ends; it stores the kept
samples in sensor order, takes no other, and returns the summary of their minimum and maximum. What `FG.r`
and `FG.c` hold after their loops is read off the pseudocode (log 29); the reads are listed (log 3). -/
def Obligations.IdealCapture : Prop :=
  ∀ (s : State) (frame : Nat → Nat → Byte) (reads answers samples : List Byte), Idle s → s.cfg.Ok →
    EndsWaits (frameWaits s.cfg) reads → s.env.status = reads ++ answers →
    s.env.pixels = keptSamples s.cfg frame ++ samples →
    exec .fgCapture s = .next { s with
      fg := {
        phase := .idle, r := s.cfg.sensorRows, c := s.cfg.sensorCols
        min := (keptSamples s.cfg frame).foldl byteMin 255
        max := (keptSamples s.cfg frame).foldl byteMax 0
        summary := summaryOf ((keptSamples s.cfg frame).foldl byteMin 255)
          ((keptSamples s.cfg frame).foldl byteMax 0) }
      fb := storeKept s.cfg frame s.fb
      op := { s.op with
        cur := none
        res := { s.op.res with
          summary := summaryOf ((keptSamples s.cfg frame).foldl byteMin 255)
            ((keptSamples s.cfg frame).foldl byteMax 0) } }
      env := { s.env with status := answers, pixels := samples } }

/-- R129: a capture whose sensor has not answered holds in its first wait (an answer not listed is one
not given yet, log 3). -/
def Obligations.CaptureWaitsForTheSensor : Prop :=
  ∀ s : State, Idle s → s.env.status = [] →
    exec .fgCapture s = .next { s with
      fg := { s.fg with min := 255, max := 0, phase := .frameWaitA }
      op := { s.op with cur := some .fgCapture } }

/-- R50, R122 to R124: each of the six waits ends at the first read that shows the awaited level. R129,
R213: while every read shows the other level it goes on in its phase, without end (reads not listed are
not made yet, log 3). -/
def Obligations.WaitEndsAtTheAwaitedLevel : Prop :=
  (∀ (s : State) (bit : Nat) (level : Bool) (after : State → State) (others : List Byte) (b : Byte)
    (rest : List Byte),
    s.bus.inflight = none → s.bm.phase = .idle →
    waitOf s.cfg s.fg.phase = some (bit, level, after) →
    s.env.status = others ++ b :: rest → (∀ x ∈ others, x.getLsbD bit ≠ level) →
    b.getLsbD bit = level →
    drive (others.length + 1) s = .next (after { s with env := { s.env with status := rest } })) ∧
  ∀ (s t : State) (bit : Nat) (level : Bool) (after : State → State),
    s.bus.inflight = none → s.bm.phase = .idle → s.op.strobe = false → HostWaits s → s.env.pace = [] →
    waitOf s.cfg s.fg.phase = some (bit, level, after) →
    (∀ x ∈ s.env.status, x.getLsbD bit ≠ level) →
    t = { s with env := { s.env with status := [] } } →
    step s = .next t ∧ step t = .next t ∧ t.busy = true

/-- R125, R126: a kept sample is read from the latch, stored at the decimated coordinate through the
accessor and counted; a sample that is not kept is none of these. -/
def Obligations.SampleStep : Prop :=
  ∀ s : State, s.bus.inflight = none → s.bm.phase = .idle → s.fg.phase = .sample →
    (kept s.cfg s.fg.r s.fg.c = true → ∀ p rest, s.env.pixels = p :: rest →
      tick s = .ok (some (enterCol (s.fg.c + 1) { s with
        fb := Memory.write s.fb (pixAddr s.cfg (decMap s.cfg s.fg.r s.fg.c).1
          (decMap s.cfg s.fg.r s.fg.c).2) p
        fg := { s.fg with min := byteMin s.fg.min p, max := byteMax s.fg.max p }
        env := { s.env with pixels := rest } }))) ∧
    (kept s.cfg s.fg.r s.fg.c = false → tick s = .ok (some (enterCol (s.fg.c + 1) s)))

/-- R128: each term is halved with truncation before the sum, which is at most 254. -/
def Obligations.SummaryHalvesThenAdds : Prop :=
  ∀ lo hi : Byte, (summaryOf lo hi).toNat = lo.toNat / 2 + hi.toNat / 2 ∧
    (summaryOf lo hi).toNat ≤ 254

/-! ## The frame buffer -/

/-- R141, U7: a load returns the byte of the clamped pixel and changes nothing else; an unwritten byte is
refused by the spec's default (log 11). -/
def Obligations.PixelLoad : Prop :=
  ∀ (row col : Int) (s : State), s.busy = false →
    (∀ v, Memory.read s.fb (pixAddr s.cfg row col) = some v →
      exec (.fbRdpix row col) s = .next { s with
        op := { s.op with res := { s.op.res with val := v } } }) ∧
    (Memory.read s.fb (pixAddr s.cfg row col) = none → s.cfg.unwritten = .refuse →
      exec (.fbRdpix row col) s = .refused .unwrittenPixel) ∧
    (Memory.read s.fb (pixAddr s.cfg row col) = none → s.cfg.unwritten = .anyValue →
      ∃ v, exec (.fbRdpix row col) s = .next { s with
        op := { s.op with res := { s.op.res with val := v } } })

/-- R142: a store writes the byte of the clamped pixel; every other byte, and everything else, is as
before. -/
def Obligations.PixelStore : Prop :=
  ∀ (row col : Int) (v : Byte) (s : State), s.busy = false →
    ∃ m, exec (.fbWrpix row col v) s = .next { s with fb := m } ∧
      Memory.read m (pixAddr s.cfg row col) = some v ∧
      ∀ k, k ≠ pixAddr s.cfg row col → Memory.read m k = Memory.read s.fb k

/-- R143, R140: clamping does not change the address; an address lies in the buffer; in range, distinct
coordinates have distinct addresses. -/
def Obligations.ClampLaw : Prop :=
  ∀ (c : Cfg) (row col : Int), 1 ≤ c.rows → 1 ≤ c.cols →
    pixAddr c row col
      = pixAddr c (clampInt row 0 ((c.rows : Int) - 1)) (clampInt col 0 ((c.cols : Int) - 1)) ∧
    pixAddr c row col < c.rows * c.cols ∧
    ∀ row' col' : Int, 0 ≤ row → row < c.rows → 0 ≤ col → col < c.cols →
      0 ≤ row' → row' < c.rows → 0 ≤ col' → col' < c.cols →
      pixAddr c row col = pixAddr c row' col' → row = row' ∧ col = col'

/-- R143: a load after a store returns the stored value exactly when the two clamped pairs are equal,
and the old value otherwise. -/
def Obligations.LoadAfterStore : Prop :=
  ∀ (row col row' col' : Int) (v : Byte) (s : State), 1 ≤ s.cfg.rows → 1 ≤ s.cfg.cols →
    fbRead row col (fbWrite row' col' v s) =
      if clampInt row 0 ((s.cfg.rows : Int) - 1) = clampInt row' 0 ((s.cfg.rows : Int) - 1) ∧
          clampInt col 0 ((s.cfg.cols : Int) - 1) = clampInt col' 0 ((s.cfg.cols : Int) - 1)
      then .ok v else fbRead row col s

/-! ## The tracker -/

/-- R151: the threshold is the truncated midpoint of the region's minimum and maximum (255 and 0 for an
empty region), the sum formed without wrap-around. The counters are left anywhere (log 29). -/
def Obligations.ThresholdOfRegion : Prop :=
  (∀ lo hi : Byte, (thresholdOf lo hi).toNat = (lo.toNat + hi.toNat) / 2) ∧
  ∀ (roi : Rect) (p : Int → Int → Byte) (s : State), Idle s → RegionReads s roi p →
    ∃ lo hi i j,
      exec (.trUpdthr roi) s = .next { s with
        tr := { s.tr with min := lo, max := hi, i := i, j := j, threshold := thresholdOf lo hi }
        op := { s.op with cur := none } } ∧
      (∀ r c, roi.rowStart ≤ r → r ≤ roi.rowEnd → roi.colStart ≤ c → c ≤ roi.colEnd →
        lo ≤ p r c ∧ p r c ≤ hi) ∧
      (roi.rowEnd < roi.rowStart ∨ roi.colEnd < roi.colStart → lo = 255 ∧ hi = 0) ∧
      (roi.rowStart ≤ roi.rowEnd → roi.colStart ≤ roi.colEnd →
        (∃ r c, roi.rowStart ≤ r ∧ r ≤ roi.rowEnd ∧ roi.colStart ≤ c ∧ c ≤ roi.colEnd ∧ p r c = lo) ∧
        ∃ r c, roi.rowStart ≤ r ∧ r ≤ roi.rowEnd ∧ roi.colStart ≤ c ∧ c ≤ roi.colEnd ∧ p r c = hi)

/-- U7, R217: a scan over a pixel nothing has written is refused (the spec's default, log 11). -/
def Obligations.ScanOfUnwrittenPixelRefused : Prop :=
  ∀ (roi : Rect) (thr : Byte) (r c : Int) (s : State), Idle s → s.cfg.unwritten = .refuse →
    roi.rowStart ≤ r → r ≤ roi.rowEnd → roi.colStart ≤ c → c ≤ roi.colEnd →
    Memory.read s.fb (pixAddr s.cfg r c) = none →
    exec (.trUpdthr roi) s = .refused .unwrittenPixel ∧
    exec (.trLocate roi thr) s = .refused .unwrittenPixel

/-- R152 to R155: on each axis the box gets the bounds of the longest run longer than `MIN_RUN`, the
first seen of equals, or keeps its bounds (the region's on first use) when no run qualifies. Under the
decided overlay, the identity (D27). The scan registers are left anywhere (log 29). -/
def Obligations.LocateFindsTheLongestRuns : Prop :=
  ∀ (roi : Rect) (thr : Byte) (p : Int → Int → Byte) (s : State), Idle s → RegionReads s roi p →
    s.cfg.overlay = .identity →
    ∃ box run best i j,
      exec (.trLocate roi thr) s = .next { s with
        tr := { s.tr with box := box, boxValid := true, run := run, best := best, i := i, j := j }
        op := { s.op with cur := none, res := { s.op.res with box := rectOut box } } } ∧
      ∀ a, Selected a roi p thr s.cfg.minRun (boundsOf a box).1 (boundsOf a box).2 ∨
        (NoneQualifies a roi p thr s.cfg.minRun ∧ boundsOf a box = boundsOf a (boxBefore s roi))

/-- R161: (a) a solid rectangle inside the region, wider and taller than `MIN_RUN`, is found exactly; (b)
with no pixel above the threshold a prior box is left unchanged. -/
def Obligations.LocateOnUniformScenes : Prop :=
  ∀ (roi : Rect) (thr : Byte) (s : State), Idle s → s.cfg.overlay = .identity →
    (∀ (rect : Rect) (fore back : Byte),
      RegionReads s roi (fun i j =>
        if rect.rowStart ≤ i ∧ i ≤ rect.rowEnd ∧ rect.colStart ≤ j ∧ j ≤ rect.colEnd
        then fore else back) →
      thr < fore → back ≤ thr →
      roi.rowStart ≤ rect.rowStart → rect.rowEnd ≤ roi.rowEnd →
      roi.colStart ≤ rect.colStart → rect.colEnd ≤ roi.colEnd →
      (s.cfg.minRun : Int) < rect.rowEnd - rect.rowStart + 1 →
      (s.cfg.minRun : Int) < rect.colEnd - rect.colStart + 1 →
      ∃ t, exec (.trLocate roi thr) s = .next t ∧ t.tr.box = rect) ∧
    ∀ p : Int → Int → Byte, RegionReads s roi p → s.tr.boxValid = true →
      (∀ i j, roi.rowStart ≤ i → i ≤ roi.rowEnd → roi.colStart ≤ j → j ≤ roi.colEnd → p i j ≤ thr) →
      ∃ t, exec (.trLocate roi thr) s = .next t ∧ t.tr.box = s.tr.box

/-- R156: the errors are the differences of the centres, pan from columns, tilt from rows, and nothing
but the operands is read. The result registers carry them in `COORD_W` bits where they fit; the bits of
one that does not are the model's free value (log 19). -/
def Obligations.ErrorOfTheBox : Prop :=
  ∀ (box : Rect) (c : Point) (s : State), Idle s → s.cfg.midpoint = .floor →
    ∃ pb tb,
      exec (.trError box c) s = .next { s with
        tr := { s.tr with
          panErr := c.col - (box.colStart + box.colEnd) / 2
          tiltErr := c.row - (box.rowStart + box.rowEnd) / 2 }
        op := { s.op with
          cur := none
          res := { s.op.res with panError := pb, tiltError := tb } } } ∧
      (coordOk (c.col - (box.colStart + box.colEnd) / 2) = true →
        pb.toInt = c.col - (box.colStart + box.colEnd) / 2) ∧
      (coordOk (c.row - (box.rowStart + box.rowEnd) / 2) = true →
        tb.toInt = c.row - (box.rowStart + box.rowEnd) / 2)

/-- R157, R52: the positions move by error times gain, clamped to the travel limits, so that they lie
within them and within [0,1] (C9); `ACT_PAN` is written before `ACT_TILT`; both become the last commanded
positions and the results. -/
def Obligations.CommandMovesTheActuators : Prop :=
  ∀ (pe te : Int) (lp lt : Pos) (s : State), Idle s →
    ∃ np nt,
      np = clampPos (lp + (pe : Pos) * s.cfg.panGain) s.cfg.panMin s.cfg.panMax ∧
      nt = clampPos (lt + (te : Pos) * s.cfg.tiltGain) s.cfg.tiltMin s.cfg.tiltMax ∧
      exec (.trCommand pe te lp lt) s = .next { s with
        tr := { s.tr with lastPan := np, lastTilt := nt }
        act := { pan := np, tilt := nt }
        op := { s.op with cur := none, res := { s.op.res with newPan := np, newTilt := nt } }
        io := s.io ++ [.actPan np, .actTilt nt] } ∧
      (s.cfg.Ok → s.cfg.panMin ≤ np ∧ np ≤ s.cfg.panMax ∧ s.cfg.tiltMin ≤ nt ∧ nt ≤ s.cfg.tiltMax ∧
        0 ≤ np ∧ np ≤ 1 ∧ 0 ≤ nt ∧ nt ≤ 1)

/-- R158, R71: a snapshot leaves what its five parts leave, issued one after the other; only the
capture's summary, which a cycle drops, is not in its results. -/
def Obligations.SnapshotIsTheCycleOnce : Prop :=
  ∀ (roi : Rect) (s s1 s2 s3 s4 s5 : State), Idle s →
    exec .fgCapture s = .next s1 → s1.busy = false →
    exec (.trUpdthr roi) s1 = .next s2 →
    exec (.trLocate roi s2.tr.threshold) s2 = .next s3 →
    exec (.trError s3.tr.box (rectCenter s3.cfg.midpoint roi)) s3 = .next s4 →
    exec (.trCommand s4.tr.panErr s4.tr.tiltErr s4.tr.lastPan s4.tr.lastTilt) s4 = .next s5 →
    exec (.trSnapshot roi) s = .next { s5 with
      op := { s5.op with res := { s5.op.res with summary := s.op.res.summary } } }

/-- R159: tracking runs a snapshot and goes on to the next capture at once: it never completes. Where
the sensor has answered for exactly one frame, it holds in the second capture's first wait with what the
snapshot has left. -/
def Obligations.TrackingRepeatsTheSnapshot : Prop :=
  ∀ (roi : Rect) (s t : State), Idle s →
    exec (.trSnapshot roi) s = .next t → t.busy = false → t.env.status = [] →
    exec (.trTrack roi) s = .next { t with
      fg := { t.fg with min := 255, max := 0, phase := .frameWaitA }
      tr := { t.tr with phase := .capture }
      op := { s.op with cur := some (.trTrack roi) } }

/-- R158, R159, R130: under a sensor whose reads end every wait (an ideal sensor is one), with every pixel
of the region written once the frame is stored, a snapshot completes; and where the sensor has answered for
that one frame only, tracking has done the same cycle and stands in its next capture's first wait. -/
def Obligations.CycleOfAnIdealFrame : Prop :=
  ∀ (roi : Rect) (s : State) (frame : Nat → Nat → Byte) (reads answers samples : List Byte),
    Idle s → s.cfg.Ok → s.cfg.overlay = .identity →
    EndsWaits (frameWaits s.cfg) reads → s.env.status = reads ++ answers →
    s.env.pixels = keptSamples s.cfg frame ++ samples →
    (∀ i j, roi.rowStart ≤ i → i ≤ roi.rowEnd → roi.colStart ≤ j → j ≤ roi.colEnd →
      ∃ v, Memory.read (storeKept s.cfg frame s.fb) (pixAddr s.cfg i j) = some v) →
    ∃ t, exec (.trSnapshot roi) s = .next t ∧ t.busy = false ∧ t.op.cur = none ∧
      t.bm = s.bm ∧ t.bus = s.bus ∧ t.fb = storeKept s.cfg frame s.fb ∧
      t.env.status = answers ∧ t.env.pixels = samples ∧
      t.act = ⟨t.tr.lastPan, t.tr.lastTilt⟩ ∧
      t.io = s.io ++ [.actPan t.tr.lastPan, .actTilt t.tr.lastTilt] ∧
      (answers = [] → ∃ u, exec (.trTrack roi) s = .next u ∧ u.op.cur = some (.trTrack roi) ∧
        u.fg.phase = .frameWaitA ∧ u.tr.phase = .capture ∧ u.bm = s.bm ∧ u.bus = s.bus ∧
        u.fb = t.fb ∧ u.act = t.act ∧ u.io = t.io)

/-- R159, R200, R212: while no request and no move of the host lands, a step of a tracking block leaves it
tracking: a request that waits for the block waits without end. -/
def Obligations.TrackingNeverCompletes : Prop :=
  (∀ (roi : Rect) (s t : State), Idle s → exec (.trTrack roi) s = .next t → t.busy = true) ∧
  ∀ (roi : Rect) (s t : State), OneSequencer s → s.op.cur = some (.trTrack roi) →
    s.tr.phase ≠ .idle → s.op.strobe = false → HostWaits s → step s = .next t →
    t.op.cur = some (.trTrack roi) ∧ t.tr.phase ≠ .idle ∧ t.busy = true

/-! ## Reset, and who may do what -/

/-- R31: the values the spec gives after the first reset, for every configuration. -/
def Obligations.ResetValues : Prop :=
  ∀ c : Cfg, let s := State.resetWith c
    s.bm.inited = false ∧ s.bm.phase = .idle ∧ s.bm.sub = .none ∧ s.bus.ctrl = 0 ∧
    s.enabled = false ∧ s.bus.tip = false ∧ s.bus.inflight = none ∧ s.bus.busOpen = false ∧
    s.bus.wire = [] ∧ s.fg.phase = .idle ∧ s.fb = [] ∧ s.tr.phase = .idle ∧
    s.tr.boxValid = false ∧ s.tr.lastPan = c.panHome ∧ s.tr.lastTilt = c.tiltHome ∧ s.busy = false

/-- R200, R201, R31: the reset operation, whatever the block was doing: the values of R31, no bus event,
no actuator write, the wire trace kept, the configuration and the outside world untouched. The reset input
does the same in a step of its own. -/
def Obligations.BlockResetFromAnyState : Prop :=
  (∀ (s : State) (rest : List HostMove), s.op.strobe = false → s.env.host = .resetInput :: rest →
    step s = exec .blkReset { s with env := { s.env with host := rest } }) ∧
  ∀ s : State, ∃ t, exec .blkReset s = .next t ∧
    t.bm.inited = false ∧ t.bm.phase = .idle ∧ t.bm.sub = .none ∧ t.bus.ctrl = 0 ∧
    t.bus.tip = false ∧ t.bus.inflight = none ∧ t.bus.busOpen = false ∧ t.bus.wire = s.bus.wire ∧
    t.fg.phase = .idle ∧ t.fb = [] ∧ t.tr.phase = .idle ∧ t.tr.boxValid = false ∧
    t.tr.lastPan = s.cfg.panHome ∧ t.tr.lastTilt = s.cfg.tiltHome ∧ t.busy = false ∧
    t.act = s.act ∧ t.io = s.io ∧ t.cfg = s.cfg ∧ t.op.cur = none ∧
    t.env.status = s.env.status ∧ t.env.pixels = s.env.pixels ∧
    t.env.slaveAcks = s.env.slaveAcks ∧ t.env.slaveBytes = s.env.slaveBytes ∧
    t.env.host = s.env.host

/-- R28, R212, U9: every operation but `BLK_RESET` is refused while the block is busy. -/
def Obligations.BusyBlockRefusesRequests : Prop :=
  ∀ (i : Instr) (s : State), waitsForIdle i = true → s.busy = true → exec i s = .refused .busy

/-- R11, R16, R17: only `BM_INIT` and a reset write the slave address, `BM.inited`, the divisor and the
control register. -/
def Obligations.OnlyInitConfigures : Prop :=
  ∀ (i : Instr) (s t : State), (∀ v, i ≠ .bmInit v) → i ≠ .blkReset → exec i s = .next t →
    t.bm.slaveAddr = s.bm.slaveAddr ∧ t.bm.inited = s.bm.inited ∧ t.bus.ctrl = s.bus.ctrl ∧
    t.bus.divLo = s.bus.divLo ∧ t.bus.divHi = s.bus.divHi

/-- R27, R200: only `commandActuators`, alone or in a cycle, writes the actuators and the last
positions; a reset does not write the actuators. -/
def Obligations.OnlyCommandsMoveTheActuators : Prop :=
  ∀ (i : Instr) (s t : State), (∀ pe te lp lt, i ≠ .trCommand pe te lp lt) →
    (∀ roi, i ≠ .trSnapshot roi) → (∀ roi, i ≠ .trTrack roi) → exec i s = .next t →
    t.act = s.act ∧
    (i ≠ .blkReset → t.tr.lastPan = s.tr.lastPan ∧ t.tr.lastTilt = s.tr.lastTilt)

/-- R25, R32, C5: only a capture, the host's store, the tracker's overlay and a reset change the frame
buffer. -/
def Obligations.OnlyTheseWriteTheFrame : Prop :=
  ∀ (i : Instr) (s t : State), i ≠ .fgCapture → (∀ r c v, i ≠ .fbWrpix r c v) → i ≠ .blkReset →
    (∀ roi, i ≠ .trSnapshot roi) → (∀ roi, i ≠ .trTrack roi) →
    (∀ roi thr, i = .trLocate roi thr → s.cfg.overlay = .identity) → exec i s = .next t →
    t.fb = s.fb

/-- R2, R120: the video side does not use the bus: an operation of FG, FB or TR leaves BM and the bus
core as they were, and an operation of BM, a command byte or an address byte leaves FG, FB, TR and the
actuators as they were. -/
def Obligations.BusAndVideoAreApart : Prop :=
  ∀ (i : Instr) (s t : State), exec i s = .next t → s.bus.inflight = none →
    (i = .fgCapture ∨ (∃ r c, i = .fbRdpix r c) ∨ (∃ r c v, i = .fbWrpix r c v) ∨
      (∃ roi, i = .trUpdthr roi) ∨ (∃ roi thr, i = .trLocate roi thr) ∨
      (∃ box c, i = .trError box c) ∨ (∃ pe te lp lt, i = .trCommand pe te lp lt) ∨
      (∃ roi, i = .trSnapshot roi) ∨ (∃ roi, i = .trTrack roi) → t.bm = s.bm ∧ t.bus = s.bus) ∧
    ((∃ v, i = .bmInit v) ∨ (∃ d stop a x, i = .bmXfer d stop a x) ∨
      (∃ sub val, i = .bmRegwr sub val) ∨ (∃ sub, i = .bmRegrd sub) ∨
      (∃ c : Cmd, i = c.instr) ∨ (∃ addr d, i = .addrByte addr d) →
      t.fg = s.fg ∧ t.fb = s.fb ∧ t.tr = s.tr ∧ t.act = s.act)

/-! ## Invariants of every step -/

/-- The frame buffer keeps its canonical form. -/
def Obligations.StepKeepsMemoryCanonical : Prop :=
  ∀ s t : State, Memory.wf s.fb → step s = .next t → Memory.wf t.fb

/-- R42, R45: no step stores outside the frame buffer. -/
def Obligations.StepKeepsFrameInRange : Prop :=
  ∀ s t : State, 1 ≤ s.cfg.rows → 1 ≤ s.cfg.cols → FrameInRange s → step s = .next t →
    FrameInRange t

/-- R21, R90: `TIP` = 1 exactly while a byte command is in flight, and an initialised bus core is enabled
(what U1 asks for holds in every step that starts so). -/
def Obligations.StepKeepsBusInvariants : Prop :=
  ∀ s t : State, TipMatches s → InitedEnabled s → step s = .next t → TipMatches t ∧ InitedEnabled t

/-- R7, R33: at most one sequencer is out of its idle phase. -/
def Obligations.StepKeepsOneSequencer : Prop :=
  ∀ s t : State, OneSequencer s → step s = .next t → OneSequencer t

/-- R157, R31: the last commanded positions stay within the travel limits. -/
def Obligations.StepKeepsPositionsInLimits : Prop :=
  ∀ s t : State, s.cfg.Ok → PositionsInLimits s → step s = .next t → PositionsInLimits t

/-- R21, R4, R27: no step erases a bus event or a register write, and none changes the configuration. -/
def Obligations.TracesOnlyGrow : Prop :=
  ∀ s t : State, step s = .next t →
    (∃ events, t.bus.wire = s.bus.wire ++ events) ∧ (∃ writes, t.io = s.io ++ writes) ∧
    t.cfg = s.cfg

/-- The state after reset meets every invariant, for every configuration within R4's constraints. -/
def Obligations.ResetMeetsTheInvariants : Prop :=
  ∀ c : Cfg, c.Ok → Memory.wf (State.resetWith c).fb ∧ FrameInRange (State.resetWith c) ∧
    TipMatches (State.resetWith c) ∧ InitedEnabled (State.resetWith c) ∧
    OneSequencer (State.resetWith c) ∧ PositionsInLimits (State.resetWith c)
end

