-- ==== Sys2Proof/Laws/State.lean ====
section
/-! SUPPORT. One lemma per field per whole-unit update of the state, each true by rfl, and the same for
the small named updates built on them. -/

namespace Sys2Proof.Machine

variable (s : State)

@[simp] theorem State.withBm_cfg (x : Bm) : (s.withBm x).cfg = s.cfg := rfl
@[simp] theorem State.withBm_bm (x : Bm) : (s.withBm x).bm = x := rfl
@[simp] theorem State.withBm_bus (x : Bm) : (s.withBm x).bus = s.bus := rfl
@[simp] theorem State.withBm_fg (x : Bm) : (s.withBm x).fg = s.fg := rfl
@[simp] theorem State.withBm_fb (x : Bm) : (s.withBm x).fb = s.fb := rfl
@[simp] theorem State.withBm_tr (x : Bm) : (s.withBm x).tr = s.tr := rfl
@[simp] theorem State.withBm_act (x : Bm) : (s.withBm x).act = s.act := rfl
@[simp] theorem State.withBm_op (x : Bm) : (s.withBm x).op = s.op := rfl
@[simp] theorem State.withBm_env (x : Bm) : (s.withBm x).env = s.env := rfl
@[simp] theorem State.withBm_io (x : Bm) : (s.withBm x).io = s.io := rfl
@[simp] theorem State.withBm_withBm (x y : Bm) : (s.withBm x).withBm y = s.withBm y := rfl

@[simp] theorem State.withBus_cfg (x : BusCore) : (s.withBus x).cfg = s.cfg := rfl
@[simp] theorem State.withBus_bm (x : BusCore) : (s.withBus x).bm = s.bm := rfl
@[simp] theorem State.withBus_bus (x : BusCore) : (s.withBus x).bus = x := rfl
@[simp] theorem State.withBus_fg (x : BusCore) : (s.withBus x).fg = s.fg := rfl
@[simp] theorem State.withBus_fb (x : BusCore) : (s.withBus x).fb = s.fb := rfl
@[simp] theorem State.withBus_tr (x : BusCore) : (s.withBus x).tr = s.tr := rfl
@[simp] theorem State.withBus_act (x : BusCore) : (s.withBus x).act = s.act := rfl
@[simp] theorem State.withBus_op (x : BusCore) : (s.withBus x).op = s.op := rfl
@[simp] theorem State.withBus_env (x : BusCore) : (s.withBus x).env = s.env := rfl
@[simp] theorem State.withBus_io (x : BusCore) : (s.withBus x).io = s.io := rfl
@[simp] theorem State.withBus_withBus (x y : BusCore) : (s.withBus x).withBus y = s.withBus y := rfl

@[simp] theorem State.withFg_cfg (x : Fg) : (s.withFg x).cfg = s.cfg := rfl
@[simp] theorem State.withFg_bm (x : Fg) : (s.withFg x).bm = s.bm := rfl
@[simp] theorem State.withFg_bus (x : Fg) : (s.withFg x).bus = s.bus := rfl
@[simp] theorem State.withFg_fg (x : Fg) : (s.withFg x).fg = x := rfl
@[simp] theorem State.withFg_fb (x : Fg) : (s.withFg x).fb = s.fb := rfl
@[simp] theorem State.withFg_tr (x : Fg) : (s.withFg x).tr = s.tr := rfl
@[simp] theorem State.withFg_act (x : Fg) : (s.withFg x).act = s.act := rfl
@[simp] theorem State.withFg_op (x : Fg) : (s.withFg x).op = s.op := rfl
@[simp] theorem State.withFg_env (x : Fg) : (s.withFg x).env = s.env := rfl
@[simp] theorem State.withFg_io (x : Fg) : (s.withFg x).io = s.io := rfl
@[simp] theorem State.withFg_withFg (x y : Fg) : (s.withFg x).withFg y = s.withFg y := rfl

@[simp] theorem State.withFb_cfg (x : List Host.Cell) : (s.withFb x).cfg = s.cfg := rfl
@[simp] theorem State.withFb_bm (x : List Host.Cell) : (s.withFb x).bm = s.bm := rfl
@[simp] theorem State.withFb_bus (x : List Host.Cell) : (s.withFb x).bus = s.bus := rfl
@[simp] theorem State.withFb_fg (x : List Host.Cell) : (s.withFb x).fg = s.fg := rfl
@[simp] theorem State.withFb_fb (x : List Host.Cell) : (s.withFb x).fb = x := rfl
@[simp] theorem State.withFb_tr (x : List Host.Cell) : (s.withFb x).tr = s.tr := rfl
@[simp] theorem State.withFb_act (x : List Host.Cell) : (s.withFb x).act = s.act := rfl
@[simp] theorem State.withFb_op (x : List Host.Cell) : (s.withFb x).op = s.op := rfl
@[simp] theorem State.withFb_env (x : List Host.Cell) : (s.withFb x).env = s.env := rfl
@[simp] theorem State.withFb_io (x : List Host.Cell) : (s.withFb x).io = s.io := rfl
@[simp] theorem State.withFb_withFb (x y : List Host.Cell) : (s.withFb x).withFb y = s.withFb y := rfl

@[simp] theorem State.withTr_cfg (x : Tr) : (s.withTr x).cfg = s.cfg := rfl
@[simp] theorem State.withTr_bm (x : Tr) : (s.withTr x).bm = s.bm := rfl
@[simp] theorem State.withTr_bus (x : Tr) : (s.withTr x).bus = s.bus := rfl
@[simp] theorem State.withTr_fg (x : Tr) : (s.withTr x).fg = s.fg := rfl
@[simp] theorem State.withTr_fb (x : Tr) : (s.withTr x).fb = s.fb := rfl
@[simp] theorem State.withTr_tr (x : Tr) : (s.withTr x).tr = x := rfl
@[simp] theorem State.withTr_act (x : Tr) : (s.withTr x).act = s.act := rfl
@[simp] theorem State.withTr_op (x : Tr) : (s.withTr x).op = s.op := rfl
@[simp] theorem State.withTr_env (x : Tr) : (s.withTr x).env = s.env := rfl
@[simp] theorem State.withTr_io (x : Tr) : (s.withTr x).io = s.io := rfl
@[simp] theorem State.withTr_withTr (x y : Tr) : (s.withTr x).withTr y = s.withTr y := rfl

@[simp] theorem State.withAct_cfg (x : Act) : (s.withAct x).cfg = s.cfg := rfl
@[simp] theorem State.withAct_bm (x : Act) : (s.withAct x).bm = s.bm := rfl
@[simp] theorem State.withAct_bus (x : Act) : (s.withAct x).bus = s.bus := rfl
@[simp] theorem State.withAct_fg (x : Act) : (s.withAct x).fg = s.fg := rfl
@[simp] theorem State.withAct_fb (x : Act) : (s.withAct x).fb = s.fb := rfl
@[simp] theorem State.withAct_tr (x : Act) : (s.withAct x).tr = s.tr := rfl
@[simp] theorem State.withAct_act (x : Act) : (s.withAct x).act = x := rfl
@[simp] theorem State.withAct_op (x : Act) : (s.withAct x).op = s.op := rfl
@[simp] theorem State.withAct_env (x : Act) : (s.withAct x).env = s.env := rfl
@[simp] theorem State.withAct_io (x : Act) : (s.withAct x).io = s.io := rfl
@[simp] theorem State.withAct_withAct (x y : Act) : (s.withAct x).withAct y = s.withAct y := rfl

@[simp] theorem State.withOp_cfg (x : Port) : (s.withOp x).cfg = s.cfg := rfl
@[simp] theorem State.withOp_bm (x : Port) : (s.withOp x).bm = s.bm := rfl
@[simp] theorem State.withOp_bus (x : Port) : (s.withOp x).bus = s.bus := rfl
@[simp] theorem State.withOp_fg (x : Port) : (s.withOp x).fg = s.fg := rfl
@[simp] theorem State.withOp_fb (x : Port) : (s.withOp x).fb = s.fb := rfl
@[simp] theorem State.withOp_tr (x : Port) : (s.withOp x).tr = s.tr := rfl
@[simp] theorem State.withOp_act (x : Port) : (s.withOp x).act = s.act := rfl
@[simp] theorem State.withOp_op (x : Port) : (s.withOp x).op = x := rfl
@[simp] theorem State.withOp_env (x : Port) : (s.withOp x).env = s.env := rfl
@[simp] theorem State.withOp_io (x : Port) : (s.withOp x).io = s.io := rfl
@[simp] theorem State.withOp_withOp (x y : Port) : (s.withOp x).withOp y = s.withOp y := rfl

@[simp] theorem State.withEnv_cfg (x : Env) : (s.withEnv x).cfg = s.cfg := rfl
@[simp] theorem State.withEnv_bm (x : Env) : (s.withEnv x).bm = s.bm := rfl
@[simp] theorem State.withEnv_bus (x : Env) : (s.withEnv x).bus = s.bus := rfl
@[simp] theorem State.withEnv_fg (x : Env) : (s.withEnv x).fg = s.fg := rfl
@[simp] theorem State.withEnv_fb (x : Env) : (s.withEnv x).fb = s.fb := rfl
@[simp] theorem State.withEnv_tr (x : Env) : (s.withEnv x).tr = s.tr := rfl
@[simp] theorem State.withEnv_act (x : Env) : (s.withEnv x).act = s.act := rfl
@[simp] theorem State.withEnv_op (x : Env) : (s.withEnv x).op = s.op := rfl
@[simp] theorem State.withEnv_env (x : Env) : (s.withEnv x).env = x := rfl
@[simp] theorem State.withEnv_io (x : Env) : (s.withEnv x).io = s.io := rfl
@[simp] theorem State.withEnv_withEnv (x y : Env) : (s.withEnv x).withEnv y = s.withEnv y := rfl

@[simp] theorem State.logged_cfg (w : IoWrite) : (s.logged w).cfg = s.cfg := rfl
@[simp] theorem State.logged_bm (w : IoWrite) : (s.logged w).bm = s.bm := rfl
@[simp] theorem State.logged_bus (w : IoWrite) : (s.logged w).bus = s.bus := rfl
@[simp] theorem State.logged_fg (w : IoWrite) : (s.logged w).fg = s.fg := rfl
@[simp] theorem State.logged_fb (w : IoWrite) : (s.logged w).fb = s.fb := rfl
@[simp] theorem State.logged_tr (w : IoWrite) : (s.logged w).tr = s.tr := rfl
@[simp] theorem State.logged_act (w : IoWrite) : (s.logged w).act = s.act := rfl
@[simp] theorem State.logged_op (w : IoWrite) : (s.logged w).op = s.op := rfl
@[simp] theorem State.logged_env (w : IoWrite) : (s.logged w).env = s.env := rfl
@[simp] theorem State.logged_io (w : IoWrite) : (s.logged w).io = s.io ++ [w] := rfl

@[simp] theorem State.emit_cfg (e : Event) : (s.emit e).cfg = s.cfg := rfl
@[simp] theorem State.emit_bm (e : Event) : (s.emit e).bm = s.bm := rfl
@[simp] theorem State.emit_fg (e : Event) : (s.emit e).fg = s.fg := rfl
@[simp] theorem State.emit_fb (e : Event) : (s.emit e).fb = s.fb := rfl
@[simp] theorem State.emit_tr (e : Event) : (s.emit e).tr = s.tr := rfl
@[simp] theorem State.emit_act (e : Event) : (s.emit e).act = s.act := rfl
@[simp] theorem State.emit_op (e : Event) : (s.emit e).op = s.op := rfl
@[simp] theorem State.emit_env (e : Event) : (s.emit e).env = s.env := rfl
@[simp] theorem State.emit_io (e : Event) : (s.emit e).io = s.io := rfl
@[simp] theorem State.emit_bus (e : Event) :
    (s.emit e).bus = { s.bus with wire := s.bus.wire ++ [e] } := rfl

@[simp] theorem State.openBus_cfg (v : Bool) : (s.openBus v).cfg = s.cfg := rfl
@[simp] theorem State.openBus_bm (v : Bool) : (s.openBus v).bm = s.bm := rfl
@[simp] theorem State.openBus_fg (v : Bool) : (s.openBus v).fg = s.fg := rfl
@[simp] theorem State.openBus_fb (v : Bool) : (s.openBus v).fb = s.fb := rfl
@[simp] theorem State.openBus_tr (v : Bool) : (s.openBus v).tr = s.tr := rfl
@[simp] theorem State.openBus_act (v : Bool) : (s.openBus v).act = s.act := rfl
@[simp] theorem State.openBus_op (v : Bool) : (s.openBus v).op = s.op := rfl
@[simp] theorem State.openBus_env (v : Bool) : (s.openBus v).env = s.env := rfl
@[simp] theorem State.openBus_io (v : Bool) : (s.openBus v).io = s.io := rfl
@[simp] theorem State.openBus_bus (v : Bool) :
    (s.openBus v).bus = { s.bus with busOpen := v } := rfl

@[simp] theorem State.drawn_cfg : (s.drawn).cfg = s.cfg := rfl
@[simp] theorem State.drawn_bm : (s.drawn).bm = s.bm := rfl
@[simp] theorem State.drawn_bus : (s.drawn).bus = s.bus := rfl
@[simp] theorem State.drawn_fg : (s.drawn).fg = s.fg := rfl
@[simp] theorem State.drawn_fb : (s.drawn).fb = s.fb := rfl
@[simp] theorem State.drawn_tr : (s.drawn).tr = s.tr := rfl
@[simp] theorem State.drawn_act : (s.drawn).act = s.act := rfl
@[simp] theorem State.drawn_op : (s.drawn).op = s.op := rfl
@[simp] theorem State.drawn_io : (s.drawn).io = s.io := rfl
@[simp] theorem State.drawn_env :
    s.drawn.env = { s.env with draws := s.env.draws + 1 } := rfl

@[simp] theorem State.retired_cfg : (s.retired).cfg = s.cfg := rfl
@[simp] theorem State.retired_bm : (s.retired).bm = s.bm := rfl
@[simp] theorem State.retired_bus : (s.retired).bus = s.bus := rfl
@[simp] theorem State.retired_fg : (s.retired).fg = s.fg := rfl
@[simp] theorem State.retired_fb : (s.retired).fb = s.fb := rfl
@[simp] theorem State.retired_tr : (s.retired).tr = s.tr := rfl
@[simp] theorem State.retired_act : (s.retired).act = s.act := rfl
@[simp] theorem State.retired_env : (s.retired).env = s.env := rfl
@[simp] theorem State.retired_io : (s.retired).io = s.io := rfl
@[simp] theorem State.retired_op : s.retired.op = { s.op with cur := none } := rfl

@[simp] theorem State.results_cfg (r : Results) : (s.results r).cfg = s.cfg := rfl
@[simp] theorem State.results_bm (r : Results) : (s.results r).bm = s.bm := rfl
@[simp] theorem State.results_bus (r : Results) : (s.results r).bus = s.bus := rfl
@[simp] theorem State.results_fg (r : Results) : (s.results r).fg = s.fg := rfl
@[simp] theorem State.results_fb (r : Results) : (s.results r).fb = s.fb := rfl
@[simp] theorem State.results_tr (r : Results) : (s.results r).tr = s.tr := rfl
@[simp] theorem State.results_act (r : Results) : (s.results r).act = s.act := rfl
@[simp] theorem State.results_env (r : Results) : (s.results r).env = s.env := rfl
@[simp] theorem State.results_io (r : Results) : (s.results r).io = s.io := rfl
@[simp] theorem State.results_op (r : Results) :
    (s.results r).op = { s.op with res := r } := rfl

@[simp] theorem fbWrite_cfg (row col : Int) (v : Byte) : (fbWrite row col v s).cfg = s.cfg := rfl
@[simp] theorem fbWrite_bm (row col : Int) (v : Byte) : (fbWrite row col v s).bm = s.bm := rfl
@[simp] theorem fbWrite_bus (row col : Int) (v : Byte) : (fbWrite row col v s).bus = s.bus := rfl
@[simp] theorem fbWrite_fg (row col : Int) (v : Byte) : (fbWrite row col v s).fg = s.fg := rfl
@[simp] theorem fbWrite_tr (row col : Int) (v : Byte) : (fbWrite row col v s).tr = s.tr := rfl
@[simp] theorem fbWrite_act (row col : Int) (v : Byte) : (fbWrite row col v s).act = s.act := rfl
@[simp] theorem fbWrite_op (row col : Int) (v : Byte) : (fbWrite row col v s).op = s.op := rfl
@[simp] theorem fbWrite_env (row col : Int) (v : Byte) : (fbWrite row col v s).env = s.env := rfl
@[simp] theorem fbWrite_io (row col : Int) (v : Byte) : (fbWrite row col v s).io = s.io := rfl
@[simp] theorem fbWrite_fb (row col : Int) (v : Byte) :
    (fbWrite row col v s).fb = Memory.write s.fb (pixAddr s.cfg row col) v := rfl

end Sys2Proof.Machine
end

