-- ==== Sys2Proof/Laws/Bus.lean ====
section
/-! SUPPORT. The command bytes and what the bus core does with one (R19, R65, R81, R82). -/

namespace Sys2Proof

/-! The fields of the eight command bytes (R65). -/

@[simp] theorem Cmd.sta_staWr : Cmd.sta .staWr = true := rfl
@[simp] theorem Cmd.stop_staWr : Cmd.stop .staWr = false := rfl
@[simp] theorem Cmd.read_staWr : Cmd.read .staWr = false := rfl
@[simp] theorem Cmd.write_staWr : Cmd.write .staWr = true := rfl
@[simp] theorem Cmd.nack_staWr : Cmd.nack .staWr = false := rfl
@[simp] theorem Cmd.moves_staWr : Cmd.moves .staWr = true := rfl
@[simp] theorem Cmd.sta_wr : Cmd.sta .wr = false := rfl
@[simp] theorem Cmd.stop_wr : Cmd.stop .wr = false := rfl
@[simp] theorem Cmd.read_wr : Cmd.read .wr = false := rfl
@[simp] theorem Cmd.write_wr : Cmd.write .wr = true := rfl
@[simp] theorem Cmd.nack_wr : Cmd.nack .wr = false := rfl
@[simp] theorem Cmd.moves_wr : Cmd.moves .wr = true := rfl
@[simp] theorem Cmd.sta_wrSto : Cmd.sta .wrSto = false := rfl
@[simp] theorem Cmd.stop_wrSto : Cmd.stop .wrSto = true := rfl
@[simp] theorem Cmd.read_wrSto : Cmd.read .wrSto = false := rfl
@[simp] theorem Cmd.write_wrSto : Cmd.write .wrSto = true := rfl
@[simp] theorem Cmd.nack_wrSto : Cmd.nack .wrSto = false := rfl
@[simp] theorem Cmd.moves_wrSto : Cmd.moves .wrSto = true := rfl
@[simp] theorem Cmd.sta_rd : Cmd.sta .rd = false := rfl
@[simp] theorem Cmd.stop_rd : Cmd.stop .rd = false := rfl
@[simp] theorem Cmd.read_rd : Cmd.read .rd = true := rfl
@[simp] theorem Cmd.write_rd : Cmd.write .rd = false := rfl
@[simp] theorem Cmd.nack_rd : Cmd.nack .rd = false := rfl
@[simp] theorem Cmd.moves_rd : Cmd.moves .rd = true := rfl
@[simp] theorem Cmd.sta_rdNackSto : Cmd.sta .rdNackSto = false := rfl
@[simp] theorem Cmd.stop_rdNackSto : Cmd.stop .rdNackSto = true := rfl
@[simp] theorem Cmd.read_rdNackSto : Cmd.read .rdNackSto = true := rfl
@[simp] theorem Cmd.write_rdNackSto : Cmd.write .rdNackSto = false := rfl
@[simp] theorem Cmd.nack_rdNackSto : Cmd.nack .rdNackSto = true := rfl
@[simp] theorem Cmd.moves_rdNackSto : Cmd.moves .rdNackSto = true := rfl
@[simp] theorem Cmd.sta_sto : Cmd.sta .sto = false := rfl
@[simp] theorem Cmd.stop_sto : Cmd.stop .sto = true := rfl
@[simp] theorem Cmd.read_sto : Cmd.read .sto = false := rfl
@[simp] theorem Cmd.write_sto : Cmd.write .sto = false := rfl
@[simp] theorem Cmd.nack_sto : Cmd.nack .sto = false := rfl
@[simp] theorem Cmd.moves_sto : Cmd.moves .sto = false := rfl
@[simp] theorem Cmd.sta_rdNack : Cmd.sta .rdNack = false := rfl
@[simp] theorem Cmd.stop_rdNack : Cmd.stop .rdNack = false := rfl
@[simp] theorem Cmd.read_rdNack : Cmd.read .rdNack = true := rfl
@[simp] theorem Cmd.write_rdNack : Cmd.write .rdNack = false := rfl
@[simp] theorem Cmd.nack_rdNack : Cmd.nack .rdNack = true := rfl
@[simp] theorem Cmd.moves_rdNack : Cmd.moves .rdNack = true := rfl
@[simp] theorem Cmd.sta_rdSto : Cmd.sta .rdSto = false := rfl
@[simp] theorem Cmd.stop_rdSto : Cmd.stop .rdSto = true := rfl
@[simp] theorem Cmd.read_rdSto : Cmd.read .rdSto = true := rfl
@[simp] theorem Cmd.write_rdSto : Cmd.write .rdSto = false := rfl
@[simp] theorem Cmd.nack_rdSto : Cmd.nack .rdSto = false := rfl
@[simp] theorem Cmd.moves_rdSto : Cmd.moves .rdSto = true := rfl

/-- The core's decoder reads back the byte of a command. -/
@[simp] theorem Cmd.ofByte_byte (c : Cmd) : Cmd.ofByte c.byte = some c := by cases c <;> rfl

/-- A byte that is read as a command is its byte. -/
theorem Cmd.byte_of_ofByte {b : Byte} {c : Cmd} (h : Cmd.ofByte b = some c) : c.byte = b := by
  unfold Cmd.ofByte at h
  repeat' split at h
  all_goals first | (cases h; simp_all [Cmd.byte]) | cases h

namespace Machine

variable {s t : State} {c : Cmd} {l : Bool}

/-- A legal byte written to `BM_CMD` is a command write. -/
theorem ioWrite_cmd (c : Cmd) (s : State) : ioWrite .cmdStatus c.byte s = cmdWrite c s := by
  simp [ioWrite]

/-- What a command write can do (R81): go in flight, be STOP alone, or, on a disabled core by policy,
be ignored. -/
theorem cmdWrite_cases (h : cmdWrite c s = .ok t) :
    (s.enabled = true ∧ s.bus.inflight = none ∧ c.moves = true ∧
      t = { s with
        bus := { s.bus with inflight := some c, tip := true }, io := s.io ++ [.cmd c.byte] }) ∨
    (s.enabled = true ∧ s.bus.inflight = none ∧ c.moves = false ∧
      t = { s with
        bus := { s.bus with wire := s.bus.wire ++ [.stop], busOpen := false }
        io := s.io ++ [.cmd c.byte] }) ∨
    (s.enabled = false ∧ s.cfg.disabledCore = .ignore ∧ t = { s with io := s.io ++ [.cmd c.byte] }) := by
  unfold cmdWrite at h
  split at h <;> rename_i he
  · split at h <;> rename_i hp
    · cases h
    · cases h; exact .inr (.inr ⟨he, hp, rfl⟩)
  · have he : s.enabled = true := by simpa using he
    split at h <;> rename_i hi
    · cases h
    · have hi : s.bus.inflight = none := by simpa using hi
      split at h <;> rename_i hm
      · split at h
        · cases h
        · cases h; exact .inl ⟨he, hi, hm, rfl⟩
      · cases h; exact .inr (.inl ⟨he, hi, by simpa using hm, rfl⟩)

/-- A byte command goes in flight. -/
theorem cmdWrite_moves (he : s.enabled = true) (hi : s.bus.inflight = none) (hm : c.moves = true)
    (ho : c.sta = true ∨ s.bus.busOpen = true) :
    cmdWrite c s = .ok { s with
      bus := { s.bus with inflight := some c, tip := true }, io := s.io ++ [.cmd c.byte] } := by
  rw [cmdWrite, if_neg (by simp [he]), if_neg (by simp [hi]), if_pos hm, if_neg]
  · rfl
  · rintro ⟨h1, h2, -⟩; simp_all

/-- STOP alone is on the wires at once. -/
theorem cmdWrite_sto (he : s.enabled = true) (hi : s.bus.inflight = none) :
    cmdWrite .sto s = .ok { s with
      bus := { s.bus with wire := s.bus.wire ++ [.stop], busOpen := false }
      io := s.io ++ [.cmd 0x40] } := by
  rw [cmdWrite, if_neg (by simp [he]), if_neg (by simp [hi]), if_neg (by simp)]
  rfl

/-- What a completion leaves alone: everything but the bus core's own registers and the slave's
answers. -/
theorem coreComplete_frame (h : coreComplete l c s = some t) :
    t.cfg = s.cfg ∧ t.bm = s.bm ∧ t.fg = s.fg ∧ t.fb = s.fb ∧ t.tr = s.tr ∧ t.act = s.act ∧
    t.op = s.op ∧ t.io = s.io ∧ t.bus.inflight = none ∧ t.bus.tip = false ∧
    t.bus.ctrl = s.bus.ctrl ∧ t.bus.divLo = s.bus.divLo ∧ t.bus.divHi = s.bus.divHi ∧
    t.bus.txr = s.bus.txr ∧ t.env.status = s.env.status ∧ t.env.pixels = s.env.pixels ∧
    t.env.host = s.env.host ∧ t.env.pace = s.env.pace ∧ t.env.resets = s.env.resets ∧
    ∃ es, t.bus.wire = s.bus.wire ++ es := by
  unfold coreComplete at h
  obtain ⟨u, hu, rfl⟩ := Option.map_eq_some_iff.1 h
  obtain ⟨w, hw, hu⟩ := Option.bind_eq_some_iff.1 hu
  have h1 : (startPart c s).cfg = s.cfg ∧ (startPart c s).bm = s.bm ∧ (startPart c s).fg = s.fg ∧
      (startPart c s).fb = s.fb ∧ (startPart c s).tr = s.tr ∧ (startPart c s).act = s.act ∧
      (startPart c s).op = s.op ∧ (startPart c s).io = s.io ∧ (startPart c s).bus.ctrl = s.bus.ctrl ∧
      (startPart c s).bus.divLo = s.bus.divLo ∧ (startPart c s).bus.divHi = s.bus.divHi ∧
      (startPart c s).bus.txr = s.bus.txr ∧ (startPart c s).env = s.env ∧
      ∃ es, (startPart c s).bus.wire = s.bus.wire ++ es := by
    unfold startPart; split
    · simp
    · simp
  have h2 : ∀ {a b : State}, writePart l c a = some b → b.cfg = a.cfg ∧ b.bm = a.bm ∧ b.fg = a.fg ∧
      b.fb = a.fb ∧ b.tr = a.tr ∧ b.act = a.act ∧ b.op = a.op ∧ b.io = a.io ∧
      b.bus.ctrl = a.bus.ctrl ∧ b.bus.divLo = a.bus.divLo ∧ b.bus.divHi = a.bus.divHi ∧
      b.bus.txr = a.bus.txr ∧ b.env.status = a.env.status ∧ b.env.pixels = a.env.pixels ∧
      b.env.host = a.env.host ∧ b.env.pace = a.env.pace ∧ b.env.resets = a.env.resets ∧
      ∃ es, b.bus.wire = a.bus.wire ++ es := by
    intro a b hb
    unfold writePart at hb
    split at hb
    · obtain ⟨x, hx, rfl⟩ := Option.map_eq_some_iff.1 hb
      unfold ackAnswer at hx
      split at hx
      · cases hx; simp
      · split at hx
        · cases hx
        · cases hx; simp
    · cases hb; simp
  have h3 : ∀ {a b : State}, readPart l c a = some b → b.cfg = a.cfg ∧ b.bm = a.bm ∧ b.fg = a.fg ∧
      b.fb = a.fb ∧ b.tr = a.tr ∧ b.act = a.act ∧ b.op = a.op ∧ b.io = a.io ∧
      b.bus.ctrl = a.bus.ctrl ∧ b.bus.divLo = a.bus.divLo ∧ b.bus.divHi = a.bus.divHi ∧
      b.bus.txr = a.bus.txr ∧ b.env.status = a.env.status ∧ b.env.pixels = a.env.pixels ∧
      b.env.host = a.env.host ∧ b.env.pace = a.env.pace ∧ b.env.resets = a.env.resets ∧
      ∃ es, b.bus.wire = a.bus.wire ++ es := by
    intro a b hb
    unfold readPart at hb
    split at hb
    · obtain ⟨x, hx, rfl⟩ := Option.map_eq_some_iff.1 hb
      unfold byteAnswer at hx
      split at hx
      · cases hx; simp
      · split at hx
        · cases hx
        · cases hx; simp
    · cases hb; simp
  have h4 : ∀ a : State, (stopPart c a).cfg = a.cfg ∧ (stopPart c a).bm = a.bm ∧
      (stopPart c a).fg = a.fg ∧ (stopPart c a).fb = a.fb ∧ (stopPart c a).tr = a.tr ∧
      (stopPart c a).act = a.act ∧ (stopPart c a).op = a.op ∧ (stopPart c a).io = a.io ∧
      (stopPart c a).bus.inflight = none ∧ (stopPart c a).bus.tip = false ∧
      (stopPart c a).bus.ctrl = a.bus.ctrl ∧ (stopPart c a).bus.divLo = a.bus.divLo ∧
      (stopPart c a).bus.divHi = a.bus.divHi ∧ (stopPart c a).bus.txr = a.bus.txr ∧
      (stopPart c a).env = a.env ∧ ∃ es, (stopPart c a).bus.wire = a.bus.wire ++ es := by
    intro a; unfold stopPart; split <;> simp
  obtain ⟨es1, e1⟩ := h1.2.2.2.2.2.2.2.2.2.2.2.2.2
  obtain ⟨es2, e2⟩ := (h2 hw).2.2.2.2.2.2.2.2.2.2.2.2.2.2.2.2.2
  obtain ⟨es3, e3⟩ := (h3 hu).2.2.2.2.2.2.2.2.2.2.2.2.2.2.2.2.2
  obtain ⟨es4, e4⟩ := (h4 u).2.2.2.2.2.2.2.2.2.2.2.2.2.2.2
  refine ⟨?_, ?_, ?_, ?_, ?_, ?_, ?_, ?_, ?_, ?_, ?_, ?_, ?_, ?_, ?_, ?_, ?_, ?_, ?_,
    es1 ++ es2 ++ es3 ++ es4, by rw [e4, e3, e2, e1]; simp⟩ <;> simp [h1, h2 hw, h3 hu, h4 u]

/-- The same of the bus core's step. -/
theorem coreTick_complete (h : coreTick l s = some t) :
    ∃ c, s.enabled = true ∧ s.bus.inflight = some c ∧ coreComplete l c s = some t := by
  unfold coreTick at h
  split at h
  · obtain ⟨c, hc, h⟩ := Option.bind_eq_some_iff.1 h
    exact ⟨c, by assumption, hc, h⟩
  · cases h

/-- The completion of a sent byte that the slave has answered (R82). -/
theorem coreTick_write {a : Bool} {rest : List Bool} (he : s.enabled = true)
    (hi : s.bus.inflight = some c) (hw : c.write = true) (ho : c.sta = true ∨ s.bus.busOpen = true)
    (ha : s.env.slaveAcks = a :: rest) :
    coreTick true s = some { s with
      bus := { s.bus with
        wire := s.bus.wire ++ ((if c.sta then [.start] else []) ++ [.tx s.bus.txr a]
          ++ (if c.stop then [.stop] else []))
        ack := a, tip := false, inflight := none, busOpen := !c.stop }
      env := { s.env with slaveAcks := rest } } := by
  cases c <;> simp at hw ho <;>
    simp [coreTick, he, hi, coreComplete, startPart, writePart, readPart, stopPart, ackAnswer, ha, ho,
      State.withBus, State.withEnv, State.emit, State.openBus]

/-- The completion of a received byte that the slave has supplied (R82). -/
theorem coreTick_read {b : Byte} {rest : List Byte} (he : s.enabled = true)
    (hi : s.bus.inflight = some c) (hr : c.read = true) (ho : s.bus.busOpen = true)
    (hb : s.env.slaveBytes = b :: rest) :
    coreTick true s = some { s with
      bus := { s.bus with
        wire := s.bus.wire ++ ([.rx b c.nack] ++ (if c.stop then [.stop] else []))
        rxr := b, ack := Config.freeBit .ackAfterRead s.env.draws, tip := false, inflight := none
        busOpen := !c.stop }
      env := { s.env with slaveBytes := rest, draws := s.env.draws + 1 } } := by
  cases c <;> simp at hr <;>
    simp [coreTick, he, hi, coreComplete, startPart, writePart, readPart, stopPart, byteAnswer, hb, ho,
      State.withBus, State.withEnv, State.emit, State.openBus, State.drawn]

/-- A sent byte the slave has not answered stays in flight (R82, R91). -/
theorem coreTick_waits (hi : s.bus.inflight = some c) (ho : c.sta = true ∨ s.bus.busOpen = true)
    (hw : c.write = true) (ha : s.env.slaveAcks = []) : coreTick true s = none := by
  cases c <;> simp at hw ho <;>
    simp [coreTick, hi, coreComplete, startPart, writePart, ackAnswer, ha, ho, State.openBus,
      State.withBus, State.emit]

/-- A byte the slave has not supplied stays in flight (R82, R91). -/
theorem coreTick_waits_byte (hi : s.bus.inflight = some c) (ho : s.bus.busOpen = true)
    (hr : c.read = true) (hb : s.env.slaveBytes = []) : coreTick true s = none := by
  cases c <;> simp at hr <;>
    simp [coreTick, hi, coreComplete, startPart, writePart, readPart, byteAnswer, hb, ho]

/-- The completion of a byte sent to a slave that does not listen: nobody acknowledges it (R216, U4). -/
theorem coreTick_write_unheard (he : s.enabled = true) (hi : s.bus.inflight = some c)
    (hw : c.write = true) (hs : c.sta = false) (ho : s.bus.busOpen = true) :
    coreTick false s = some { s with
      bus := { s.bus with
        wire := s.bus.wire ++ ([.tx s.bus.txr true] ++ (if c.stop then [.stop] else []))
        ack := true, tip := false, inflight := none, busOpen := !c.stop } } := by
  cases c <;> simp at hw hs <;>
    simp [coreTick, he, hi, coreComplete, startPart, writePart, readPart, stopPart, ackAnswer, ho,
      State.withBus, State.emit, State.openBus]

/-- The completion of a byte received from a slave that does not listen: any value (R216, U4). -/
theorem coreTick_read_unheard (he : s.enabled = true) (hi : s.bus.inflight = some c)
    (hr : c.read = true) (ho : s.bus.busOpen = true) :
    coreTick false s = some { s with
      bus := { s.bus with
        wire := s.bus.wire ++ ([.rx (Config.freeByte .closedBusByte s.env.draws) c.nack]
          ++ (if c.stop then [.stop] else []))
        rxr := Config.freeByte .closedBusByte s.env.draws
        ack := Config.freeBit .ackAfterRead (s.env.draws + 1), tip := false, inflight := none
        busOpen := !c.stop }
      env := { s.env with draws := s.env.draws + 2 } } := by
  cases c <;> simp at hr <;>
    simp [coreTick, he, hi, coreComplete, startPart, writePart, readPart, stopPart, byteAnswer, ho,
      State.withBus, State.withEnv, State.emit, State.openBus, State.drawn]

/-! The direction the bus is held in (R216). -/

/-- A START and an acknowledged address byte set it. -/
@[simp] theorem heldDirection_addressed (w : List Event) (b : Byte) :
    heldDirection (w ++ [Event.start, Event.tx b false]).reverse = some (b.getLsbD 0) := by
  simp [heldDirection]

/-- A byte received keeps it. -/
@[simp] theorem heldDirection_rx (w : List Event) (b : Byte) (n : Bool) :
    heldDirection (w ++ [Event.rx b n]).reverse = heldDirection w.reverse := by
  simp [heldDirection]

/-- An acknowledged byte sent keeps it where there is one. -/
theorem heldDirection_tx {w : List Event} {d : Bool} (h : heldDirection w.reverse = some d) (b : Byte) :
    heldDirection (w ++ [Event.tx b false]).reverse = some d := by
  rw [List.reverse_append]
  revert h
  cases w.reverse with
  | nil => simp [heldDirection]
  | cons e r => cases e <;> simp [heldDirection]

/-- A transfer with the address phase is never misdirected. -/
theorem misdirected_addr (h : s.bm.addr = true) : s.misdirected = false := by
  simp [State.misdirected, h]

/-- A transfer in the direction the bus is held in is not misdirected. -/
theorem misdirected_held (h : s.direction = some s.bm.dir) : s.misdirected = false := by
  simp [State.misdirected, h]

/-- A transfer without address on an open bus held in no direction or the other one. -/
theorem misdirected_other (ha : s.bm.addr = false) (ho : s.bus.busOpen = true)
    (h : s.direction ≠ some s.bm.dir) : s.misdirected = true := by
  simp [State.misdirected, ha, ho, h]

/-- The slave listens to every transfer that is not misdirected. -/
theorem listening_of (h : s.misdirected = false) : s.listening = true := by
  simp [State.listening, h]

/-- The slave listens outside the wait of a data phase. -/
theorem listening_phase (h : s.bm.phase ≠ .dataWait) : s.listening = true := by
  simp [State.listening, h]

/-- A read of `BM_CTRL` shows the enable bit where R17 puts it. -/
theorem readBusByte_ctrl (s : State) :
    ∃ b, readBusByte .ctrl s = some b ∧ b.getLsbD 7 = s.enabled :=
  ⟨_, rfl, by rw [State.enabled, BitVec.getLsbD_append]; simp⟩

/-- Nothing in flight, nothing to complete. -/
theorem coreTick_none (hi : s.bus.inflight = none) : coreTick l s = none := by
  simp [coreTick, hi]

end Machine
end Sys2Proof
end

