-- ==== Sys2Proof/Laws/Drive.lean ====
section
/-! SUPPORT. The run of the block: its equations, and the principle every invariant of a run goes
through (R7, R48, R50). -/

namespace Sys2Proof.Machine

variable {s t : State} {n : Nat}

theorem drive_zero (s : State) : drive 0 s = .next s := rfl

theorem drive_held (h : tick s = .ok none) : drive n s = .next s := by
  cases n <;> simp [drive, h]

theorem drive_moved (h : tick s = .ok (some t)) : drive (n + 1) s = drive n t := by
  simp [drive, h]

theorem drive_refused {r : Refusal} (h : tick s = .error r) : drive (n + 1) s = .refused r := by
  simp [drive, h]

/-- Which agent a tick is a step of: the bus core. -/
theorem tick_core (h : s.bus.inflight ≠ none) : tick s = .ok (coreTick s.listening s) := by
  simp [tick, h]

/-- Which agent a tick is a step of: BM. -/
theorem tick_bm (h : s.bus.inflight = none) (hb : s.bm.phase ≠ .idle) : tick s = bmTick s := by
  simp [tick, h, hb]

/-- Which agent a tick is a step of: FG. -/
theorem tick_fg (h : s.bus.inflight = none) (hb : s.bm.phase = .idle) (hf : s.fg.phase ≠ .idle) :
    tick s = .ok (fgTick s) := by
  simp [tick, h, hb, hf]

/-- Which agent a tick is a step of: TR. -/
theorem tick_tr (h : s.bus.inflight = none) (hb : s.bm.phase = .idle) (hf : s.fg.phase = .idle) :
    tick s = trTick s := by
  simp [tick, h, hb, hf]

/-- A tick is the step of exactly one agent. -/
theorem tick_cases (s : State) :
    (s.bus.inflight ≠ none ∧ tick s = .ok (coreTick s.listening s)) ∨
    (s.bus.inflight = none ∧ s.bm.phase ≠ .idle ∧ tick s = bmTick s) ∨
    (s.bus.inflight = none ∧ s.bm.phase = .idle ∧ s.fg.phase ≠ .idle ∧ tick s = .ok (fgTick s)) ∨
    (s.bus.inflight = none ∧ s.bm.phase = .idle ∧ s.fg.phase = .idle ∧ tick s = trTick s) := by
  by_cases h : s.bus.inflight = none
  · by_cases hb : s.bm.phase = .idle
    · by_cases hf : s.fg.phase = .idle
      · exact .inr (.inr (.inr ⟨h, hb, hf, tick_tr h hb hf⟩))
      · exact .inr (.inr (.inl ⟨h, hb, hf, tick_fg h hb hf⟩))
    · exact .inr (.inl ⟨h, hb, tick_bm h hb⟩)
  · exact .inl ⟨h, tick_core h⟩

/-- What every tick keeps, a run keeps. -/
theorem drive_keeps (P : State → Prop) (hP : ∀ s t, P s → tick s = .ok (some t) → P t) :
    ∀ (n : Nat) (s t : State), P s → drive n s = .next t → P t := by
  intro n
  induction n with
  | zero => intro s t h hd; cases hd; exact h
  | succ n ih =>
    intro s t h hd
    cases ht : tick s with
    | error r => simp [drive, ht] at hd
    | ok o =>
      cases o with
      | none => simp only [drive, ht] at hd; cases hd; exact h
      | some u => simp only [drive, ht] at hd; exact ih u t (hP s u h ht) hd

/-- The same for `resume`, whose other change is the pace. -/
theorem resume_keeps (P : State → Prop) (hP : ∀ s t, P s → tick s = .ok (some t) → P t)
    (hpace : ∀ s l, P s → P (s.withEnv { s.env with pace := l }))
    (h : P s) (hr : resume s = .next t) : P t :=
  drive_keeps P hP _ _ _ (hpace s _ h) hr

/-- A run in ticks: `n` of them, each moving. -/
def runTicks : Nat → State → Option State
  | 0, s => some s
  | n + 1, s =>
    match tick s with
    | .ok (some t) => runTicks n t
    | _ => none

theorem runTicks_moved (h : tick s = .ok (some t)) : runTicks (n + 1) s = runTicks n t := by
  simp [runTicks, h]

theorem runTicks_add {m : Nat} {u : State} (h : runTicks m s = some u) :
    runTicks (m + n) s = runTicks n u := by
  induction m generalizing s with
  | zero => cases h; simp
  | succ m ih =>
    rw [Nat.succ_add]
    simp only [runTicks] at h ⊢
    split <;> rename_i ht
    · simp only [ht] at h; exact ih h
    · revert h
      cases hts : tick s with
      | error r => simp
      | ok o => cases o with
        | none => simp
        | some v => exact absurd hts (ht v)

/-- A run that reaches a held state within its steps ends there. -/
theorem drive_of_runTicks {k : Nat} (h : runTicks k s = some t) (ht : tick t = .ok none)
    (hk : k ≤ n) : drive n s = .next t := by
  induction k generalizing s n with
  | zero => cases h; exact drive_held ht
  | succ k ih =>
    obtain ⟨n, rfl⟩ : ∃ m, n = m + 1 := ⟨n - 1, by omega⟩
    simp only [runTicks] at h
    split at h <;> rename_i hs
    · rw [drive_moved hs]; exact ih h (by omega)
    · simp at h

theorem resume_of_unpaced (h : s.env.pace = []) : resume s = drive (ampleSteps s) s := by
  obtain ⟨cfg, bm, bus, fg, fb, tr, act, op, env, io⟩ := s
  obtain ⟨a, b, c, d, e, pace, f, g⟩ := env
  cases h
  rfl

end Sys2Proof.Machine
end

