-- ==== Sys2Proof/Laws/Operands.lean ====
section
/-! SUPPORT. Clamping, coordinates in registers, ranges (R5, R62, R140, R150). -/

namespace Sys2Proof

theorem coordOk_iff (v : Int) : coordOk v = true ↔ -32768 ≤ v ∧ v ≤ 32767 := by
  simp [coordOk]

theorem coord_toInt_ofInt {v : Int} (h : coordOk v = true) : (BitVec.ofInt 16 v).toInt = v := by
  rw [coordOk_iff] at h
  rw [BitVec.toInt_ofInt, Int.bmod_def]
  split <;> omega

theorem coordOk_toInt (b : Coord) : coordOk b.toInt = true := by
  rw [coordOk_iff]
  have h1 := BitVec.toInt_lt (x := b)
  have h2 := BitVec.le_toInt (x := b)
  omega

namespace Machine

theorem clampInt_mem {v lo hi : Int} (h : lo ≤ hi) : lo ≤ clampInt v lo hi ∧ clampInt v lo hi ≤ hi := by
  unfold clampInt; split
  · omega
  · split <;> omega

theorem clampInt_of_mem {v lo hi : Int} (h1 : lo ≤ v) (h2 : v ≤ hi) : clampInt v lo hi = v := by
  unfold clampInt; rw [if_neg (by omega), if_neg (by omega)]

theorem clampPos_mem {v lo hi : Pos} (h : lo ≤ hi) : lo ≤ clampPos v lo hi ∧ clampPos v lo hi ≤ hi := by
  unfold clampPos; split
  · exact ⟨le_refl _, h⟩
  · split
    · exact ⟨h, le_refl _⟩
    · constructor <;> linarith

theorem mem_span {a b x : Int} : x ∈ span a b ↔ a ≤ x ∧ x ≤ b := by
  unfold span
  rw [List.mem_map]
  constructor
  · rintro ⟨k, hk, rfl⟩
    rw [List.mem_range] at hk
    omega
  · intro h
    exact ⟨(x - a).toNat, by rw [List.mem_range]; omega, by omega⟩

theorem span_nil {a b : Int} (h : b < a) : span a b = [] := by
  have : (b - a + 1).toNat = 0 := by omega
  simp [span, this]

/-- A range is its first element and the rest. -/
theorem span_cons {a b : Int} (h : a ≤ b) : span a b = a :: span (a + 1) b := by
  obtain ⟨n, hn⟩ : ∃ n : Nat, (b - a + 1).toNat = n + 1 := ⟨(b - a).toNat, by omega⟩
  have hm : (b - (a + 1) + 1).toNat = n := by omega
  unfold span
  rw [hn, hm, List.range_succ_eq_map]
  simp [Function.comp_def, add_assoc, add_comm (1 : Int)]

end Machine
end Sys2Proof
end

