-- ==== Sys2Proof/Laws/Sequencers.lean ====
section
/-! SUPPORT. What a step of each sequencer, and the run of the block, leaves alone (R2, R7, R33). -/

namespace Sys2Proof.Machine

variable {s t : State}

/-- What no step of an agent changes: the configuration, the request on the port, and the moves the host
has still to make. -/
structure Around (s t : State) : Prop where
  cfg : t.cfg = s.cfg
  strobe : t.op.strobe = s.op.strobe
  word : t.op.word = s.op.word
  args : t.op.args = s.op.args
  host : t.env.host = s.env.host
  pace : t.env.pace = s.env.pace
  resets : t.env.resets = s.env.resets

theorem Around.refl (s : State) : Around s s := ⟨rfl, rfl, rfl, rfl, rfl, rfl, rfl⟩

theorem Around.trans {u : State} (h : Around s t) (k : Around t u) : Around s u :=
  ⟨k.cfg.trans h.cfg, k.strobe.trans h.strobe, k.word.trans h.word, k.args.trans h.args,
    k.host.trans h.host, k.pace.trans h.pace, k.resets.trans h.resets⟩

/-- The video side: frame grabber, frame buffer, tracker, actuators, and the sensor's coming answers. -/
structure SameVideo (s t : State) : Prop where
  fg : t.fg = s.fg
  fb : t.fb = s.fb
  tr : t.tr = s.tr
  act : t.act = s.act
  status : t.env.status = s.env.status
  pixels : t.env.pixels = s.env.pixels

theorem SameVideo.refl (s : State) : SameVideo s s := ⟨rfl, rfl, rfl, rfl, rfl, rfl⟩

theorem SameVideo.trans {u : State} (h : SameVideo s t) (k : SameVideo t u) : SameVideo s u :=
  ⟨k.fg.trans h.fg, k.fb.trans h.fb, k.tr.trans h.tr, k.act.trans h.act, k.status.trans h.status,
    k.pixels.trans h.pixels⟩

/-- The bus side: BM, the bus core, and the slave's coming answers. -/
structure SameBus (s t : State) : Prop where
  bm : t.bm = s.bm
  bus : t.bus = s.bus
  acks : t.env.slaveAcks = s.env.slaveAcks
  bytes : t.env.slaveBytes = s.env.slaveBytes

theorem SameBus.refl (s : State) : SameBus s s := ⟨rfl, rfl, rfl, rfl⟩

theorem SameBus.trans {u : State} (h : SameBus s t) (k : SameBus t u) : SameBus s u :=
  ⟨k.bm.trans h.bm, k.bus.trans h.bus, k.acks.trans h.acks, k.bytes.trans h.bytes⟩

/-- What `BM_INIT` alone writes (R90). -/
structure SameInit (s t : State) : Prop where
  slaveAddr : t.bm.slaveAddr = s.bm.slaveAddr
  inited : t.bm.inited = s.bm.inited
  ctrl : t.bus.ctrl = s.bus.ctrl
  divLo : t.bus.divLo = s.bus.divLo
  divHi : t.bus.divHi = s.bus.divHi

theorem SameInit.refl (s : State) : SameInit s s := ⟨rfl, rfl, rfl, rfl, rfl⟩

theorem SameInit.trans {u : State} (h : SameInit s t) (k : SameInit t u) : SameInit s u :=
  ⟨k.slaveAddr.trans h.slaveAddr, k.inited.trans h.inited, k.ctrl.trans h.ctrl,
    k.divLo.trans h.divLo, k.divHi.trans h.divHi⟩

theorem SameBus.init (h : SameBus s t) : SameInit s t := by
  obtain ⟨h1, h2, -, -⟩ := h
  constructor <;> simp [h1, h2]

/-- The two traces only grow. -/
structure Grows (s t : State) : Prop where
  wire : ∃ es, t.bus.wire = s.bus.wire ++ es
  io : ∃ ws, t.io = s.io ++ ws

theorem Grows.refl (s : State) : Grows s s := ⟨⟨[], by simp⟩, ⟨[], by simp⟩⟩

theorem Grows.trans {u : State} (h : Grows s t) (k : Grows t u) : Grows s u := by
  obtain ⟨⟨a, ha⟩, ⟨b, hb⟩⟩ := h
  obtain ⟨⟨c, hc⟩, ⟨d, hd⟩⟩ := k
  exact ⟨⟨a ++ c, by simp [hc, ha]⟩, ⟨b ++ d, by simp [hd, hb]⟩⟩

/-! The bus side. -/

/-- What a step of the bus side can do to the rest, and to what `BM_INIT` configured. -/
structure BusMoved (s t : State) : Prop where
  around : Around s t
  video : SameVideo s t
  init : SameInit s t
  grows : Grows s t
  cur : t.op.cur = s.op.cur ∨ t.op.cur = none

theorem BusMoved.refl (s : State) : BusMoved s s := ⟨.refl s, .refl s, .refl s, .refl s, .inl rfl⟩

theorem BusMoved.trans {u : State} (h : BusMoved s t) (k : BusMoved t u) : BusMoved s u :=
  ⟨h.around.trans k.around, h.video.trans k.video, h.init.trans k.init, h.grows.trans k.grows, by
    rcases k.cur with e | e
    · rw [e]; exact h.cur
    · exact .inr e⟩

/-- A change of the port's results, of BM's own registers, or of nothing. -/
theorem BusMoved.of_eq (ha : Around s t := by constructor <;> rfl)
    (hv : SameVideo s t := by constructor <;> rfl) (hi : SameInit s t := by constructor <;> rfl)
    (hw : t.bus.wire = s.bus.wire := by rfl) (hio : t.io = s.io := by rfl)
    (hc : t.op.cur = s.op.cur ∨ t.op.cur = none := by first | exact .inl rfl | exact .inr rfl) :
    BusMoved s t :=
  ⟨ha, hv, hi, ⟨⟨[], by simp [hw]⟩, [], by simp [hio]⟩, hc⟩

/-- The same with more bus events and register writes. -/
theorem BusMoved.of_grown (es : List Event) (ws : List IoWrite)
    (ha : Around s t := by constructor <;> rfl)
    (hv : SameVideo s t := by constructor <;> rfl) (hi : SameInit s t := by constructor <;> rfl)
    (hw : t.bus.wire = s.bus.wire ++ es := by simp) (hio : t.io = s.io ++ ws := by simp)
    (hc : t.op.cur = s.op.cur := by rfl) : BusMoved s t :=
  ⟨ha, hv, hi, ⟨⟨es, hw⟩, ws, hio⟩, .inl hc⟩

/-- The bus core completes a command (R82). -/
theorem coreTick_moved {l : Bool} (h : coreTick l s = some t) :
    BusMoved s t ∧ t.bm = s.bm ∧ t.op = s.op ∧ t.io = s.io ∧ t.bus.inflight = none ∧
      t.bus.tip = false := by
  obtain ⟨c, -, -, h⟩ := coreTick_complete h
  obtain ⟨h1, h2, h3, h4, h5, h6, h7, h8, h9, h10, h11, h12, h13, h14, h15, h16, h17, h18, h19, h20⟩ :=
    coreComplete_frame h
  refine ⟨⟨?_, ?_, ?_, ⟨h20, [], by simp [h8]⟩, .inl (by rw [h7])⟩, h2, h7, h8, h9, h10⟩ <;>
    constructor <;> simp [*]

/-- A write of `TXR` (R18). -/
theorem ioWrite_data_moved {b : Byte} (h : ioWrite .data b s = .ok t) :
    s.bus.inflight = none ∧
      t = { s with bus := { s.bus with txr := b }, io := s.io ++ [.data b] } := by
  simp only [ioWrite] at h
  split at h
  · cases h
  · rename_i hi
    cases h
    exact ⟨by simpa using hi, rfl⟩

/-- A command write (R81): it goes in flight with `TIP` up, or nothing goes in flight. -/
theorem cmdWrite_moved {c : Cmd} (h : cmdWrite c s = .ok t) :
    BusMoved s t ∧ t.bm = s.bm ∧ t.op = s.op ∧ t.env = s.env ∧
      ((c.moves = true ∧ t.bus.inflight = some c ∧ t.bus.tip = true) ∨
        (t.bus.inflight = s.bus.inflight ∧ t.bus.tip = s.bus.tip)) := by
  rcases cmdWrite_cases h with ⟨-, -, hm, rfl⟩ | ⟨-, -, -, rfl⟩ | ⟨-, -, rfl⟩
  · exact ⟨.of_grown [] [.cmd c.byte], rfl, rfl, rfl, .inl ⟨hm, rfl, rfl⟩⟩
  · exact ⟨.of_grown [.stop] [.cmd c.byte], rfl, rfl, rfl, .inr ⟨rfl, rfl⟩⟩
  · exact ⟨.of_grown [] [.cmd c.byte], rfl, rfl, rfl, .inr ⟨rfl, rfl⟩⟩

/-- The end of an operation of BM writes the results and clears `op.cur`. -/
theorem bmFinish_moved (s : State) :
    BusMoved s (bmFinish s) ∧ (bmFinish s).bm = s.bm ∧ (bmFinish s).bus = s.bus := by
  unfold bmFinish
  split <;> (try split) <;> exact ⟨.of_eq, rfl, rfl⟩

/-- The return of a transfer touches no register of the bus core (R96, R97). -/
theorem bmReturn_moved (s : State) : BusMoved s (bmReturn s) ∧ (bmReturn s).bus = s.bus := by
  have h : BusMoved s (bmFinish s.subNone) ∧ (bmFinish s.subNone).bus = s.bus :=
    ⟨BusMoved.trans (t := s.subNone) .of_eq (bmFinish_moved _).1, (bmFinish_moved _).2.2⟩
  unfold bmReturn
  split
  · split
    · split
      · exact ⟨.of_eq, rfl⟩
      · exact ⟨.of_eq, rfl⟩
      · exact h
    · exact h
  · exact h

/-- A step of the BM sequencer, taken with no command in flight. -/
theorem bmTick_moved (h : bmTick s = .ok (some t)) (hi : s.bus.inflight = none) :
    BusMoved s t ∧
      ((∃ c, c.moves = true ∧ t.bus.inflight = some c ∧ t.bus.tip = true ∧
          (t.bm.phase = .addrWait ∨ t.bm.phase = .dataWait)) ∨
        (t.bus.inflight = none ∧ t.bus.tip = s.bus.tip)) := by
  have goes : ∀ (u : State) (p : BmPhase), BusMoved u (u.bmTo p) := fun u p => .of_eq
  have data : ∀ (b : Byte) (p : BmPhase),
      (ioWrite .data b s).map (fun u => some (u.bmTo p)) = .ok (some t) →
      BusMoved s t ∧ t.bus.inflight = none ∧ t.bus.tip = s.bus.tip := by
    intro b p h
    cases hw : ioWrite .data b s with
    | error r => simp [hw, Except.map] at h
    | ok u =>
      simp only [hw, Except.map, Except.ok.injEq, Option.some.injEq] at h
      subst h
      obtain ⟨-, rfl⟩ := ioWrite_data_moved hw
      exact ⟨.of_grown [] [.data b] (hw := by simp [State.bmTo]) (hio := rfl), hi, rfl⟩
  have cmd : ∀ (c : Cmd) (p : BmPhase), p = .addrWait ∨ p = .dataWait →
      (ioWrite .cmdStatus c.byte s).map (fun u => some (u.bmTo p)) = .ok (some t) →
      BusMoved s t ∧
      ((∃ c, c.moves = true ∧ t.bus.inflight = some c ∧ t.bus.tip = true ∧
          (t.bm.phase = .addrWait ∨ t.bm.phase = .dataWait)) ∨
        (t.bus.inflight = none ∧ t.bus.tip = s.bus.tip)) := by
    intro c p hp h
    rw [ioWrite_cmd] at h
    cases hw : cmdWrite c s with
    | error r => simp [hw, Except.map] at h
    | ok u =>
      simp only [hw, Except.map, Except.ok.injEq, Option.some.injEq] at h
      subst h
      obtain ⟨h1, -, -, -, h5⟩ := cmdWrite_moved hw
      refine ⟨h1.trans (goes u p), ?_⟩
      rcases h5 with ⟨a, b, d⟩ | ⟨a, b⟩
      · exact .inl ⟨c, a, b, d, hp⟩
      · exact .inr ⟨a.trans hi, b⟩
  unfold bmTick at h
  split at h
  · cases h
  · exact ⟨(data _ _ h).1, .inr (data _ _ h).2⟩
  · exact cmd .staWr _ (.inl rfl) h
  · split at h <;> cases h
    exact ⟨goes _ _, .inr ⟨hi, rfl⟩⟩
  · cases h
    exact ⟨goes _ _, .inr ⟨hi, rfl⟩⟩
  · exact ⟨(data _ _ h).1, .inr (data _ _ h).2⟩
  · unfold dataIssue at h
    split at h
    · cases h
    · exact cmd _ _ (.inr rfl) h
  · split at h <;> cases h
    exact ⟨goes _ _, .inr ⟨hi, rfl⟩⟩
  · cases h
    have ret : ∀ u : State, BusMoved s u → u.bus = s.bus →
        BusMoved s (bmReturn u) ∧ (bmReturn u).bus = s.bus := fun u h1 h2 =>
      ⟨h1.trans (bmReturn_moved u).1, (bmReturn_moved u).2.trans h2⟩
    split
    · obtain ⟨h1, h2⟩ := ret
        ((s.withBm { s.bm with dataOut := s.bus.rxr }).withBm
          { (s.withBm { s.bm with dataOut := s.bus.rxr }).bm with success := true, phase := .idle })
        .of_eq rfl
      exact ⟨h1, .inr (by rw [bmSucceed, h2]; exact ⟨hi, rfl⟩)⟩
    · split
      · exact ⟨goes _ _, .inr ⟨hi, rfl⟩⟩
      · obtain ⟨h1, h2⟩ := ret (s.withBm { s.bm with success := true, phase := .idle })
          .of_eq rfl
        exact ⟨h1, .inr (by rw [bmSucceed, h2]; exact ⟨hi, rfl⟩)⟩
  · have hs : ioWrite .cmdStatus 0x40 s = cmdWrite .sto s := ioWrite_cmd .sto s
    rw [failStop, hs] at h
    cases hw : cmdWrite .sto s with
    | error r => simp [hw, Except.map] at h
    | ok u =>
      simp only [hw, Except.map, Except.ok.injEq, Option.some.injEq] at h
      subst h
      obtain ⟨h1, -, -, -, h5⟩ := cmdWrite_moved hw
      have h2 := bmReturn_moved (u.withBm { u.bm with success := false, phase := .idle })
      refine ⟨h1.trans (BusMoved.trans .of_eq h2.1), .inr ?_⟩
      rw [h2.2]
      rcases h5 with ⟨a, -, -⟩ | ⟨a, b⟩
      · cases a
      · exact ⟨a.trans hi, b⟩

/-- A poll that goes on, and every other step of BM, leaves a command in flight to the core: with none in
flight BM holds only in a wait whose `TIP` stands (R91), or in `Idle`. -/
theorem bmTick_held (h : bmTick s = .ok none) :
    s.bm.phase = .idle ∨
      (s.bus.tip = true ∧ (s.bm.phase = .addrWait ∨ s.bm.phase = .dataWait)) := by
  unfold bmTick at h
  split at h
  · exact .inl (by assumption)
  · cases hw : ioWrite .data (slaveAddrByte s.bm.slaveAddr s.bm.dir) s <;> simp [hw, Except.map] at h
  · cases hw : ioWrite .cmdStatus Cmd.staWr.byte s <;> simp [hw, Except.map] at h
  · split at h <;> cases h
    rename_i hp ht
    exact .inr ⟨by simpa [State.inProgress, State.statusBit] using ht, .inl hp⟩
  · cases h
  · cases hw : ioWrite .data s.bm.dataIn s <;> simp [hw, Except.map] at h
  · cases hw : dataIssue s <;> simp [hw, Except.map] at h
  · split at h <;> cases h
    rename_i hp ht
    exact .inr ⟨by simpa [State.inProgress, State.statusBit] using ht, .inr hp⟩
  · cases h
  · cases hw : failStop s <;> simp [hw, Except.map] at h

/-! The video side. -/

/-- What a step of the video side can do to the rest: nothing to the bus side, and register writes of the
actuators only. -/
structure VideoMoved (s t : State) : Prop where
  around : Around s t
  bus : SameBus s t
  grows : ∃ ws, t.io = s.io ++ ws

theorem VideoMoved.refl (s : State) : VideoMoved s s := ⟨.refl s, .refl s, [], by simp⟩

theorem VideoMoved.trans {u : State} (h : VideoMoved s t) (k : VideoMoved t u) : VideoMoved s u := by
  obtain ⟨a, ha⟩ := h.grows
  obtain ⟨b, hb⟩ := k.grows
  exact ⟨h.around.trans k.around, h.bus.trans k.bus, a ++ b, by simp [ha, hb]⟩

theorem VideoMoved.of_eq (ha : Around s t := by constructor <;> rfl)
    (hb : SameBus s t := by constructor <;> rfl) (hio : t.io = s.io := by rfl) : VideoMoved s t :=
  ⟨ha, hb, [], by simp [hio]⟩

theorem VideoMoved.all_grow (h : VideoMoved s t) : Grows s t :=
  ⟨⟨[], by simp [h.bus.bus]⟩, h.grows⟩

/-- What a step of FG leaves alone beside (R120): the tracker, the actuators, the register writes. -/
structure GrabberMoved (s t : State) : Prop where
  video : VideoMoved s t
  tr : t.tr = s.tr
  act : t.act = s.act
  io : t.io = s.io

theorem GrabberMoved.refl (s : State) : GrabberMoved s s := ⟨.refl s, rfl, rfl, rfl⟩

theorem GrabberMoved.trans {u : State} (h : GrabberMoved s t) (k : GrabberMoved t u) :
    GrabberMoved s u :=
  ⟨h.video.trans k.video, k.tr.trans h.tr, k.act.trans h.act, k.io.trans h.io⟩

theorem GrabberMoved.of_eq (hv : VideoMoved s t := by exact .of_eq) (htr : t.tr = s.tr := by rfl)
    (hact : t.act = s.act := by rfl) (hio : t.io = s.io := by rfl) : GrabberMoved s t :=
  ⟨hv, htr, hact, hio⟩

/-- The head of the column loop keeps the frame buffer and enters a wait or the end of the capture. -/
theorem enterRow_moved (n : Nat) (s : State) :
    GrabberMoved s (enterRow n s) ∧ (enterRow n s).fb = s.fb ∧ (enterRow n s).op = s.op ∧
      (enterRow n s).env = s.env := ⟨.of_eq, rfl, rfl, rfl⟩

theorem enterCol_moved (n : Nat) (s : State) :
    GrabberMoved s (enterCol n s) ∧ (enterCol n s).fb = s.fb ∧ (enterCol n s).op = s.op ∧
      (enterCol n s).env = s.env := by
  unfold enterCol
  split
  · exact ⟨.of_eq, rfl, rfl, rfl⟩
  · exact ⟨.of_eq, rfl, rfl, rfl⟩

/-- One read of a poll takes one answer of the sensor and changes nothing else, but what follows the
wait. -/
theorem pollLevel_moved {bit : Nat} {level : Bool} {next : State → State}
    (hn : ∀ u, GrabberMoved u (next u) ∧ (next u).fb = u.fb)
    (h : pollLevel bit level next s = some t) : GrabberMoved s t ∧ t.fb = s.fb := by
  obtain ⟨x, hx, rfl⟩ := Option.map_eq_some_iff.1 h
  unfold readFgStatus at hx
  split at hx
  · cases hx
  · cases hx
    split
    · exact ⟨GrabberMoved.trans .of_eq (hn _).1, (hn _).2⟩
    · exact ⟨.of_eq, rfl⟩

/-- A step of FG: at most one store, through the accessor (R126). -/
theorem fgTick_moved (h : fgTick s = some t) :
    GrabberMoved s t ∧ (t.fb = s.fb ∨ ∃ row col v, t.fb = Memory.write s.fb (pixAddr s.cfg row col) v) := by
  have poll : ∀ {bit level} {next : State → State},
      (∀ u, GrabberMoved u (next u) ∧ (next u).fb = u.fb) → pollLevel bit level next s = some t →
      GrabberMoved s t ∧ (t.fb = s.fb ∨ ∃ row col v, t.fb = Memory.write s.fb (pixAddr s.cfg row col) v) :=
    fun hn h => ⟨(pollLevel_moved hn h).1, .inl (pollLevel_moved hn h).2⟩
  have goes : ∀ (p : FgPhase) (u : State), GrabberMoved u (u.fgTo p) ∧ (u.fgTo p).fb = u.fb :=
    fun p u => ⟨.of_eq, rfl⟩
  have row : ∀ u : State, GrabberMoved u (enterRow 0 u) ∧ (enterRow 0 u).fb = u.fb :=
    fun u => ⟨(enterRow_moved 0 u).1, rfl⟩
  have col : ∀ u : State, GrabberMoved u (enterCol 0 u) ∧ (enterCol 0 u).fb = u.fb :=
    fun u => ⟨(enterCol_moved 0 u).1, (enterCol_moved 0 u).2.1⟩
  unfold fgTick at h
  split at h
  · cases h
  · exact poll (goes _) h
  · exact poll row h
  · exact poll (goes _) h
  · exact poll col h
  · exact poll (goes _) h
  · exact poll (goes _) h
  · cases h
    split
    · have hs : GrabberMoved s (sampleAndStore s) ∧
          ∃ row col v, (sampleAndStore s).fb = Memory.write s.fb (pixAddr s.cfg row col) v := by
        unfold sampleAndStore readFgPixel
        split <;> exact ⟨.of_eq, _, _, _, rfl⟩
      obtain ⟨r, c, v, hfb⟩ := hs.2
      exact ⟨hs.1.trans (enterCol_moved _ _).1, .inr ⟨r, c, v, (enterCol_moved _ _).2.1.trans hfb⟩⟩
    · exact ⟨(enterCol_moved _ _).1, .inl (enterCol_moved _ _).2.1⟩
  · cases h
    unfold captureDone
    simp only
    split <;> exact ⟨.of_eq, .inl rfl⟩

/-! The tracker. -/

/-- A change of the scan registers of TR alone, which leaves its phase and its last positions. -/
def Scanned (s t : State) : Prop :=
  ∃ x : Tr, t = s.withTr x ∧ x.phase = s.tr.phase ∧ x.lastPan = s.tr.lastPan ∧
    x.lastTilt = s.tr.lastTilt ∧ x.panErr = s.tr.panErr ∧ x.tiltErr = s.tr.tiltErr ∧
    x.boxValid = s.tr.boxValid

theorem Scanned.refl (s : State) : Scanned s s := ⟨s.tr, rfl, rfl, rfl, rfl, rfl, rfl, rfl⟩

theorem Scanned.trans {u : State} (h : Scanned s t) (k : Scanned t u) : Scanned s u := by
  obtain ⟨x, rfl, a1, a2, a3, a4, a5, a6⟩ := h
  obtain ⟨y, rfl, b1, b2, b3, b4, b5, b6⟩ := k
  exact ⟨y, rfl, b1.trans a1, b2.trans a2, b3.trans a3, b4.trans a4, b5.trans a5, b6.trans a6⟩

/-- A loop over a list of steps each of which scans, scans. -/
theorem foldlM_scanned {α : Type} {f : State → α → Except Refusal State}
    (hf : ∀ u a v, f u a = .ok v → Scanned u v) :
    ∀ (l : List α) (s t : State), l.foldlM f s = .ok t → Scanned s t := by
  intro l
  induction l with
  | nil => intro s t h; cases h; exact .refl _
  | cons a l ih =>
    intro s t h
    rw [List.foldlM_cons] at h
    cases hu : f s a with
    | error r => rw [hu] at h; cases h
    | ok u => rw [hu] at h; exact (hf s a u hu).trans (ih u t h)

/-- A computation of two parts that answers, by its parts. -/
theorem except_bind_ok {α β : Type} {x : Except Refusal α} {f : α → Except Refusal β} {b : β}
    (h : x >>= f = .ok b) : ∃ a, x = .ok a ∧ f a = .ok b := by
  cases x with
  | error r => cases h
  | ok a => exact ⟨a, rfl, h⟩

/-- A computation followed by a function, by its parts. -/
theorem except_map_ok {α β : Type} {x : Except Refusal α} {f : α → β} {b : β}
    (h : x.map f = .ok b) : ∃ a, x = .ok a ∧ f a = b := by
  cases x with
  | error r => cases h
  | ok a => cases h; exact ⟨a, rfl, rfl⟩

theorem thresholdPixel_scanned {i j : Int} (h : thresholdPixel i j s = .ok t) : Scanned s t := by
  unfold thresholdPixel at h
  cases hp : fbRead i j s with
  | error r => rw [hp] at h; cases h
  | ok p => rw [hp] at h; cases h; exact ⟨_, rfl, rfl, rfl, rfl, rfl, rfl, rfl⟩

/-- The threshold scan (R151) changes scan registers and the threshold only. -/
theorem updateThreshold_scanned {roi : Rect} (h : updateThreshold roi s = .ok t) : Scanned s t := by
  unfold updateThreshold at h
  obtain ⟨u, hu, h⟩ := except_bind_ok h
  cases h
  have h0 : Scanned s (s.withTr { s.tr with min := 255, max := 0 }) :=
    ⟨_, rfl, rfl, rfl, rfl, rfl, rfl, rfl⟩
  refine h0.trans (.trans (foldlM_scanned ?_ _ _ _ hu) ⟨_, rfl, rfl, rfl, rfl, rfl, rfl, rfl⟩)
  intro u i v hv
  have h1 : Scanned u (u.withTr { u.tr with i := i }) := ⟨_, rfl, rfl, rfl, rfl, rfl, rfl, rfl⟩
  exact h1.trans (foldlM_scanned (fun _ _ _ h => thresholdPixel_scanned h) _ _ _ hv)

theorem closeRun_scanned (a : Axis) (last : Int) (s : State) : Scanned s (closeRun a last s) := by
  unfold closeRun
  split
  · exact ⟨_, rfl, rfl, rfl, rfl, rfl, rfl, rfl⟩
  · exact .refl s

theorem scanPixel_scanned {a : Axis} {thr : Byte} {l x : Int} (h : scanPixel a thr l s x = .ok t) :
    Scanned s t := by
  unfold scanPixel at h
  cases hp : fbRead (pixelOf a l x).1 (pixelOf a l x).2 s with
  | error r => rw [hp] at h; cases h
  | ok p =>
    rw [hp] at h
    simp only [Except.map] at h
    have h1 : Scanned s (s.scanAt a l x) := ⟨_, rfl, rfl, rfl, rfl, rfl, rfl, rfl⟩
    split at h <;> cases h
    · exact h1.trans ⟨_, rfl, rfl, rfl, rfl, rfl, rfl, rfl⟩
    · exact h1.trans ((closeRun_scanned a _ _).trans ⟨_, rfl, rfl, rfl, rfl, rfl, rfl, rfl⟩)

/-- A pass (R154, R155) changes scan registers and the box only. -/
theorem pass_scanned {a : Axis} {roi : Rect} {thr : Byte} (h : pass a roi thr s = .ok t) :
    Scanned s t := by
  unfold pass at h
  have h0 : Scanned s (s.withTr { s.tr with best := 0 }) := ⟨_, rfl, rfl, rfl, rfl, rfl, rfl, rfl⟩
  refine h0.trans (foldlM_scanned ?_ _ _ _ h)
  intro u l v hv
  unfold scanLine at hv
  have h1 : Scanned u ((u.lineAt a l).runTo 0) := by
    cases a <;> exact ⟨_, rfl, rfl, rfl, rfl, rfl, rfl, rfl⟩
  revert hv
  cases hm : (alongOf a roi).foldlM (scanPixel a thr l) ((u.lineAt a l).runTo 0) with
  | error r => intro hv; cases hv
  | ok w =>
    intro hv
    cases hv
    exact h1.trans ((foldlM_scanned (fun _ _ _ h => scanPixel_scanned h) _ _ _ hm).trans
      (closeRun_scanned a _ _))

/-- The overlay changes the frame buffer only, by stores through the accessor; the identity, nothing. -/
theorem overlay_eq (s : State) : ∃ m, overlay s = s.withFb m ∧
    (s.cfg.overlay = .identity → m = s.fb) ∧
    ∀ P : List Host.Cell → Prop, P s.fb →
      (∀ m row col v, P m → P (Memory.write m (pixAddr s.cfg row col) v)) → P m := by
  have hf : ∀ (l : List (Int × Int × Byte)) (u : State), ∃ m,
      l.foldl (fun t w => fbWrite w.1 w.2.1 w.2.2 t) u = u.withFb m ∧
      ∀ P : List Host.Cell → Prop, P u.fb →
        (∀ m row col v, P m → P (Memory.write m (pixAddr u.cfg row col) v)) → P m := by
    intro l
    induction l with
    | nil => intro u; exact ⟨u.fb, rfl, fun P h _ => h⟩
    | cons w l ih =>
      intro u
      obtain ⟨m, hm, hP⟩ := ih (fbWrite w.1 w.2.1 w.2.2 u)
      refine ⟨m, hm, fun P h k => hP P (k _ _ _ _ h) k⟩
  unfold overlay
  cases ho : s.cfg.overlay with
  | identity => exact ⟨s.fb, rfl, fun _ => rfl, fun P h _ => h⟩
  | debug =>
    obtain ⟨m, hm, hP⟩ := hf (Config.overlayWrites s.fb s.tr.box) s
    exact ⟨m, hm, by simp, hP⟩

/-- What a step of TR can do. Only the `Command` phase writes the actuators and the last positions, only
its end starts a capture, only the column pass of a debug overlay stores. -/
structure TrackerMoved (s t : State) : Prop where
  video : VideoMoved s t
  env : t.env = s.env
  grabber : t.fg = s.fg ∨ (s.tr.phase = .command ∧ t.fg.phase = .frameWaitA ∧ t.tr.phase = .capture)
  quiet : s.tr.phase ≠ .command → t.act = s.act ∧ t.tr.lastPan = s.tr.lastPan ∧
    t.tr.lastTilt = s.tr.lastTilt ∧ t.io = s.io
  commanded : s.tr.phase = .command → ∃ pe te lp lt, t.tr.lastPan = newPan s.cfg pe lp ∧
    t.tr.lastTilt = newTilt s.cfg te lt ∧ t.act = ⟨t.tr.lastPan, t.tr.lastTilt⟩ ∧
    t.io = s.io ++ [.actPan t.tr.lastPan, .actTilt t.tr.lastTilt]
  frame : ∀ P : List Host.Cell → Prop, P s.fb →
    (∀ m row col v, P m → P (Memory.write m (pixAddr s.cfg row col) v)) → P t.fb
  identity : s.cfg.overlay = .identity → t.fb = s.fb
  still : s.tr.phase ≠ .colPass → t.fb = s.fb

/-- A step that touches the scan registers of TR, its phase, and the port's results and `op.cur`. -/
theorem TrackerMoved.of_scan (hp : s.tr.phase ≠ .command) (hv : VideoMoved s t := by exact .of_eq)
    (hio : t.io = s.io := by rfl) (henv : t.env = s.env := by rfl) (hfg : t.fg = s.fg := by rfl)
    (hact : t.act = s.act := by rfl)
    (h1 : t.tr.lastPan = s.tr.lastPan := by rfl) (h2 : t.tr.lastTilt = s.tr.lastTilt := by rfl)
    (hfb : t.fb = s.fb := by rfl) : TrackerMoved s t where
  video := hv
  env := henv
  grabber := .inl hfg
  quiet := fun _ => ⟨hact, h1, h2, hio⟩
  commanded := fun h => absurd h hp
  frame := fun _ h _ => hfb ▸ h
  identity := fun _ => hfb
  still := fun _ => hfb

theorem Scanned.tracker {u : State} (h : Scanned s u)
    (k : ∀ x : Tr, x.lastPan = s.tr.lastPan → x.lastTilt = s.tr.lastTilt → u = s.withTr x →
      TrackerMoved s t) : TrackerMoved s t := by
  obtain ⟨x, hx, -, h1, h2, -⟩ := h
  exact k x h1 h2 hx

/-- `commandActuators` as one update (R157). -/
theorem commandActuators_eq (pe te : Int) (lp lt : Pos) (s : State) :
    commandActuators pe te lp lt s = { s with
      tr := { s.tr with lastPan := newPan s.cfg pe lp, lastTilt := newTilt s.cfg te lt }
      act := ⟨newPan s.cfg pe lp, newTilt s.cfg te lt⟩
      io := s.io ++ [.actPan (newPan s.cfg pe lp), .actTilt (newTilt s.cfg te lt)] } := by
  simp [commandActuators, actWrite, State.withTr, State.withAct, State.logged]

/-- A step of the TR sequencer. -/
theorem trTick_moved (h : trTick s = .ok (some t)) : TrackerMoved s t := by
  unfold trTick at h
  split at h <;> rename_i hp
  · cases h
  · cases h
    exact .of_scan (by simp [hp])
  · obtain ⟨u, hu, h⟩ := except_map_ok h
    cases h
    refine (updateThreshold_scanned hu).tracker ?_
    rintro x h1 h2 rfl
    split <;> exact .of_scan (by simp [hp]) (h1 := h1) (h2 := h2)
  · obtain ⟨u, hu, h⟩ := except_map_ok h
    cases h
    obtain ⟨x, rfl, -, h1, h2, -⟩ := pass_scanned hu
    have h3 : ∃ y : Tr, initBox (roiOf s.op.cur) s = s.withTr y ∧ y.lastPan = s.tr.lastPan ∧
        y.lastTilt = s.tr.lastTilt := by
      unfold initBox
      split
      · exact ⟨s.tr, rfl, rfl, rfl⟩
      · exact ⟨_, rfl, rfl, rfl⟩
    obtain ⟨y, hy, h4, h5⟩ := h3
    rw [hy] at h1 h2 ⊢
    exact .of_scan (by simp [hp]) (h1 := h1.trans h4) (h2 := h2.trans h5)
  · obtain ⟨u, hu, h⟩ := except_map_ok h
    cases h
    obtain ⟨x, rfl, -, h1, h2, -⟩ := pass_scanned hu
    obtain ⟨m, hm, hid, hP⟩ := overlay_eq (s.withTr x)
    rw [hm]
    have key : ∀ v : State, VideoMoved s v → v.env = s.env → v.fg = s.fg → v.act = s.act →
        v.tr.lastPan = x.lastPan → v.tr.lastTilt = x.lastTilt → v.io = s.io → v.fb = m →
        TrackerMoved s v := fun v a1 a2 a3 a4 a5 a6 a7 a8 =>
      { video := a1
        env := a2
        grabber := .inl a3
        quiet := fun _ => ⟨a4, a5.trans h1, a6.trans h2, a7⟩
        commanded := fun hc => by rw [hp] at hc; cases hc
        frame := fun P hs k => a8 ▸ hP P hs k
        identity := fun hi => a8.trans (hid hi)
        still := fun hn => absurd hp hn }
    split <;> exact key _ .of_eq rfl rfl rfl rfl rfl rfl rfl
  · cases h
    split <;> exact .of_scan (by simp [hp])
  · cases h
    obtain ⟨pe, te, lp, lt, hc⟩ : ∃ pe te lp lt, commandPhase s = commandActuators pe te lp lt s := by
      unfold commandPhase
      split <;> exact ⟨_, _, _, _, rfl⟩
    rw [hc, commandActuators_eq]
    obtain ⟨np, hnp⟩ : ∃ x, x = newPan s.cfg pe lp := ⟨_, rfl⟩
    obtain ⟨nt, hnt⟩ : ∃ x, x = newTilt s.cfg te lt := ⟨_, rfl⟩
    rw [← hnp, ← hnt]
    have key : ∀ v : State, VideoMoved s v → v.env = s.env →
        (v.fg = s.fg ∨ (v.fg.phase = .frameWaitA ∧ v.tr.phase = .capture)) →
        v.tr.lastPan = np → v.tr.lastTilt = nt → v.act = ⟨np, nt⟩ →
        v.io = s.io ++ [.actPan np, .actTilt nt] → v.fb = s.fb →
        TrackerMoved s v := fun v a1 a2 a3 a4 a5 a6 a7 a8 =>
      { video := a1
        env := a2
        grabber := a3.imp_right fun h => ⟨hp, h⟩
        quiet := fun hn => absurd hp hn
        commanded := fun _ => ⟨pe, te, lp, lt, a4.trans hnp, a5.trans hnt, by rw [a4, a5, a6], by rw [a4, a5, a7]⟩
        frame := fun P hs _ => a8 ▸ hs
        identity := fun _ => a8
        still := fun _ => a8 }
    have hv : ∀ v : State, Around s v → SameBus s v → v.io = s.io ++ [.actPan np, .actTilt nt] →
        VideoMoved s v := fun v a b c => ⟨a, b, _, c⟩
    unfold afterCommand
    split
    · exact key _ (hv _ (by constructor <;> rfl) (by constructor <;> rfl) rfl) rfl (.inl rfl) rfl rfl
        rfl rfl rfl
    · exact key _ (hv _ (by constructor <;> rfl) (by constructor <;> rfl) rfl) rfl
        (.inr ⟨rfl, rfl⟩) rfl rfl rfl rfl rfl
    · exact key _ (hv _ (by constructor <;> rfl) (by constructor <;> rfl) rfl) rfl (.inl rfl) rfl rfl
        rfl rfl rfl

/-- Where a step of TR goes: on with the same operation, or to its end, which tracking does not have
(R158, R159). -/
theorem trTick_flow (h : trTick s = .ok (some t)) :
    (t.op.cur = s.op.cur ∧ t.tr.phase ≠ .idle ∧
      (isCycle s.op.cur = false → (s.tr.phase = .capture ∧ t.tr.phase = .threshold) ∨
        (s.tr.phase = .rowPass ∧ t.tr.phase = .colPass))) ∨
    (t.op.cur = none ∧ t.tr.phase = .idle ∧ ∀ roi, s.op.cur ≠ some (.trTrack roi)) := by
  have ends : isCycle s.op.cur = false → ∀ roi, s.op.cur ≠ some (.trTrack roi) := by
    intro h roi hr
    simp [hr, isCycle] at h
  unfold trTick at h
  split at h
  · cases h
  · cases h
    exact .inl ⟨rfl, by simp [State.trTo], fun _ => .inl ⟨by assumption, rfl⟩⟩
  · obtain ⟨u, hu, h⟩ := except_map_ok h
    cases h
    obtain ⟨x, rfl, -⟩ := updateThreshold_scanned hu
    split <;> rename_i hc
    · exact .inl ⟨rfl, by simp [State.trTo], fun h => by simp [h] at hc⟩
    · exact .inr ⟨rfl, rfl, ends (by simpa using hc)⟩
  · obtain ⟨u, hu, h⟩ := except_map_ok h
    cases h
    obtain ⟨x, rfl, -⟩ := pass_scanned hu
    have : (initBox (roiOf s.op.cur) s).op = s.op := by unfold initBox; split <;> rfl
    exact .inl ⟨by simp [State.trTo, this], by simp [State.trTo],
      fun _ => .inr ⟨by assumption, rfl⟩⟩
  · obtain ⟨u, hu, h⟩ := except_map_ok h
    cases h
    obtain ⟨x, rfl, -⟩ := pass_scanned hu
    obtain ⟨m, hm, -⟩ := overlay_eq (s.withTr x)
    rw [hm]
    split <;> rename_i hc
    · exact .inl ⟨rfl, by simp [State.trTo], fun h => by simp [h] at hc⟩
    · exact .inr ⟨rfl, rfl, ends (by simpa using hc)⟩
  · cases h
    split <;> rename_i hc
    · exact .inl ⟨rfl, by simp [State.trTo], fun h => by
        rw [show (computeError (errorArgs s).1 (errorArgs s).2 s).op = s.op from rfl] at hc
        simp [h] at hc⟩
    · exact .inr ⟨rfl, rfl, ends (Bool.eq_false_of_not_eq_true hc)⟩
  · cases h
    have hc : (commandPhase s).op = s.op := by unfold commandPhase; split <;> rfl
    unfold afterCommand
    rw [hc]
    split <;> rename_i ho
    · exact .inr ⟨rfl, rfl, by simp [ho]⟩
    · exact .inl ⟨by rw [← hc]; rfl, by simp [startCycle, State.trTo], fun h => by simp [ho, isCycle] at h⟩
    · exact .inr ⟨rfl, rfl, ho⟩

/-- The operation a step of FG serves stays, unless the capture was an operation of its own (R158). -/
theorem fgTick_flow (h : fgTick s = some t) :
    t.op.cur = s.op.cur ∨ (s.tr.phase ≠ .capture ∧ t.op.cur = none) := by
  have poll : ∀ {bit level} {next : State → State}, pollLevel bit level next s = some t →
      (∀ u, (next u).op = u.op) → t.op = s.op := by
    intro bit level next h hn
    obtain ⟨x, hx, rfl⟩ := Option.map_eq_some_iff.1 h
    unfold readFgStatus at hx
    split at hx
    · cases hx
    · cases hx
      split
      · exact hn _
      · rfl
  have col : ∀ (n : Nat) (u : State), (enterCol n u).op = u.op := fun n u => (enterCol_moved n u).2.2.1
  unfold fgTick at h
  split at h
  · cases h
  · exact .inl (by rw [poll h fun _ => rfl])
  · exact .inl (by rw [poll h fun _ => rfl])
  · exact .inl (by rw [poll h fun _ => rfl])
  · exact .inl (by rw [poll h (col 0)])
  · exact .inl (by rw [poll h fun _ => rfl])
  · exact .inl (by rw [poll h fun _ => rfl])
  · cases h
    left
    rw [col]
    split
    · unfold sampleAndStore readFgPixel
      split <;> rfl
    · rfl
  · cases h
    unfold captureDone
    simp only
    split
    · exact .inl rfl
    · exact .inr ⟨by assumption, rfl⟩

end Sys2Proof.Machine
end

