-- ==== Sys2Proof/Laws/Step.lean ====
section
/-! SUPPORT. What one step, and one instruction, can do: by which path it answers a next state, and the
principle an invariant of every step goes through (R7, R28). -/

namespace Sys2Proof.Machine

variable {s t : State} {i : Instr}

/-- What a tick can do, by agent. -/
theorem tick_moved (h : tick s = .ok (some t)) :
    (s.bus.inflight ≠ none ∧ BusMoved s t ∧ t.bm = s.bm ∧ t.op = s.op ∧ t.bus.inflight = none ∧
      t.bus.tip = false) ∨
    (s.bus.inflight = none ∧ s.bm.phase ≠ .idle ∧ BusMoved s t ∧
      ((∃ c, c.moves = true ∧ t.bus.inflight = some c ∧ t.bus.tip = true ∧
          (t.bm.phase = .addrWait ∨ t.bm.phase = .dataWait)) ∨
        (t.bus.inflight = none ∧ t.bus.tip = s.bus.tip))) ∨
    (s.bus.inflight = none ∧ s.bm.phase = .idle ∧ s.fg.phase ≠ .idle ∧ GrabberMoved s t ∧
      (t.fb = s.fb ∨ ∃ row col v, t.fb = Memory.write s.fb (pixAddr s.cfg row col) v)) ∨
    (s.bus.inflight = none ∧ s.bm.phase = .idle ∧ s.fg.phase = .idle ∧ TrackerMoved s t) := by
  rcases tick_cases s with ⟨hi, hk⟩ | ⟨hi, hb, hk⟩ | ⟨hi, hb, hf, hk⟩ | ⟨hi, hb, hf, hk⟩ <;>
    rw [hk] at h
  · obtain ⟨h1, h2, h3, -, h5, h6⟩ := coreTick_moved (Except.ok.inj h)
    exact .inl ⟨hi, h1, h2, h3, h5, h6⟩
  · obtain ⟨h1, h2⟩ := bmTick_moved h hi
    exact .inr (.inl ⟨hi, hb, h1, h2⟩)
  · obtain ⟨h1, h2⟩ := fgTick_moved (Except.ok.inj h)
    exact .inr (.inr (.inl ⟨hi, hb, hf, h1, h2⟩))
  · exact .inr (.inr (.inr ⟨hi, hb, hf, trTick_moved h⟩))

/-- Every tick leaves the configuration, the request and the host's moves, and lets the traces grow. -/
theorem tick_around (h : tick s = .ok (some t)) : Around s t ∧ Grows s t := by
  rcases tick_moved h with ⟨-, h, -⟩ | ⟨-, -, h, -⟩ | ⟨-, -, -, h, -⟩ | ⟨-, -, -, h⟩
  · exact ⟨h.around, h.grows⟩
  · exact ⟨h.around, h.grows⟩
  · exact ⟨h.video.around, h.video.all_grow⟩
  · exact ⟨h.video.around, h.video.all_grow⟩

/-! Which path an instruction takes. -/

theorem accept_next {start : State → State} (h : accept i start s = .next t) :
    s.busy = false ∧ resume (start (s.withOp { s.op with cur := some i })) = .next t := by
  unfold accept at h
  split at h
  · cases h
  · exact ⟨by simpa using ‹¬ s.busy = true›, h⟩

theorem acceptBus_next {start : State → State} (h : acceptBus i start s = .next t) :
    s.busy = false ∧ s.bm.inited = true ∧
      resume (start (s.withOp { s.op with cur := some i })) = .next t := by
  unfold acceptBus at h
  split at h
  · cases h
  · split at h
    · cases h
    · exact ⟨by simpa using ‹¬ s.busy = true›, by simpa using ‹¬ s.bm.inited = false›, h⟩

/-- An idle block has every sequencer in its idle phase. -/
theorem busy_false_iff : s.busy = false ↔
    s.bm.phase = .idle ∧ s.fg.phase = .idle ∧ s.tr.phase = .idle := by
  simp [State.busy, and_assoc]

/-- The machine `BM_INIT` leaves (R90). -/
theorem initBus_eq (v : Byte) (s : State) : initBus v s = .ok { s with
    bm := { s.bm with slaveAddr := v, inited := true }
    bus := { s.bus with
      divLo := s.cfg.clkDiv.extractLsb' 0 8, divHi := s.cfg.clkDiv.extractLsb' 8 8, ctrl := 0x80 }
    io := s.io ++ [.divLo (s.cfg.clkDiv.extractLsb' 0 8), .divHi (s.cfg.clkDiv.extractLsb' 8 8),
      .ctrl 0x80] } := by
  simp [initBus, ioWrite, bind, Except.bind, pure, Except.pure, State.withBus, State.withBm, State.logged]

/-- How the sequencer of an operation is started. -/
inductive Started : Instr → (State → State) → Prop where
  | xfer (d stop a : Bool) (x : Byte) : Started (.bmXfer d stop a x) (startXfer .none d stop a x)
  | regwr (sub val : Byte) : Started (.bmRegwr sub val) (startXfer .first false false true sub)
  | regrd (sub : Byte) : Started (.bmRegrd sub) (startXfer .first false false true sub)
  | capture : Started .fgCapture startCapture
  | threshold (roi : Rect) : Started (.trUpdthr roi) fun u => u.trTo .threshold
  | locate (roi : Rect) (thr : Byte) : Started (.trLocate roi thr) fun u => u.trTo .rowPass
  | error (box : Rect) (c : Point) : Started (.trError box c) fun u => u.trTo .error
  | command (pe te : Int) (lp lt : Pos) : Started (.trCommand pe te lp lt) fun u => u.trTo .command
  | snapshot (roi : Rect) : Started (.trSnapshot roi) startCycle
  | track (roi : Rect) : Started (.trTrack roi) startCycle

/-- How a request of the host answers a next state: the operation's sequencer is started from the idle
block and runs; or one of the operations without a sequencer has acted. -/
inductive Served (i : Instr) (s t : State) : Prop where
  | ran (start : State → State) (idle : s.busy = false)
      (how : Started i start)
      (run : resume (start (s.withOp { s.op with cur := some i })) = .next t)
  | inited (v : Byte) (what : i = .bmInit v) (idle : s.busy = false) (bus : s.bus.busOpen = false)
      (eq : initBus v s = .ok t)
  | loaded (row col : Int) (v : Byte) (what : i = .fbRdpix row col) (idle : s.busy = false)
      (eq : t = s.results { s.op.res with val := v })
  | stored (row col : Int) (v : Byte) (what : i = .fbWrpix row col v) (idle : s.busy = false)
      (eq : t = fbWrite row col v s)
  | reset (what : i = .blkReset) (eq : t = blockReset s)

/-- How an instruction answers a next state. -/
theorem exec_next (h : exec i s = .next t) :
    Served i s t ∨ (∃ c : Cmd, i = c.instr ∧ busCommand c s = .next t) ∨
      ∃ addr d, i = .addrByte addr d ∧ ioWrite .data (addrWord addr d) s = .ok t := by
  cases i with
  | bmInit v =>
    left
    simp only [exec, execBmInit] at h
    split at h
    · cases h
    · split at h
      · cases h
      · rename_i h1 h2
        rw [initBus_eq] at h
        cases h
        exact .inited v rfl (by simpa using h1) (by simpa using h2) (initBus_eq v s)
  | bmXfer d stop a x =>
    obtain ⟨h1, -, h2⟩ := acceptBus_next h
    exact .inl (.ran _ h1 (.xfer _ _ _ _) h2)
  | bmRegwr sub val =>
    obtain ⟨h1, -, h2⟩ := acceptBus_next h
    exact .inl (.ran _ h1 (.regwr _ _) h2)
  | bmRegrd sub =>
    obtain ⟨h1, -, h2⟩ := acceptBus_next h
    exact .inl (.ran _ h1 (.regrd _) h2)
  | fgCapture =>
    obtain ⟨h1, h2⟩ := accept_next h
    exact .inl (.ran _ h1 .capture h2)
  | fbRdpix row col =>
    simp only [exec, execFbRdpix] at h
    split at h
    · cases h
    · rename_i h1
      split at h <;> cases h
      exact .inl (.loaded row col _ rfl (by simpa using h1) rfl)
  | fbWrpix row col v =>
    simp only [exec, execFbWrpix] at h
    split at h
    · cases h
    · rename_i h1
      cases h
      exact .inl (.stored row col v rfl (by simpa using h1) rfl)
  | trUpdthr roi =>
    obtain ⟨h1, h2⟩ := accept_next h
    exact .inl (.ran _ h1 (.threshold _) h2)
  | trLocate roi thr =>
    obtain ⟨h1, h2⟩ := accept_next h
    exact .inl (.ran _ h1 (.locate _ _) h2)
  | trError box c =>
    obtain ⟨h1, h2⟩ := accept_next h
    exact .inl (.ran _ h1 (.error _ _) h2)
  | trCommand pe te lp lt =>
    obtain ⟨h1, h2⟩ := accept_next h
    exact .inl (.ran _ h1 (.command _ _ _ _) h2)
  | trSnapshot roi =>
    obtain ⟨h1, h2⟩ := accept_next h
    exact .inl (.ran _ h1 (.snapshot _) h2)
  | trTrack roi =>
    obtain ⟨h1, h2⟩ := accept_next h
    exact .inl (.ran _ h1 (.track _) h2)
  | blkReset => cases h; exact .inl (.reset rfl rfl)
  | cStaWr => exact .inr (.inl ⟨.staWr, rfl, h⟩)
  | cWr => exact .inr (.inl ⟨.wr, rfl, h⟩)
  | cWrSto => exact .inr (.inl ⟨.wrSto, rfl, h⟩)
  | cRd => exact .inr (.inl ⟨.rd, rfl, h⟩)
  | cRdNackSto => exact .inr (.inl ⟨.rdNackSto, rfl, h⟩)
  | cSto => exact .inr (.inl ⟨.sto, rfl, h⟩)
  | cRdNack => exact .inr (.inl ⟨.rdNack, rfl, h⟩)
  | cRdSto => exact .inr (.inl ⟨.rdSto, rfl, h⟩)
  | addrByte addr d =>
    refine .inr (.inr ⟨addr, d, rfl, ?_⟩)
    simp only [exec, execAddrByte] at h
    split at h <;> cases h
    assumption

/-- Every operation word decodes to an operation of the host. -/
theorem decodeOperation_host {w : Byte} {x : Operands} (h : decodeOperation w x = .ok i) :
    (∀ c : Cmd, i ≠ c.instr) ∧ ∀ addr d, i ≠ .addrByte addr d := by
  have plain : ∀ {f : BitVec 4} {j : Instr}, plainOp f j = .ok i → j = i := by
    intro f j h
    unfold plainOp at h
    split at h <;> cases h
    rfl
  unfold decodeOperation at h
  simp only at h
  split at h
  case h_2 =>
    split at h <;> cases h
    exact ⟨fun c => by cases c <;> simp [Cmd.instr], by simp⟩
  case h_15 => cases h
  all_goals
    cases plain h
    exact ⟨fun c => by cases c <;> simp [Cmd.instr], by simp⟩

/-- Which way a step goes: it serves a request, or the host moves, or the block runs on. -/
theorem step_next (h : step s = .next t) :
    (s.op.strobe = true ∧ ∃ i, decode (portPacket s) = .ok i ∧ Served i (clearStrobe s) t) ∨
    (s.op.strobe = false ∧ ∃ m rest, s.env.host = m :: rest ∧ moveLands m s = true ∧
      t = hostMove m rest s) ∨
    (s.op.strobe = false ∧ resume s = .next t) := by
  unfold step at h
  split at h
  · rename_i hs
    left
    refine ⟨hs, ?_⟩
    split at h
    · rename_i i hd
      refine ⟨i, hd, ?_⟩
      obtain ⟨h1, h2⟩ := decodeOperation_host (show decodeOperation s.op.word s.op.args = .ok i from hd)
      rcases exec_next h with h | ⟨c, hc, -⟩ | ⟨a, d, ha, -⟩
      · exact h
      · exact absurd hc (h1 c)
      · exact absurd ha (h2 a d)
    · cases h
  · rename_i hs
    have hs : s.op.strobe = false := by simpa using hs
    right
    unfold runOn at h
    split at h
    · exact .inr ⟨hs, h⟩
    · rename_i m rest hm
      split at h
      · cases h
        exact .inl ⟨hs, m, rest, hm, by assumption, rfl⟩
      · exact .inr ⟨hs, h⟩

/-- With no request on the port and no move of the host that lands, the block runs on. -/
theorem step_runs (hs : s.op.strobe = false) (hh : HostWaits s) : step s = resume s := by
  unfold step runOn
  rw [if_neg (by simp [hs])]
  split
  · rfl
  · rename_i m rest hm
    rw [if_neg (by simp [hh m rest hm])]

/-- What holds of every step, of a property that the port's registers and the environment do not touch:
each thing a step is made of keeps it. -/
theorem step_keeps (P : State → Prop)
    (quiet : ∀ s op env, P s → P { s with op := op, env := env })
    (hticks : ∀ s t, P s → tick s = .ok (some t) → P t)
    (xfer : ∀ s sub d stop a x, s.busy = false → P s → P (startXfer sub d stop a x s))
    (capture : ∀ s, s.busy = false → P s → P (startCapture s))
    (cycle : ∀ s, s.busy = false → P s → P (startCycle s))
    (tracker : ∀ s p, p ≠ TrPhase.capture → p ≠ .idle → s.busy = false → P s → P (s.trTo p))
    (init : ∀ s t v, s.busy = false → P s → initBus v s = .ok t → P t)
    (store : ∀ s row col v, P s → P (fbWrite row col v s))
    (reset : ∀ s, P s → P (blockReset s))
    (h : P s) (hst : step s = .next t) : P t := by
  have run : ∀ u, P u → resume u = .next t → P t := fun u hu hr =>
    resume_keeps P hticks (fun v l hv => quiet v v.op _ hv) hu hr
  rcases step_next hst with ⟨-, i, -, hs⟩ | ⟨-, m, rest, -, -, rfl⟩ | ⟨-, hr⟩
  · have h0 : P (clearStrobe s) := quiet s _ s.env h
    cases hs with
    | ran start idle how hr =>
      refine run _ ?_ hr
      have h1 : P ((clearStrobe s).withOp { (clearStrobe s).op with cur := some i }) :=
        quiet _ _ (clearStrobe s).env h0
      cases how with
      | xfer => exact xfer _ _ _ _ _ _ idle h1
      | regwr => exact xfer _ _ _ _ _ _ idle h1
      | regrd => exact xfer _ _ _ _ _ _ idle h1
      | capture => exact capture _ idle h1
      | threshold => exact tracker _ _ (by simp) (by simp) idle h1
      | locate => exact tracker _ _ (by simp) (by simp) idle h1
      | error => exact tracker _ _ (by simp) (by simp) idle h1
      | command => exact tracker _ _ (by simp) (by simp) idle h1
      | snapshot => exact cycle _ idle h1
      | track => exact cycle _ idle h1
    | inited v _ idle _ eq => exact init _ _ v idle h0 eq
    | loaded row col v _ idle eq => subst eq; exact quiet _ _ (clearStrobe s).env h0
    | stored row col v _ idle eq => subst eq; exact store _ _ _ _ h0
    | reset _ eq => subst eq; exact reset _ h0
  · cases m with
    | resetInput => exact reset _ (quiet s s.op _ h)
    | request early w x => exact quiet s _ _ h
  · exact run s h hr

end Sys2Proof.Machine
end

