-- ==== Sys2Proof/Laws/Measure.lean ====
section
/-! SUPPORT. The measure of a run: every tick lowers it, and it is below the steps that `resume` gives an
uncounted run (log 6). -/

namespace Sys2Proof.Machine

variable {s t : State}

/-- Ticks a transfer can still take from a phase of BM. -/
def BmPhase.weight : BmPhase → Nat
  | .idle => 0
  | .fail => 1
  | .dataCheck => 2
  | .dataWait => 3
  | .dataIssue => 5
  | .dataLoad => 6
  | .addrCheck => 7
  | .addrWait => 8
  | .addrIssue => 10
  | .addrLoad => 11

/-- The second transfer of a register-level operation is still to come. -/
def BmSub.weight : BmSub → Nat
  | .first => 12
  | _ => 0

/-- Ticks FG can take from a phase without a read of the sensor. -/
def FgPhase.weight : FgPhase → Nat
  | .idle => 0
  | .frameWaitA => 0
  | .done => 7
  | .sample => 8
  | _ => 3

/-- Ticks TR can take from a phase, up to the next capture. -/
def TrPhase.weight : TrPhase → Nat
  | .idle => 0
  | .capture => 6
  | .threshold => 5
  | .rowPass => 4
  | .colPass => 3
  | .error => 2
  | .command => 1

/-- TR waits for a capture that is running: nothing of it counts before the capture ends. -/
def trWeight (s : State) : Nat :=
  if s.fg.phase ≠ .idle ∧ s.tr.phase = .capture then 0 else s.tr.phase.weight

/-- The measure: the command in flight, BM, FG, TR, and six for each answer the sensor has still to give. -/
def remaining (s : State) : Nat :=
  (if s.bus.inflight = none then 0 else 1) + (s.bm.phase.weight +
    if s.bm.phase = .idle then 0 else s.bm.sub.weight) + s.fg.phase.weight + trWeight s
    + 6 * s.env.status.length

/-- It is below the steps of an uncounted run. -/
theorem remaining_lt (s : State) : remaining s < ampleSteps s := by
  have h1 : s.bm.phase.weight ≤ 11 := by cases s.bm.phase <;> simp [BmPhase.weight]
  have h2 : s.bm.sub.weight ≤ 12 := by cases s.bm.sub <;> simp [BmSub.weight]
  have h3 : s.fg.phase.weight ≤ 8 := by cases s.fg.phase <;> simp [FgPhase.weight]
  have h4 : trWeight s ≤ 6 := by
    unfold trWeight
    split
    · omega
    · cases s.tr.phase <;> simp [TrPhase.weight]
  unfold remaining ampleSteps
  split <;> split <;> omega

/-- Ticks BM can still take. -/
def bmWeight (b : Bm) : Nat := b.phase.weight + if b.phase = .idle then 0 else b.sub.weight

/-- The return of a transfer: done, or the second transfer. -/
theorem bmReturn_weight (s : State) :
    bmWeight (bmReturn s).bm ≤ 11 ∧
      (s.bm.sub ≠ .first → s.bm.phase = .idle → bmWeight (bmReturn s).bm = 0) := by
  have fin : ∀ u : State, (bmFinish u).bm = u.bm := fun u => (bmFinish_moved u).2.1
  have h0 : bmWeight s.subNone.bm ≤ 11 := by
    unfold bmWeight
    cases h : s.bm.phase <;> simp [State.subNone, h, BmPhase.weight, BmSub.weight]
  unfold bmReturn
  split
  · rename_i hs
    refine ⟨?_, fun h => absurd hs h⟩
    split
    · split
      · simp [startXfer, firstPhase, bmWeight, BmPhase.weight, BmSub.weight]
      · simp [startXfer, firstPhase, bmWeight, BmPhase.weight, BmSub.weight]
      · rw [fin]; exact h0
    · rw [fin]; exact h0
  · rw [fin]
    exact ⟨h0, fun _ hp => by simp [bmWeight, State.subNone, hp, BmPhase.weight]⟩

/-- Every step of BM lowers its weight, by two where it gives the core a command. -/
theorem bmTick_weight (h : bmTick s = .ok (some t)) (hi : s.bus.inflight = none) :
    bmWeight t.bm + (if t.bus.inflight = none then 0 else 1) < bmWeight s.bm := by
  have goes : ∀ (u : State) (p : BmPhase), u.bm.sub = s.bm.sub → p ≠ .idle →
      s.bm.phase ≠ .idle → bmWeight (u.bmTo p).bm = p.weight + s.bm.sub.weight := by
    intro u p h1 h2 h3
    simp [State.bmTo, bmWeight, h1, h2]
  have done : ∀ u : State, u.bm.sub = s.bm.sub → u.bm.phase = .idle → u.bus.inflight = none →
      s.bm.phase ≠ .idle → s.bm.phase.weight ≤ 2 → 1 ≤ s.bm.phase.weight →
      bmWeight (bmReturn u).bm + (if (bmReturn u).bus.inflight = none then 0 else 1)
        < bmWeight s.bm := by
    intro u h1 h2 h3 h4 h5 h6
    rw [(bmReturn_moved u).2, h3]
    obtain ⟨k1, k2⟩ := bmReturn_weight u
    have : bmWeight s.bm = s.bm.phase.weight + s.bm.sub.weight := by simp [bmWeight, h4]
    rw [this]
    by_cases hs : s.bm.sub = .first
    · rw [hs] at *
      simp only [if_true, BmSub.weight]
      omega
    · rw [k2 (by rw [h1]; exact hs) h2]
      simp only [if_true]
      omega
  have data : ∀ (b : Byte) (p : BmPhase), p ≠ .idle → s.bm.phase ≠ .idle →
      p.weight < s.bm.phase.weight →
      (ioWrite .data b s).map (fun u => some (u.bmTo p)) = .ok (some t) →
      bmWeight t.bm + (if t.bus.inflight = none then 0 else 1) < bmWeight s.bm := by
    intro b p h1 h2 h3 h
    obtain ⟨u, hu, h⟩ := except_map_ok h
    cases h
    obtain ⟨-, rfl⟩ := ioWrite_data_moved hu
    refine lt_of_eq_of_lt (congrArg₂ (· + ·) (goes _ p rfl h1 h2) (if_pos hi)) ?_
    simp only [bmWeight, h2, if_false]
    omega
  have cmd : ∀ (c : Cmd) (p : BmPhase), p ≠ .idle → s.bm.phase ≠ .idle →
      p.weight + 1 < s.bm.phase.weight →
      (ioWrite .cmdStatus c.byte s).map (fun u => some (u.bmTo p)) = .ok (some t) →
      bmWeight t.bm + (if t.bus.inflight = none then 0 else 1) < bmWeight s.bm := by
    intro c p h1 h2 h3 h
    obtain ⟨u, hu, h⟩ := except_map_ok h
    cases h
    rw [ioWrite_cmd] at hu
    obtain ⟨-, k2, -⟩ := cmdWrite_moved hu
    rw [goes _ _ (by rw [k2]) h1 h2]
    simp only [bmWeight, h2, if_false]
    split <;> omega
  have keep : ∀ (u : State) (p : BmPhase), u.bm = s.bm → u.bus = s.bus → p ≠ .idle →
      s.bm.phase ≠ .idle → p.weight < s.bm.phase.weight →
      bmWeight (u.bmTo p).bm + (if (u.bmTo p).bus.inflight = none then 0 else 1)
        < bmWeight s.bm := by
    intro u p h1 h2 h3 h4 h5
    rw [goes _ _ (by rw [h1]) h3 h4, show (u.bmTo p).bus = s.bus from h2, hi]
    simp only [bmWeight, h4, if_false, if_true]
    omega
  unfold bmTick at h
  split at h <;> rename_i hp
  · cases h
  · exact data _ _ (by simp) (by simp [hp]) (by simp [hp, BmPhase.weight]) h
  · exact cmd .staWr _ (by simp) (by simp [hp]) (by simp [hp, BmPhase.weight]) h
  · split at h <;> cases h
    exact keep _ _ rfl rfl (by simp) (by simp [hp]) (by simp [hp, BmPhase.weight])
  · cases h
    split
    · exact keep _ _ rfl rfl (by simp) (by simp [hp]) (by simp [hp, BmPhase.weight])
    · split <;> exact keep _ _ rfl rfl (by simp) (by simp [hp]) (by simp [hp, BmPhase.weight])
  · exact data _ _ (by simp) (by simp [hp]) (by simp [hp, BmPhase.weight]) h
  · unfold dataIssue at h
    split at h
    · cases h
    · exact cmd _ _ (by simp) (by simp [hp]) (by simp [hp, BmPhase.weight]) h
  · split at h <;> cases h
    exact keep _ _ rfl rfl (by simp) (by simp [hp]) (by simp [hp, BmPhase.weight])
  · cases h
    split
    · exact done _ rfl rfl hi (by simp [hp]) (by simp [hp, BmPhase.weight])
        (by simp [hp, BmPhase.weight])
    · split
      · exact keep _ _ rfl rfl (by simp) (by simp [hp]) (by simp [hp, BmPhase.weight])
      · exact done _ rfl rfl hi (by simp [hp]) (by simp [hp, BmPhase.weight])
          (by simp [hp, BmPhase.weight])
  · obtain ⟨u, hu, h⟩ := except_map_ok h
    cases h
    have hs : ioWrite .cmdStatus 0x40 s = cmdWrite .sto s := ioWrite_cmd .sto s
    rw [failStop, hs] at hu
    obtain ⟨v, hv, rfl⟩ := except_map_ok hu
    obtain ⟨-, k2, -, -, k5⟩ := cmdWrite_moved hv
    refine done _ (by simp [k2]) rfl ?_ (by simp [hp]) (by simp [hp, BmPhase.weight])
      (by simp [hp, BmPhase.weight])
    rcases k5 with ⟨a, -⟩ | ⟨a, -⟩
    · cases a
    · exact a.trans hi

/-- FG spends an answer of the sensor, or goes nearer to its next read. -/
theorem fgTick_weight (h : fgTick s = some t) :
    t.fg.phase.weight + 6 * t.env.status.length < s.fg.phase.weight + 6 * s.env.status.length ∧
      (t.fg.phase = .idle → 7 + 6 * t.env.status.length ≤ s.fg.phase.weight + 6 * s.env.status.length) := by
  have low : ∀ (n : Nat) (u : State), (enterRow n u).fg.phase.weight ≤ 7 ∧
      (enterRow n u).fg.phase ≠ .idle := by
    intro n u
    unfold enterRow
    simp only [State.withFg_fg]
    split <;> simp [FgPhase.weight]
  have lowc : ∀ (n : Nat) (u : State), (enterCol n u).fg.phase.weight ≤ 7 ∧
      (enterCol n u).fg.phase ≠ .idle := by
    intro n u
    unfold enterCol
    split
    · simp [FgPhase.weight]
    · exact low _ _
  have poll : ∀ {bit level} {next : State → State}, pollLevel bit level next s = some t →
      s.fg.phase ≠ .idle →
      (∀ u, (next u).fg.phase.weight < 6 + s.fg.phase.weight ∧ (next u).env = u.env ∧
        (next u).fg.phase ≠ .idle) →
      t.fg.phase.weight + 6 * t.env.status.length < s.fg.phase.weight + 6 * s.env.status.length ∧
      (t.fg.phase = .idle → 7 + 6 * t.env.status.length ≤ s.fg.phase.weight + 6 * s.env.status.length) := by
    intro bit level next h hp hn
    obtain ⟨x, hx, rfl⟩ := Option.map_eq_some_iff.1 h
    unfold readFgStatus at hx
    split at hx <;> rename_i hl
    · cases hx
    · cases hx
      split
      · refine ⟨?_, fun hi => absurd hi (hn _).2.2⟩
        refine lt_of_lt_of_le (Nat.add_lt_add_right (hn _).1 _) ?_
        rw [(hn _).2.1, hl]
        simp only [State.withEnv_env, List.length_cons]
        omega
      · refine ⟨?_, fun hi => absurd hi hp⟩
        rw [hl]
        simp only [State.withEnv_env, State.withEnv_fg, List.length_cons]
        omega
  unfold fgTick at h
  split at h <;> rename_i hp
  · cases h
  · exact poll h (by simp [hp]) fun u => by simp [hp, State.fgTo, FgPhase.weight]
  · exact poll h (by simp [hp]) fun u =>
      ⟨by have := (low 0 u).1; rw [hp]; exact lt_of_le_of_lt this (by decide), rfl, (low 0 u).2⟩
  · exact poll h (by simp [hp]) fun u => by simp [hp, State.fgTo, FgPhase.weight]
  · exact poll h (by simp [hp]) fun u =>
      ⟨by have := (lowc 0 u).1; rw [hp]; exact lt_of_le_of_lt this (by decide), (enterCol_moved 0 u).2.2.2,
        (lowc 0 u).2⟩
  · exact poll h (by simp [hp]) fun u => by simp [hp, State.fgTo, FgPhase.weight]
  · exact poll h (by simp [hp]) fun u => by simp [hp, State.fgTo, FgPhase.weight]
  · cases h
    refine ⟨?_, fun hi => absurd hi (lowc _ _).2⟩
    rw [(enterCol_moved _ _).2.2.2]
    have h1 := (lowc (s.fg.c + 1) (if kept s.cfg s.fg.r s.fg.c then sampleAndStore s else s)).1
    have h2 : (if kept s.cfg s.fg.r s.fg.c then sampleAndStore s else s).env.status
        = s.env.status := by
      split
      · unfold sampleAndStore readFgPixel
        split <;> rfl
      · rfl
    rw [h2, hp]
    exact Nat.add_lt_add_right (lt_of_le_of_lt h1 (by decide)) _
  · cases h
    unfold captureDone
    simp only
    split <;> simp [hp, FgPhase.weight]

/-- TR goes to a later phase, or to a capture. -/
theorem trTick_weight (h : trTick s = .ok (some t)) (hf : s.fg.phase = .idle) :
    t.fg.phase.weight + trWeight t < trWeight s := by
  have hs : trWeight s = s.tr.phase.weight := by simp [trWeight, hf]
  have le : ∀ u : State, u.fg.phase = .idle → u.tr.phase.weight < s.tr.phase.weight →
      u.fg.phase.weight + trWeight u < trWeight s := by
    intro u h1 h2
    rw [hs, h1]
    simpa [trWeight, h1, FgPhase.weight] using h2
  unfold trTick at h
  split at h <;> rename_i hp
  · cases h
  · cases h
    exact le _ hf (by simp [hp, State.trTo, TrPhase.weight])
  · obtain ⟨u, hu, h⟩ := except_map_ok h
    cases h
    obtain ⟨x, rfl, -⟩ := updateThreshold_scanned hu
    split <;> exact le _ hf (by simp [hp, State.trTo, trFinish, TrPhase.weight])
  · obtain ⟨u, hu, h⟩ := except_map_ok h
    cases h
    obtain ⟨x, rfl, -⟩ := pass_scanned hu
    refine le _ ?_ (by simp [hp, State.trTo, TrPhase.weight])
    unfold initBox
    split <;> exact hf
  · obtain ⟨u, hu, h⟩ := except_map_ok h
    cases h
    obtain ⟨x, rfl, -⟩ := pass_scanned hu
    obtain ⟨m, hm, -⟩ := overlay_eq (s.withTr x)
    rw [hm]
    split <;> exact le _ hf (by simp [hp, State.trTo, trFinish, TrPhase.weight])
  · cases h
    split <;> exact le _ hf (by simp [hp, State.trTo, trFinish, TrPhase.weight])
  · cases h
    have hc : (commandPhase s).fg = s.fg := by unfold commandPhase; split <;> rfl
    unfold afterCommand
    split
    · exact le _ (by simpa [trFinish, State.trTo, hc] using hf)
        (by simp [hp, State.trTo, trFinish, TrPhase.weight])
    · rw [hs, hp]
      simp [startCycle, startCapture, State.trTo, trWeight, FgPhase.weight, TrPhase.weight]
    · exact le _ (by simpa [trFinish, State.trTo, hc] using hf)
        (by simp [hp, State.trTo, trFinish, TrPhase.weight])

/-- Every tick lowers the measure. -/
theorem tick_remaining (h : tick s = .ok (some t)) : remaining t < remaining s := by
  have bm : ∀ u : State, (u.bm.phase.weight + if u.bm.phase = .idle then 0 else u.bm.sub.weight)
      = bmWeight u.bm := fun _ => rfl
  unfold remaining
  rw [bm, bm]
  rcases tick_cases s with ⟨hi, hk⟩ | ⟨hi, hb, hk⟩ | ⟨hi, hb, hf, hk⟩ | ⟨hi, hb, hf, hk⟩ <;>
    rw [hk] at h
  · obtain ⟨h1, h2, -, -, h5, -⟩ := coreTick_moved (Except.ok.inj h)
    have h6 : trWeight t = trWeight s := by simp [trWeight, h1.video.fg, h1.video.tr]
    rw [h2, h5, h6, h1.video.fg, h1.video.status, if_pos rfl, if_neg hi]
    omega
  · have h1 := (bmTick_moved h hi).1
    have h2 := bmTick_weight h hi
    have h6 : trWeight t = trWeight s := by simp [trWeight, h1.video.fg, h1.video.tr]
    rw [h6, h1.video.fg, h1.video.status, hi, if_pos rfl]
    omega
  · have h0 := Except.ok.inj h
    obtain ⟨h1, -⟩ := fgTick_moved h0
    obtain ⟨h2, h3⟩ := fgTick_weight h0
    have h4 : trWeight t ≤ trWeight s + 6 ∧ (t.fg.phase ≠ .idle → trWeight t = trWeight s) := by
      unfold trWeight
      rw [h1.tr]
      by_cases hc : s.tr.phase = .capture
      · simp only [hc, TrPhase.weight]
        by_cases ht : t.fg.phase = .idle <;> simp [ht, hf]
      · simp [hc]
    rw [h1.video.bus.bm, h1.video.bus.bus]
    by_cases ht : t.fg.phase = .idle
    · have := h3 ht
      have h5 : FgPhase.weight .idle = 0 := rfl
      rw [ht, h5]
      omega
    · rw [h4.2 ht]
      omega
  · have h1 := trTick_moved h
    have h2 := trTick_weight h hf
    have h3 : FgPhase.weight .idle = 0 := rfl
    rw [h1.video.bus.bm, h1.video.bus.bus, h1.env, hf, h3]
    omega

/-- A run in ticks takes no more of them than the measure allows. -/
theorem runTicks_remaining {k : Nat} (h : runTicks k s = some t) : k + remaining t ≤ remaining s := by
  induction k generalizing s with
  | zero => cases h; omega
  | succ k ih =>
    simp only [runTicks] at h
    split at h
    · rename_i u hu
      have h1 := ih h
      have h2 := tick_remaining hu
      omega
    · cases h

/-- An uncounted run that reaches a held state ends there. -/
theorem resume_of_runTicks {k : Nat} (hp : s.env.pace = []) (h : runTicks k s = some t)
    (ht : tick t = .ok none) : resume s = .next t := by
  rw [resume_of_unpaced hp]
  have h1 := runTicks_remaining h
  have h2 := remaining_lt s
  exact drive_of_runTicks h ht (by omega)

end Sys2Proof.Machine
end

