-- ==== Sys2Proof/Laws/PerInstr.lean ====
section
/-! SUPPORT. Statements made of every instruction as syntax, one lemma per constructor. The family
`MatchesTable`: the word an instruction encodes to is a word of its row of spec/opcode_table.json (R60,
R61, R65, R66). -/

namespace Sys2Proof.Laws

/-- A row of the table: the format, the fixed bits and their values. -/
structure Row where
  format : Format
  mask   : Byte
  value  : Byte

/-- The rows of the table. -/
def rowOf : Instr → Row
  | .bmInit _ => ⟨.operation, 0xFF, 0x10⟩
  | .bmXfer _ _ _ _ => ⟨.operation, 0xF8, 0x20⟩
  | .bmRegwr _ _ => ⟨.operation, 0xFF, 0x30⟩
  | .bmRegrd _ => ⟨.operation, 0xFF, 0x40⟩
  | .fgCapture => ⟨.operation, 0xFF, 0x50⟩
  | .fbRdpix _ _ => ⟨.operation, 0xFF, 0x60⟩
  | .fbWrpix _ _ _ => ⟨.operation, 0xFF, 0x70⟩
  | .trUpdthr _ => ⟨.operation, 0xFF, 0x80⟩
  | .trLocate _ _ => ⟨.operation, 0xFF, 0x90⟩
  | .trError _ _ => ⟨.operation, 0xFF, 0xA0⟩
  | .trCommand _ _ _ _ => ⟨.operation, 0xFF, 0xB0⟩
  | .trSnapshot _ => ⟨.operation, 0xFF, 0xC0⟩
  | .trTrack _ => ⟨.operation, 0xFF, 0xD0⟩
  | .blkReset => ⟨.operation, 0xFF, 0xF0⟩
  | .cStaWr => ⟨.command, 0xFF, 0x90⟩
  | .cWr => ⟨.command, 0xFF, 0x10⟩
  | .cWrSto => ⟨.command, 0xFF, 0x50⟩
  | .cRd => ⟨.command, 0xFF, 0x20⟩
  | .cRdNackSto => ⟨.command, 0xFF, 0x68⟩
  | .cSto => ⟨.command, 0xFF, 0x40⟩
  | .cRdNack => ⟨.command, 0xFF, 0x28⟩
  | .cRdSto => ⟨.command, 0xFF, 0x60⟩
  | .addrByte _ _ => ⟨.address, 0x00, 0x00⟩

/-- The encoding has the row's format and the row's fixed bits. -/
def MatchesTable.Statement (i : Instr) : Prop :=
  (encode i).format = (rowOf i).format ∧ (encode i).word &&& (rowOf i).mask = (rowOf i).value

theorem MatchesTable.bmInit (v : Byte) :
    MatchesTable.Statement (.bmInit v) := ⟨rfl, (by decide : (0x10#8 &&& 0xFF#8) = 0x10#8)⟩

theorem MatchesTable.bmXfer (d s a : Bool) (x : Byte) :
    MatchesTable.Statement (.bmXfer d s a x) := ⟨rfl, (by decide : ∀ d s a, xferWord d s a &&& 0xF8#8 = 0x20#8) d s a⟩

theorem MatchesTable.bmRegwr (sub val : Byte) :
    MatchesTable.Statement (.bmRegwr sub val) := ⟨rfl, (by decide : (0x30#8 &&& 0xFF#8) = 0x30#8)⟩

theorem MatchesTable.bmRegrd (sub : Byte) :
    MatchesTable.Statement (.bmRegrd sub) := ⟨rfl, (by decide : (0x40#8 &&& 0xFF#8) = 0x40#8)⟩

theorem MatchesTable.fgCapture :
    MatchesTable.Statement (.fgCapture) := ⟨rfl, (by decide : (0x50#8 &&& 0xFF#8) = 0x50#8)⟩

theorem MatchesTable.fbRdpix (row col : Int) :
    MatchesTable.Statement (.fbRdpix row col) := ⟨rfl, (by decide : (0x60#8 &&& 0xFF#8) = 0x60#8)⟩

theorem MatchesTable.fbWrpix (row col : Int) (val : Byte) :
    MatchesTable.Statement (.fbWrpix row col val) := ⟨rfl, (by decide : (0x70#8 &&& 0xFF#8) = 0x70#8)⟩

theorem MatchesTable.trUpdthr (roi : Rect) :
    MatchesTable.Statement (.trUpdthr roi) := ⟨rfl, (by decide : (0x80#8 &&& 0xFF#8) = 0x80#8)⟩

theorem MatchesTable.trLocate (roi : Rect) (thr : Byte) :
    MatchesTable.Statement (.trLocate roi thr) := ⟨rfl, (by decide : (0x90#8 &&& 0xFF#8) = 0x90#8)⟩

theorem MatchesTable.trError (box : Rect) (c : Point) :
    MatchesTable.Statement (.trError box c) := ⟨rfl, (by decide : (0xA0#8 &&& 0xFF#8) = 0xA0#8)⟩

theorem MatchesTable.trCommand (pe te : Int) (lp lt : Pos) :
    MatchesTable.Statement (.trCommand pe te lp lt) := ⟨rfl, (by decide : (0xB0#8 &&& 0xFF#8) = 0xB0#8)⟩

theorem MatchesTable.trSnapshot (roi : Rect) :
    MatchesTable.Statement (.trSnapshot roi) := ⟨rfl, (by decide : (0xC0#8 &&& 0xFF#8) = 0xC0#8)⟩

theorem MatchesTable.trTrack (roi : Rect) :
    MatchesTable.Statement (.trTrack roi) := ⟨rfl, (by decide : (0xD0#8 &&& 0xFF#8) = 0xD0#8)⟩

theorem MatchesTable.blkReset :
    MatchesTable.Statement (.blkReset) := ⟨rfl, (by decide : (0xF0#8 &&& 0xFF#8) = 0xF0#8)⟩

theorem MatchesTable.cStaWr :
    MatchesTable.Statement (.cStaWr) := ⟨rfl, (by decide : (0x90#8 &&& 0xFF#8) = 0x90#8)⟩

theorem MatchesTable.cWr :
    MatchesTable.Statement (.cWr) := ⟨rfl, (by decide : (0x10#8 &&& 0xFF#8) = 0x10#8)⟩

theorem MatchesTable.cWrSto :
    MatchesTable.Statement (.cWrSto) := ⟨rfl, (by decide : (0x50#8 &&& 0xFF#8) = 0x50#8)⟩

theorem MatchesTable.cRd :
    MatchesTable.Statement (.cRd) := ⟨rfl, (by decide : (0x20#8 &&& 0xFF#8) = 0x20#8)⟩

theorem MatchesTable.cRdNackSto :
    MatchesTable.Statement (.cRdNackSto) := ⟨rfl, (by decide : (0x68#8 &&& 0xFF#8) = 0x68#8)⟩

theorem MatchesTable.cSto :
    MatchesTable.Statement (.cSto) := ⟨rfl, (by decide : (0x40#8 &&& 0xFF#8) = 0x40#8)⟩

theorem MatchesTable.cRdNack :
    MatchesTable.Statement (.cRdNack) := ⟨rfl, (by decide : (0x28#8 &&& 0xFF#8) = 0x28#8)⟩

theorem MatchesTable.cRdSto :
    MatchesTable.Statement (.cRdSto) := ⟨rfl, (by decide : (0x60#8 &&& 0xFF#8) = 0x60#8)⟩

theorem MatchesTable.addrByte (addr : BitVec 7) (d : Bool) :
    MatchesTable.Statement (.addrByte addr d) := by
  refine ⟨rfl, ?_⟩
  exact BitVec.and_zero

end Sys2Proof.Laws
end

