-- ==== Sys2Proof/Laws/Transfer.lean ====
section
/-! SUPPORT. A transfer tick by tick: one equation per phase of BM, and the address, write and read phases
as runs of ticks (R91, R93). -/

namespace Sys2Proof.Machine

variable {s t : State}

/-- Nothing to do: no command in flight, every sequencer idle. -/
theorem tick_idle (hi : s.bus.inflight = none) (hb : s.bm.phase = .idle) (hf : s.fg.phase = .idle)
    (ht : s.tr.phase = .idle) : tick s = .ok none := by
  rw [tick_tr hi hb hf]
  simp [trTick, ht]

theorem tick_addrLoad (hi : s.bus.inflight = none) (hp : s.bm.phase = .addrLoad) :
    tick s = .ok (some { s with
      bm := { s.bm with phase := .addrIssue }
      bus := { s.bus with txr := slaveAddrByte s.bm.slaveAddr s.bm.dir }
      io := s.io ++ [.data (slaveAddrByte s.bm.slaveAddr s.bm.dir)] }) := by
  rw [tick_bm hi (by simp [hp])]
  simp [bmTick, hp, ioWrite, hi, Except.map, State.bmTo, State.withBm, State.withBus, State.logged]

theorem tick_addrIssue (he : s.enabled = true) (hi : s.bus.inflight = none)
    (hp : s.bm.phase = .addrIssue) :
    tick s = .ok (some { s with
      bm := { s.bm with phase := .addrWait }
      bus := { s.bus with inflight := some .staWr, tip := true }
      io := s.io ++ [.cmd 0x90] }) := by
  rw [tick_bm hi (by simp [hp])]
  simp only [bmTick, hp]
  rw [ioWrite_cmd, cmdWrite_moves he hi rfl (.inl rfl)]
  rfl

theorem tick_addrWait (ht : s.bus.tip = false) (hi : s.bus.inflight = none)
    (hp : s.bm.phase = .addrWait) :
    tick s = .ok (some { s with bm := { s.bm with phase := .addrCheck } }) := by
  rw [tick_bm hi (by simp [hp])]
  simp [bmTick, hp, State.inProgress, State.statusBit, ht]
  rfl

theorem tick_addrCheck (hi : s.bus.inflight = none) (hp : s.bm.phase = .addrCheck) :
    tick s = .ok (some { s with bm := { s.bm with
      phase := if s.bus.ack then .fail else if s.bm.dir then .dataIssue else .dataLoad } }) := by
  rw [tick_bm hi (by simp [hp])]
  simp [bmTick, hp, State.nacked, State.statusBit]
  rfl

theorem tick_dataLoad (hi : s.bus.inflight = none) (hp : s.bm.phase = .dataLoad) :
    tick s = .ok (some { s with
      bm := { s.bm with phase := .dataIssue }
      bus := { s.bus with txr := s.bm.dataIn }
      io := s.io ++ [.data s.bm.dataIn] }) := by
  rw [tick_bm hi (by simp [hp])]
  simp [bmTick, hp, ioWrite, hi, Except.map, State.bmTo, State.withBm, State.withBus, State.logged]

/-- The command of a data phase moves a byte. -/
theorem dataCmd_moves (p : NackPolicy) (d stop : Bool) : (dataCmd p d stop).moves = true := by
  cases p <;> cases d <;> cases stop <;> rfl

/-! The command of a read (R89, R98). -/

@[simp] theorem dataCmd_read (p : NackPolicy) (stop : Bool) : (dataCmd p true stop).read = true := by
  cases p <;> cases stop <;> rfl

@[simp] theorem dataCmd_read_stop (p : NackPolicy) (stop : Bool) : (dataCmd p true stop).stop = stop := by
  cases p <;> cases stop <;> rfl

@[simp] theorem dataCmd_read_nack (c : Cfg) (stop : Bool) :
    (dataCmd c.nackPolicy true stop).nack = readNack c stop := by
  unfold readNack
  generalize c.nackPolicy = p
  cases p <;> cases stop <;> rfl

@[simp] theorem dataCmd_read_byte (c : Cfg) (stop : Bool) :
    (dataCmd c.nackPolicy true stop).byte = readWord c stop := by
  unfold readWord readNack
  generalize c.nackPolicy = p
  cases p <;> cases stop <;> rfl

/-- A transfer that is not misdirected is not refused for it. -/
theorem runs_of (h : s.misdirected = false) : s.misdirected = true → s.cfg.closedBus ≠ .refuse := by
  simp [h]

theorem tick_dataIssue (he : s.enabled = true) (hi : s.bus.inflight = none)
    (hp : s.bm.phase = .dataIssue) (ho : s.bus.busOpen = true)
    (hm : s.misdirected = true → s.cfg.closedBus ≠ .refuse) :
    tick s = .ok (some { s with
      bm := { s.bm with phase := .dataWait }
      bus := { s.bus with
        inflight := some (dataCmd s.cfg.nackPolicy s.bm.dir s.bm.stop), tip := true }
      io := s.io ++ [.cmd (dataCmd s.cfg.nackPolicy s.bm.dir s.bm.stop).byte] }) := by
  rw [tick_bm hi (by simp [hp])]
  simp only [bmTick, hp]
  rw [dataIssue, if_neg (fun h => hm h.1 h.2), ioWrite_cmd,
    cmdWrite_moves he hi (dataCmd_moves _ _ _) (.inr ho)]
  rfl

/-- R216: refused by the default of `CLOSED_BUS_POLICY` (U4). -/
theorem tick_dataIssue_refused (hi : s.bus.inflight = none) (hp : s.bm.phase = .dataIssue)
    (hm : s.misdirected = true) (hc : s.cfg.closedBus = .refuse) :
    tick s = .error .wrongDirection := by
  rw [tick_bm hi (by simp [hp])]
  simp only [bmTick, hp]
  rw [dataIssue, if_pos ⟨hm, hc⟩]
  rfl

theorem tick_dataWait (ht : s.bus.tip = false) (hi : s.bus.inflight = none)
    (hp : s.bm.phase = .dataWait) :
    tick s = .ok (some { s with bm := { s.bm with phase := .dataCheck } }) := by
  rw [tick_bm hi (by simp [hp])]
  simp [bmTick, hp, State.inProgress, State.statusBit, ht]
  rfl

theorem tick_dataCheck_write (hi : s.bus.inflight = none) (hp : s.bm.phase = .dataCheck)
    (hd : s.bm.dir = false) :
    tick s = .ok (some (if s.bus.ack then { s with bm := { s.bm with phase := .fail } }
      else bmReturn { s with bm := { s.bm with success := true, phase := .idle } })) := by
  rw [tick_bm hi (by simp [hp])]
  simp only [bmTick, hp]
  rw [if_neg (by simp [hd])]
  rfl

theorem tick_dataCheck_read (hi : s.bus.inflight = none) (hp : s.bm.phase = .dataCheck)
    (hd : s.bm.dir = true) :
    tick s = .ok (some (bmReturn { s with bm := { s.bm with
      success := true, phase := .idle, dataOut := s.bus.rxr } })) := by
  rw [tick_bm hi (by simp [hp])]
  simp only [bmTick, hp]
  rw [if_pos hd]
  rfl

theorem tick_fail (he : s.enabled = true) (hi : s.bus.inflight = none) (hp : s.bm.phase = .fail) :
    tick s = .ok (some (bmReturn { s with
      bm := { s.bm with phase := .idle, success := false }
      bus := { s.bus with wire := s.bus.wire ++ [.stop], busOpen := false }
      io := s.io ++ [.cmd 0x40] })) := by
  rw [tick_bm hi (by simp [hp])]
  have hs : ioWrite .cmdStatus 0x40 s = cmdWrite .sto s := ioWrite_cmd .sto s
  simp only [bmTick, hp, failStop]
  rw [hs, cmdWrite_sto he hi]
  rfl

theorem tick_complete {l : Bool} (hi : s.bus.inflight ≠ none) (hl : s.listening = l)
    (h : coreTick l s = some t) : tick s = .ok (some t) := by
  rw [tick_core hi, hl, h]

/-- The address phase, by the slave's answer: five ticks (R93). -/
theorem run_addrPhase {a : Bool} {rest : List Bool} (he : s.enabled = true)
    (hi : s.bus.inflight = none) (hp : s.bm.phase = .addrLoad) (ha : s.env.slaveAcks = a :: rest) :
    runTicks 5 s = some { s with
      bm := { s.bm with
        phase := if a then .fail else if s.bm.dir then .dataIssue else .dataLoad }
      bus := { s.bus with
        txr := slaveAddrByte s.bm.slaveAddr s.bm.dir, ack := a, tip := false, busOpen := true
        wire := s.bus.wire ++ [.start, .tx (slaveAddrByte s.bm.slaveAddr s.bm.dir) a] }
      env := { s.env with slaveAcks := rest }
      io := s.io ++ [.data (slaveAddrByte s.bm.slaveAddr s.bm.dir), .cmd 0x90] } := by
  rw [runTicks_moved (tick_addrLoad hi hp)]
  rw [runTicks_moved (tick_addrIssue (by exact he) (by exact hi) rfl)]
  rw [runTicks_moved (tick_complete (by simp) (listening_phase (by simp)) (coreTick_write (a := a) (rest := rest) (by exact he) rfl
    rfl (.inl rfl) (by exact ha)))]
  rw [runTicks_moved (tick_addrWait rfl rfl rfl)]
  rw [runTicks_moved (tick_addrCheck rfl rfl)]
  simp [runTicks, hi]

/-- The data phase of a write on an open bus, up to its check, by the slave's answer: four ticks
(R93). -/
theorem run_writePhase {a : Bool} {rest : List Bool} (he : s.enabled = true)
    (hi : s.bus.inflight = none) (hp : s.bm.phase = .dataLoad) (hd : s.bm.dir = false)
    (ho : s.bus.busOpen = true) (hm : s.misdirected = false) (ha : s.env.slaveAcks = a :: rest) :
    runTicks 4 s = some { s with
      bm := { s.bm with phase := .dataCheck }
      bus := { s.bus with
        txr := s.bm.dataIn, ack := a, tip := false, busOpen := !s.bm.stop
        wire := s.bus.wire ++ ([.tx s.bm.dataIn a] ++ stopIf s.bm.stop) }
      env := { s.env with slaveAcks := rest }
      io := s.io ++ [.data s.bm.dataIn, .cmd (if s.bm.stop then 0x50 else 0x10)] } := by
  rw [runTicks_moved (tick_dataLoad hi hp)]
  rw [runTicks_moved (tick_dataIssue (by exact he) (by exact hi) rfl (by exact ho)
    (by exact runs_of hm))]
  rw [runTicks_moved (tick_complete (by simp) (listening_of (by exact hm)) (coreTick_write (a := a) (rest := rest) (by exact he) rfl
    (by simp [hd, dataCmd]; cases s.bm.stop <;> rfl) (.inr (by exact ho)) (by exact ha)))]
  rw [runTicks_moved (tick_dataWait rfl rfl rfl)]
  simp [runTicks, hi, hd, dataCmd, stopIf]
  cases s.bm.stop <;> simp [Cmd.byte]

/-- The data phase of a read on an open bus, up to its check: three ticks (R93). Its byte is answered by
`NACK_POLICY` (D6). -/
theorem run_readPhase {b : Byte} {rest : List Byte}
    (he : s.enabled = true) (hi : s.bus.inflight = none) (hp : s.bm.phase = .dataIssue)
    (hd : s.bm.dir = true) (ho : s.bus.busOpen = true) (hm : s.misdirected = false)
    (hb : s.env.slaveBytes = b :: rest) :
    runTicks 3 s = some { s with
      bm := { s.bm with phase := .dataCheck }
      bus := { s.bus with
        rxr := b, ack := Config.freeBit .ackAfterRead s.env.draws, tip := false
        busOpen := !s.bm.stop
        wire := s.bus.wire ++ ([.rx b (readNack s.cfg s.bm.stop)] ++ stopIf s.bm.stop) }
      env := { s.env with slaveBytes := rest, draws := s.env.draws + 1 }
      io := s.io ++ [.cmd (readWord s.cfg s.bm.stop)] } := by
  rw [runTicks_moved (tick_dataIssue (by exact he) (by exact hi) hp (by exact ho)
    (by exact runs_of hm))]
  rw [runTicks_moved (tick_complete (by simp) (listening_of (by exact hm)) (coreTick_read (b := b) (rest := rest) (by exact he) rfl
    (by simp [hd]) (by exact ho) (by exact hb)))]
  rw [runTicks_moved (tick_dataWait rfl rfl rfl)]
  simp [runTicks, hi, hd, stopIf]

/-! The data phase of a misdirected transfer (R216, U4), where nobody answers. -/

/-- Of a write: the byte is not acknowledged. -/
theorem run_writePhase_unheard (he : s.enabled = true) (hi : s.bus.inflight = none)
    (hp : s.bm.phase = .dataLoad) (hd : s.bm.dir = false) (ho : s.bus.busOpen = true)
    (hm : s.misdirected = true) (hc : s.cfg.closedBus = .nobodyAnswers) :
    runTicks 4 s = some { s with
      bm := { s.bm with phase := .dataCheck }
      bus := { s.bus with
        txr := s.bm.dataIn, ack := true, tip := false, busOpen := !s.bm.stop
        wire := s.bus.wire ++ ([.tx s.bm.dataIn true] ++ stopIf s.bm.stop) }
      io := s.io ++ [.data s.bm.dataIn, .cmd (if s.bm.stop then 0x50 else 0x10)] } := by
  rw [runTicks_moved (tick_dataLoad hi hp)]
  rw [runTicks_moved (tick_dataIssue (by exact he) (by exact hi) rfl (by exact ho)
    (fun _ => by exact hc ▸ (by simp)))]
  rw [runTicks_moved (tick_complete (l := false) (by simp)
    (by simpa [State.listening] using (by exact hm))
    (coreTick_write_unheard (by exact he) rfl (by simp [hd, dataCmd]; cases s.bm.stop <;> rfl)
      (by simp [hd, dataCmd]; cases s.bm.stop <;> rfl) (by exact ho)))]
  rw [runTicks_moved (tick_dataWait rfl rfl rfl)]
  simp [runTicks, hi, hd, dataCmd, stopIf]
  cases s.bm.stop <;> simp [Cmd.byte]

/-- Of a read: the byte is any value. -/
theorem run_readPhase_unheard (he : s.enabled = true) (hi : s.bus.inflight = none)
    (hp : s.bm.phase = .dataIssue) (hd : s.bm.dir = true) (ho : s.bus.busOpen = true)
    (hm : s.misdirected = true) (hc : s.cfg.closedBus = .nobodyAnswers) :
    runTicks 3 s = some { s with
      bm := { s.bm with phase := .dataCheck }
      bus := { s.bus with
        rxr := Config.freeByte .closedBusByte s.env.draws
        ack := Config.freeBit .ackAfterRead (s.env.draws + 1), tip := false
        busOpen := !s.bm.stop
        wire := s.bus.wire ++ ([.rx (Config.freeByte .closedBusByte s.env.draws)
          (readNack s.cfg s.bm.stop)] ++ stopIf s.bm.stop) }
      env := { s.env with draws := s.env.draws + 2 }
      io := s.io ++ [.cmd (readWord s.cfg s.bm.stop)] } := by
  rw [runTicks_moved (tick_dataIssue he hi hp ho (fun _ => hc ▸ (by simp)))]
  rw [runTicks_moved (tick_complete (l := false) (by simp)
    (by simpa [State.listening] using (by exact hm))
    (coreTick_read_unheard (by exact he) rfl (by simp [hd]) (by exact ho)))]
  rw [runTicks_moved (tick_dataWait rfl rfl rfl)]
  simp [runTicks, hi, hd, stopIf]

/-! The phases up to a byte the slave has not answered (R91). -/

/-- Up to the wait for the address byte: two ticks. -/
theorem run_addrWait (he : s.enabled = true) (hi : s.bus.inflight = none) (hp : s.bm.phase = .addrLoad) :
    runTicks 2 s = some { s with
      bm := { s.bm with phase := .addrWait }
      bus := { s.bus with
        txr := slaveAddrByte s.bm.slaveAddr s.bm.dir, inflight := some .staWr, tip := true }
      io := s.io ++ [.data (slaveAddrByte s.bm.slaveAddr s.bm.dir), .cmd 0x90] } := by
  rw [runTicks_moved (tick_addrLoad hi hp)]
  rw [runTicks_moved (tick_addrIssue (by exact he) (by exact hi) rfl)]
  simp [runTicks]

/-- Up to the wait for the data byte of a write: two ticks. -/
theorem run_writeWait (he : s.enabled = true) (hi : s.bus.inflight = none) (hp : s.bm.phase = .dataLoad)
    (ho : s.bus.busOpen = true) (hm : s.misdirected = false) :
    runTicks 2 s = some { s with
      bm := { s.bm with phase := .dataWait }
      bus := { s.bus with
        txr := s.bm.dataIn
        inflight := some (dataCmd s.cfg.nackPolicy s.bm.dir s.bm.stop), tip := true }
      io := s.io ++ [.data s.bm.dataIn, .cmd (dataCmd s.cfg.nackPolicy s.bm.dir s.bm.stop).byte] } := by
  rw [runTicks_moved (tick_dataLoad hi hp)]
  rw [runTicks_moved (tick_dataIssue (by exact he) (by exact hi) rfl (by exact ho)
    (by exact runs_of hm))]
  simp [runTicks]

/-- Up to the wait for the byte of a read: one tick. -/
theorem run_readWait (he : s.enabled = true) (hi : s.bus.inflight = none) (hp : s.bm.phase = .dataIssue)
    (ho : s.bus.busOpen = true) (hm : s.misdirected = false) :
    runTicks 1 s = some { s with
      bm := { s.bm with phase := .dataWait }
      bus := { s.bus with
        inflight := some (dataCmd s.cfg.nackPolicy s.bm.dir s.bm.stop), tip := true }
      io := s.io ++ [.cmd (dataCmd s.cfg.nackPolicy s.bm.dir s.bm.stop).byte] } := by
  rw [runTicks_moved (tick_dataIssue he hi hp ho (runs_of hm))]
  rfl

/-- A byte in flight that the bus core does not complete holds the machine. -/
theorem tick_waits {c : Cmd} (hf : s.bus.inflight = some c) (hl : s.listening = true)
    (hc : coreTick true s = none) : tick s = .ok none := by
  rw [tick_core (by simp [hf]), hl, hc]

/-! The return of a transfer, by operation (R93, R96, R97). -/

theorem bmReturn_xfer {d stop a : Bool} {x : Byte} (hc : s.op.cur = some (.bmXfer d stop a x))
    (hs : s.bm.sub ≠ .first) :
    bmReturn s = { s with
      bm := { s.bm with sub := .none }
      op := { s.op with
        cur := none, res := { s.op.res with success := s.bm.success, data := s.bm.dataOut } } } := by
  unfold bmReturn
  split
  · contradiction
  · simp [bmFinish, State.subNone, State.withBm, hc, State.results, State.retired, State.withOp]

theorem bmReturn_regwr {sub val : Byte} (hc : s.op.cur = some (.bmRegwr sub val))
    (hs : s.bm.sub = .first → s.bm.success = false) :
    bmReturn s = { s with
      bm := { s.bm with sub := .none }
      op := { s.op with cur := none, res := { s.op.res with success := s.bm.success } } } := by
  unfold bmReturn
  split
  · rename_i h
    rw [if_neg (by simp [hs h])]
    simp [bmFinish, State.subNone, State.withBm, hc, State.results, State.retired, State.withOp]
  · simp [bmFinish, State.subNone, State.withBm, hc, State.results, State.retired, State.withOp]

theorem bmReturn_regwr_second {sub val : Byte} (hc : s.op.cur = some (.bmRegwr sub val))
    (hs : s.bm.sub = .first) (h : s.bm.success = true) :
    bmReturn s = startXfer .second false true false val s := by
  unfold bmReturn
  simp [hs, h, hc]

theorem bmReturn_regrd_failed {sub : Byte} (hc : s.op.cur = some (.bmRegrd sub))
    (h : s.bm.success = false) :
    bmReturn s = { s with
      bm := { s.bm with sub := .none }
      op := { s.op with
        cur := none
        res := { s.op.res with success := false, val := Config.freeByte .failedVal s.env.draws } }
      env := { s.env with draws := s.env.draws + 1 } } := by
  unfold bmReturn
  split
  · rw [if_neg (by simp [h])]
    simp [bmFinish, State.subNone, State.withBm, hc, State.results, State.retired, State.withOp, h,
      State.drawn, State.withEnv]
  · simp [bmFinish, State.subNone, State.withBm, hc, State.results, State.retired, State.withOp, h,
      State.drawn, State.withEnv]

theorem bmReturn_regrd {sub : Byte} (hc : s.op.cur = some (.bmRegrd sub)) (h : s.bm.success = true)
    (hs : s.bm.sub ≠ .first) :
    bmReturn s = { s with
      bm := { s.bm with sub := .none }
      op := { s.op with
        cur := none, res := { s.op.res with success := true, val := s.bm.dataOut } } } := by
  unfold bmReturn
  split
  · contradiction
  · simp [bmFinish, State.subNone, State.withBm, hc, State.results, State.retired, State.withOp, h]

theorem bmReturn_regrd_second {sub : Byte} (hc : s.op.cur = some (.bmRegrd sub))
    (hs : s.bm.sub = .first) (h : s.bm.success = true) :
    bmReturn s = (startXfer .second true true true (Config.freeByte .dataIn s.env.draws) s).drawn := by
  unfold bmReturn
  simp [hs, h, hc]

/-! From an operation to its run. -/

/-- A bus operation of an initialised idle block ends where its ticks reach a held state. -/
theorem acceptBus_of_runTicks {i : Instr} {start : State → State} {k : Nat} (h : BusReady s)
    (hs : ∀ u, (start u).env = u.env) (hr : runTicks k (start (s.withOp { s.op with cur := some i })) = some t)
    (ht : tick t = .ok none) : acceptBus i start s = .next t := by
  unfold acceptBus launch
  rw [if_neg (by simp [h.free]), if_neg (by simp [h.inited])]
  exact resume_of_runTicks (by rw [hs]; exact h.unpaced) hr ht

/-- An operation of FG or TR of an idle block ends where its ticks reach a held state. -/
theorem accept_of_runTicks {i : Instr} {start : State → State} {k : Nat} (h : Idle s)
    (hs : ∀ u, (start u).env = u.env) (hr : runTicks k (start (s.withOp { s.op with cur := some i })) = some t)
    (ht : tick t = .ok none) : accept i start s = .next t := by
  unfold accept launch
  rw [if_neg (by simp [h.free])]
  exact resume_of_runTicks (by rw [hs]; exact h.unpaced) hr ht

end Sys2Proof.Machine
end

