-- ==== Sys2Proof/Tests/Slice0.lean ====
section
/-! SUPPORT. The model's own tests: ill-formed terms, words written out from the encodings of
spec/30_encoding.md, the vectors of spec/95_test_vectors.md, each one step on a small state, and a witness
for the hypotheses of every statement. -/

namespace Sys2Proof.Tests

open Sys2Proof.Machine

/-! ## Well-formedness: one ill-formed term for each check -/

theorem test_illformed_fbRdpix :
    wellFormed (.fbRdpix 32768 0) = false ∧ wellFormed (.fbRdpix 0 (-32769)) = false := by decide

theorem test_illformed_fbWrpix :
    wellFormed (.fbWrpix (-32769) 0 0) = false ∧ wellFormed (.fbWrpix 0 32768 0) = false := by decide

theorem test_illformed_trUpdthr :
    wellFormed (.trUpdthr ⟨32768, 0, 0, 0⟩) = false ∧ wellFormed (.trUpdthr ⟨0, -32769, 0, 0⟩) = false ∧
    wellFormed (.trUpdthr ⟨0, 0, 32768, 0⟩) = false ∧
    wellFormed (.trUpdthr ⟨0, 0, 0, -32769⟩) = false := by decide

theorem test_illformed_trLocate :
    wellFormed (.trLocate ⟨32768, 0, 0, 0⟩ 0) = false ∧
    wellFormed (.trLocate ⟨0, 0, 0, -32769⟩ 0) = false := by decide

theorem test_illformed_trError :
    wellFormed (.trError ⟨0, 0, 0, 0⟩ ⟨32768, 0⟩) = false ∧
    wellFormed (.trError ⟨0, 0, 0, 0⟩ ⟨0, -32769⟩) = false ∧
    wellFormed (.trError ⟨0, 32768, 0, 0⟩ ⟨0, 0⟩) = false := by decide

theorem test_illformed_trCommand :
    wellFormed (.trCommand 32768 0 0 0) = false ∧ wellFormed (.trCommand 0 (-32769) 0 0) = false := by
  decide

theorem test_illformed_trSnapshot : wellFormed (.trSnapshot ⟨0, 0, 32768, 0⟩) = false := by decide

theorem test_illformed_trTrack : wellFormed (.trTrack ⟨0, 0, 0, 32768⟩) = false := by decide

/-! ## Decoding: a word of each row, bit by bit (R61, R62, R65, R66) -/

/-- A format H packet with the operand registers given. -/
def request (w : Byte) (x : Operands) : Packet := ⟨.operation, w, x⟩

/-- A format C packet. -/
def byteCommand (w : Byte) : Packet := ⟨.command, w, .zero⟩

theorem test_decode_bmInit :
    decode (request 0b00010000 { Operands.zero with slaveAddress := 0xC0 }) = .ok (.bmInit 0xC0) := rfl

/-- Word 0x23 of V-BM3: write, STOP, address; 0x25 of V-BM8: read, no STOP, address; 0x22 of V-BM5. -/
theorem test_decode_bmXfer :
    decode (request 0b00100011 { Operands.zero with data := 0x12 })
      = .ok (.bmXfer false true true 0x12) ∧
    decode (request 0b00100101 .zero) = .ok (.bmXfer true false true 0) ∧
    decode (request 0b00100010 { Operands.zero with data := 0x80 })
      = .ok (.bmXfer false true false 0x80) := ⟨rfl, rfl, rfl⟩

theorem test_decode_bmRegwr :
    decode (request 0b00110000 { Operands.zero with sub := 0x12, val := 0x80 })
      = .ok (.bmRegwr 0x12 0x80) := rfl

theorem test_decode_bmRegrd :
    decode (request 0b01000000 { Operands.zero with sub := 0x1C }) = .ok (.bmRegrd 0x1C) := rfl

theorem test_decode_fgCapture : decode (request 0b01010000 .zero) = .ok .fgCapture := rfl

/-- V-FB1: `[0x60; 0xFFFD, 0xFFFD]`. -/
theorem test_decode_fbRdpix :
    decode (request 0b01100000 { Operands.zero with row := 0xFFFD, col := 0xFFFD })
      = .ok (.fbRdpix (-3) (-3)) := rfl

/-- P4 step 1: `[0x70; 0xFFFF, 0x0009, 0xFF]`. -/
theorem test_decode_fbWrpix :
    decode (request 0b01110000 { Operands.zero with row := 0xFFFF, col := 0x0009, val := 0xFF })
      = .ok (.fbWrpix (-1) 9 0xFF) := rfl

theorem test_decode_trUpdthr :
    decode (request 0b10000000 { Operands.zero with roi := ⟨0x0000, 0x0003, 0x0001, 0x0004⟩ })
      = .ok (.trUpdthr ⟨0, 3, 1, 4⟩) := rfl

/-- V-TR3: `[0x90; 0x0000, 0x0007, 0x0000, 0x000B, 0x69]`. -/
theorem test_decode_trLocate :
    decode (request 0b10010000 { Operands.zero with
      roi := ⟨0x0000, 0x0007, 0x0000, 0x000B⟩, thr := 0x69 })
      = .ok (.trLocate ⟨0, 7, 0, 11⟩ 105) := rfl

/-- P5: `[0xA0; 0x0002, 0x0003, 0x0002, 0x0004, 0x0001, 0x0002]`. -/
theorem test_decode_trError :
    decode (request 0b10100000 { Operands.zero with
      box := ⟨0x0002, 0x0003, 0x0002, 0x0004⟩, centerRow := 0x0001, centerCol := 0x0002 })
      = .ok (.trError ⟨2, 3, 2, 4⟩ ⟨1, 2⟩) := rfl

/-- P5: `[0xB0; 0xFFFF, 0xFFFF, 1/2, 1/2]`, the second error made 3 here to tell the two apart. -/
theorem test_decode_trCommand :
    decode (request 0b10110000 { Operands.zero with
      panError := 0xFFFF, tiltError := 0x0003, lastPan := 1/2, lastTilt := 1/4 })
      = .ok (.trCommand (-1) 3 (1/2) (1/4)) := rfl

theorem test_decode_trSnapshot :
    decode (request 0b11000000 { Operands.zero with roi := ⟨0x0000, 0x0003, 0x0000, 0x0004⟩ })
      = .ok (.trSnapshot ⟨0, 3, 0, 4⟩) := rfl

theorem test_decode_trTrack :
    decode (request 0b11010000 { Operands.zero with roi := ⟨0x0001, 0x0002, 0x0003, 0x0004⟩ })
      = .ok (.trTrack ⟨1, 2, 3, 4⟩) := rfl

theorem test_decode_blkReset : decode (request 0b11110000 .zero) = .ok .blkReset := rfl

theorem test_decode_cStaWr : decode (byteCommand 0b10010000) = .ok .cStaWr := rfl
theorem test_decode_cWr : decode (byteCommand 0b00010000) = .ok .cWr := rfl
theorem test_decode_cWrSto : decode (byteCommand 0b01010000) = .ok .cWrSto := rfl
theorem test_decode_cRd : decode (byteCommand 0b00100000) = .ok .cRd := rfl
theorem test_decode_cRdNackSto : decode (byteCommand 0b01101000) = .ok .cRdNackSto := rfl
theorem test_decode_cSto : decode (byteCommand 0b01000000) = .ok .cSto := rfl
theorem test_decode_cRdNack : decode (byteCommand 0b00101000) = .ok .cRdNack := rfl
theorem test_decode_cRdSto : decode (byteCommand 0b01100000) = .ok .cRdSto := rfl

theorem test_decode_addrByte :
    decode ⟨.address, 0b11000001, .zero⟩ = .ok (.addrByte 0b1100000 true) := rfl

/-- V-BM18: operation words refused (U10), command bytes refused (U3). -/
theorem test_decode_reserved :
    decode (request 0x00 .zero) = .error .reservedCode ∧
    decode (request 0xE0 .zero) = .error .reservedCode ∧
    decode (request 0x28 .zero) = .error .reservedFlags ∧
    decode (request 0x31 .zero) = .error .reservedFlags ∧
    decode (request 0x58 .zero) = .error .reservedFlags ∧
    decode (byteCommand 0x30) = .error .reservedCommand ∧
    decode (byteCommand 0xD0) = .error .reservedCommand ∧
    decode (byteCommand 0xA0) = .error .reservedCommand ∧
    decode (byteCommand 0x11) = .error .reservedCommand ∧
    decode (byteCommand 0x08) = .error .reservedCommand ∧
    decode (byteCommand 0x00) = .error .reservedCommand :=
  ⟨rfl, rfl, rfl, rfl, rfl, rfl, rfl, rfl, rfl, rfl, rfl⟩

/-! ## Helpers -/

/-- What is read off the next state, if there is one. -/
def after {α : Type} (o : Host.Outcome State Fault Refusal) (f : State → α) : Option α :=
  match o with
  | .next t => some (f t)
  | .fault _ => none
  | .refused _ => none

/-- The name of a refusal. -/
def why (o : Host.Outcome State Fault Refusal) : Option Refusal :=
  match o with
  | .next _ => none
  | .fault _ => none
  | .refused r => some r

/-- The next state of an outcome that has one. -/
def nextOf (o : Host.Outcome State Fault Refusal) : State :=
  match o with
  | .next t => t
  | .fault _ => State.reset
  | .refused _ => State.reset

theorem eq_nextOf {o : Host.Outcome State Fault Refusal} (h : (after o fun _ => ()).isSome = true) :
    o = .next (nextOf o) := by
  cases o with
  | next t => rfl
  | fault r => cases h
  | refused r => cases h

/-- An initialised core with slave address 0xC0 and the slave's coming answers, the bus released. -/
def ready (acks : List Bool) (bytes : List Byte) : State :=
  { State.reset with
    bm := { State.reset.bm with slaveAddr := 0xC0, inited := true }
    bus := { State.reset.bus with ctrl := 0x80 }
    env := { State.reset.env with slaveAcks := acks, slaveBytes := bytes } }

/-- The same inside a transaction. -/
def opened (acks : List Bool) (bytes : List Byte) : State :=
  (ready acks bytes).withBus { (ready acks bytes).bus with busOpen := true }

/-- The same with the bus held in a direction: START and an acknowledged address byte are on the wires. -/
def held (d : Bool) (acks : List Bool) (bytes : List Byte) : State :=
  (opened acks bytes).withBus { (opened acks bytes).bus with
    wire := [.start, .tx (if d then 0xC1 else 0xC0) false] }

/-- The frame `[[41, 100, 201], [50, 60, 70]]` of V-FB1. -/
def framed : State :=
  State.reset.withFb [(0, 41), (1, 100), (2, 201), (3, 50), (4, 60), (5, 70)]

/-- A sensor of one sample, kept, in a frame of one byte. Its reads end the waits of one frame: every
signal but the polled one is high throughout, and the frame sync shows the other level first. -/
def onePixel : State :=
  { State.reset with
    cfg := { State.reset.cfg with
      sensorRows := 1, sensorCols := 1, winRowLo := 0, winRowHi := 0, winColLo := 0, winColHi := 0,
      rows := 1, cols := 1 }
    env := { State.reset.env with status := [0xFF, 0xFB, 0xFF, 0xFD, 0xFF, 0xFE, 0xFF], pixels := [77] } }

/-- A tracker frame of `ROWS` 1 with the line of V-TR2. -/
def oneLine : State :=
  { State.reset with
    cfg := { State.reset.cfg with rows := 1, cols := 9 }
    fb := [(0, 10), (1, 200), (2, 200), (3, 200), (4, 10), (5, 200), (6, 200), (7, 200), (8, 200)] }

/-! ## Vectors: unit BM -/

/-- V-BM1. -/
theorem test_bmInit :
    after (exec (.bmInit 0xC0) State.reset) (fun t =>
      (t.io, t.bm.slaveAddr, t.bm.inited, t.bus.ctrl, t.bus.wire))
    = some ([.divLo 0xC7, .divHi 0x00, .ctrl 0x80], 0xC0, true, 0x80, []) := by decide +kernel

/-- U8: inside a held transaction. -/
theorem test_bmInit_open : why (exec (.bmInit 0x43) (opened [] [])) = some .initOnOpenBus := by decide

/-- V-BM3. -/
theorem test_bmXfer_write :
    after (exec (.bmXfer false true true 0x12) (ready [false, false] [])) (fun t =>
      (t.io, t.bus.wire, t.op.res.success, t.op.res.data, t.bus.busOpen))
    = some ([.data 0xC0, .cmd 0x90, .data 0x12, .cmd 0x50],
        [.start, .tx 0xC0 false, .tx 0x12 false, .stop], true, 0x12, false) := by decide +kernel

/-- V-BM12: the operand is passed through, and one STOP although none was asked for. -/
theorem test_bmXfer_addrNack :
    after (exec (.bmXfer true false true 0x9E) (ready [true] [])) (fun t =>
      (t.io, t.bus.wire, t.op.res.success, t.op.res.data, t.bus.busOpen))
    = some ([.data 0xC1, .cmd 0x90, .cmd 0x40], [.start, .tx 0xC1 true, .stop], false, 0x9E, false) := by
  decide +kernel

/-- V-BM15. -/
theorem test_bmRegwr :
    after (exec (.bmRegwr 0x12 0x80) (ready [false, false, false] [])) (fun t =>
      (t.io, t.bus.wire, t.op.res.success, t.bus.busOpen))
    = some ([.data 0xC0, .cmd 0x90, .data 0x12, .cmd 0x10, .data 0x80, .cmd 0x50],
        [.start, .tx 0xC0 false, .tx 0x12 false, .tx 0x80 false, .stop], true, false) := by
  decide +kernel

/-- V-BM17, second row: the value is never sent. -/
theorem test_bmRegwr_fails :
    after (exec (.bmRegwr 0x12 0x80) (ready [false, true] [])) (fun t => (t.bus.wire, t.op.res.success))
    = some ([.start, .tx 0xC0 false, .tx 0x12 true, .stop], false) := by decide +kernel

/-- V-BM16. -/
theorem test_bmRegrd :
    after (exec (.bmRegrd 0x1C) (ready [false, false, false] [0x7F])) (fun t =>
      (t.io, t.bus.wire, t.op.res.success, t.op.res.val, t.bus.busOpen))
    = some ([.data 0xC0, .cmd 0x90, .data 0x1C, .cmd 0x10, .data 0xC1, .cmd 0x90, .cmd 0x68],
        [.start, .tx 0xC0 false, .tx 0x1C false, .start, .tx 0xC1 false, .rx 0x7F true, .stop], true,
        0x7F, false) := by decide +kernel

/-- V-BM17, last row. -/
theorem test_bmRegrd_fails :
    after (exec (.bmRegrd 0x1C) (ready [false, false, true] [])) (fun t => (t.bus.wire, t.op.res.success))
    = some ([.start, .tx 0xC0 false, .tx 0x1C false, .start, .tx 0xC1 true, .stop], false) := by
  decide +kernel

/-! ## Vectors: the bus core (V-BM19 and the rows of R83 to R88, R98, R99) -/

theorem test_cStaWr :
    after (exec .cStaWr ((ready [false] []).withBus { (ready [] []).bus with txr := 0xC0 })) (fun t =>
      (t.bus.wire, t.bus.ack, t.bus.tip, t.bus.busOpen, t.bus.inflight))
    = some ([.start, .tx 0xC0 false], false, false, true, none) := by decide

/-- The byte stays in flight while the slave has not answered (R81, R82). -/
theorem test_cStaWr_waits :
    after (exec .cStaWr (ready [] [])) (fun t => (t.bus.wire, t.bus.tip, t.bus.inflight))
    = some ([], true, some .staWr) := by decide

theorem test_cWr :
    after (exec .cWr (opened [true] [])) (fun t => (t.bus.wire, t.bus.ack, t.bus.busOpen))
    = some ([.tx 0 true], true, true) := by decide

theorem test_cWrSto :
    after (exec .cWrSto (opened [true] [])) (fun t => (t.bus.wire, t.bus.ack, t.bus.busOpen))
    = some ([.tx 0 true, .stop], true, false) := by decide

theorem test_cRd :
    after (exec .cRd (opened [] [0x3C])) (fun t => (t.bus.wire, t.bus.rxr, t.bus.busOpen))
    = some ([.rx 0x3C false], 0x3C, true) := by decide

theorem test_cRdNackSto :
    after (exec .cRdNackSto (opened [] [0x7F])) (fun t => (t.bus.wire, t.bus.rxr, t.bus.busOpen))
    = some ([.rx 0x7F true, .stop], 0x7F, false) := by decide

theorem test_cSto :
    after (exec .cSto (opened [] [])) (fun t => (t.bus.wire, t.bus.tip, t.bus.busOpen))
    = some ([.stop], false, false) := by decide

theorem test_cRdNack :
    after (exec .cRdNack (opened [] [0x01])) (fun t => (t.bus.wire, t.bus.rxr, t.bus.busOpen))
    = some ([.rx 0x01 true], 0x01, true) := by decide

theorem test_cRdSto :
    after (exec .cRdSto (opened [] [0x01])) (fun t => (t.bus.wire, t.bus.rxr, t.bus.busOpen))
    = some ([.rx 0x01 false, .stop], 0x01, false) := by decide

/-- V-BM2, the rows whose stored bit 0 differs from the direction. -/
theorem test_addrByte :
    slaveAddrByte 0xC1 false = 0xC0 ∧ slaveAddrByte 0x43 false = 0x42 ∧ slaveAddrByte 0xC0 true = 0xC1 ∧
    after (exec (.addrByte 0b1100000 true) (ready [] [])) (fun t => (t.bus.txr, t.bus.wire))
      = some (0xC1, []) := by decide

/-! ## Vectors: units FG and FB -/

/-- V-FG1; the awaited levels come with all other bits at the same level. -/
theorem test_fgCapture :
    after (exec .fgCapture { State.reset with env := { State.reset.env with
        status := (frameWaits Cfg.reference).map fun w => if w.2 then 0xFF else 0, pixels := [41, 100, 201, 50, 60, 70] } }) (fun t =>
      (t.fb, t.fg.min, t.fg.max, t.op.res.summary, t.busy))
    = some ([(0, 41), (1, 100), (2, 201), (3, 50), (4, 60), (5, 70)], 41, 201, 120, false) := by
  decide +kernel

/-- V-FG6: `FSYNC` reads 1, 1, 0, 0, 1: the frame wait ends at the fifth. -/
theorem test_fgCapture_frameWait :
    after (exec .fgCapture { State.reset with env := { State.reset.env with
        status := [4, 4, 0, 0, 4] } }) (fun t => (t.env.status, t.fg.phase))
    = some ([], .rowWaitFall) ∧
    after (exec .fgCapture { State.reset with env := { State.reset.env with
        status := [4, 4, 0, 0] } }) (fun t => (t.env.status, t.fg.phase)) = some ([], .frameWaitB) := by
  decide +kernel

/-- V-FB1. -/
theorem test_fbRdpix :
    after (exec (.fbRdpix 1 7) framed) (fun t => t.op.res.val) = some 70 ∧
    after (exec (.fbRdpix (-3) (-3)) framed) (fun t => t.op.res.val) = some 41 ∧
    after (exec (.fbRdpix 9 1) framed) (fun t => t.op.res.val) = some 60 := by decide

/-- V-FB3. -/
theorem test_fbRdpix_unwritten : why (exec (.fbRdpix 0 0) State.reset) = some .unwrittenPixel := by
  decide

/-- V-FB2. -/
theorem test_fbWrpix :
    after (exec (.fbWrpix 2 1 0x00) framed) (fun t => t.fb)
    = some [(0, 41), (1, 100), (2, 201), (3, 50), (4, 0), (5, 70)] := by decide

/-- S3, the extreme `coord` values. -/
theorem test_fbWrpix_extreme :
    after (exec (.fbWrpix (-32768) 32767 0xFF) State.reset) (fun t => t.fb) = some [(2, 0xFF)] ∧
    after (exec (.fbWrpix 32767 (-32768) 0xFF) State.reset) (fun t => t.fb) = some [(3, 0xFF)] := by
  decide

/-! ## Vectors: unit TR -/

/-- V-TR1: a region outside the frame; and the sum formed without wrap-around. -/
theorem test_trUpdthr :
    after (exec (.trUpdthr ⟨5, 6, 5, 6⟩) framed) (fun t => t.tr.threshold) = some 70 ∧
    thresholdOf 255 255 = 255 ∧ thresholdOf 41 201 = 121 := by decide +kernel

/-- V-TR1: an empty region, no pixel read. -/
theorem test_trUpdthr_empty :
    after (exec (.trUpdthr ⟨1, 0, 0, 0⟩) State.reset) (fun t => t.tr.threshold) = some 127 := by
  decide +kernel

/-- V-TR2: the run closed by the row boundary replaces the shorter one. -/
theorem test_trLocate :
    after (exec (.trLocate ⟨0, 0, 0, 8⟩ 105) oneLine) (fun t =>
      (t.tr.box.colStart, t.tr.box.colEnd, t.tr.boxValid)) = some (5, 8, true) := by decide +kernel

/-- V-TR6: no pixel strictly above the threshold, a prior box unchanged. -/
theorem test_trLocate_none :
    after (exec (.trLocate ⟨0, 0, 0, 8⟩ 200) (oneLine.withTr { oneLine.tr with
      boxValid := true, box := ⟨1, 3, 1, 4⟩ })) (fun t => t.tr.box) = some ⟨1, 3, 1, 4⟩ := by
  decide +kernel

/-- V-TR8, rows 5 and 6. -/
theorem test_trError :
    after (exec (.trError ⟨5, 7, 8, 11⟩ ⟨3, 5⟩) State.reset) (fun t =>
      (t.tr.panErr, t.tr.tiltErr, t.op.res.panError)) = some (-4, -3, 0xFFFC) ∧
    after (exec (.trError ⟨2, 3, 2, 4⟩ ⟨1, 2⟩) State.reset) (fun t =>
      (t.tr.panErr, t.tr.tiltErr)) = some (-1, -1) := by decide +kernel

/-- V-TR9, row 1. -/
theorem test_trCommand :
    after (exec (.trCommand 3 1 (1/2) (1/2)) State.reset) (fun t =>
      (t.op.res.newPan, t.op.res.newTilt, t.io))
    = some (47/100, 13/25, [.actPan (47/100), .actTilt (13/25)]) := by decide +kernel

/-- V-TR9, row 4: clamped. -/
theorem test_trCommand_clamped :
    after (exec (.trCommand (-60) 30 (1/2) (1/2)) State.reset) (fun t => (t.act.pan, t.act.tilt))
    = some (1, 1) := by decide +kernel

/-- R158 on one pixel: threshold 77, nothing brighter, the box is the region, its centre the region's, no
move from home. -/
theorem test_trSnapshot :
    after (exec (.trSnapshot ⟨0, 0, 0, 0⟩) onePixel) (fun t =>
      (t.tr.threshold, t.tr.box, t.op.res.newPan, t.io, t.busy))
    = some (77, ⟨0, 0, 0, 0⟩, 1/2, [.actPan (1/2), .actTilt (1/2)], false) := by decide +kernel

/-- R159: after one frame the next capture waits for its frame start. -/
theorem test_trTrack :
    after (exec (.trTrack ⟨0, 0, 0, 0⟩) onePixel) (fun t => (t.tr.phase, t.fg.phase, t.io, t.busy))
    = some (.capture, .frameWaitA, [.actPan (1/2), .actTilt (1/2)], true) := by decide +kernel

/-! ## Vectors: reset -/

/-- V-RS1 and V-RS2 in one state: a capture that hangs, inside a transaction. -/
theorem test_blkReset :
    after (exec .blkReset { opened [] [] with
      fg := { State.reset.fg with phase := .pixWaitRise, r := 1, c := 4 }
      bus := { (opened [] []).bus with wire := [.start, .tx 0xC0 false, .tx 0x12 false] } }) (fun t =>
      (t.bm.inited, t.enabled, t.bus.busOpen, t.bus.wire, t.busy))
    = some (false, false, false, [.start, .tx 0xC0 false, .tx 0x12 false], false) := by decide +kernel

/-- V-BM18: before `BM_INIT`. -/
theorem test_step_uninitialised :
    why (step (State.reset.withFetchWord 8 0x23)) = some .notInitialised := by decide

/-! ## Witnesses: a state and operands that meet the hypotheses of each statement -/

theorem test_witness_DecodeOfEncodeIsTheInstruction :
    wellFormed (.trError ⟨-32768, 32767, 0, -1⟩ ⟨32767, -32768⟩) = true := by decide

theorem test_witness_DecodedInstructionKeepsItsWord :
    decode (request 0x26 { Operands.zero with data := 0x5A }) = .ok (.bmXfer true true false 0x5A) := rfl

theorem test_witness_ReservedWordsRefused :
    (State.reset.withFetchWord 8 0xE0).op.strobe = true ∧
    reservedWord (State.reset.withFetchWord 8 0xE0).op.word = true ∧
    reservedWord (State.reset.withFetchWord 8 0x28).op.word = true ∧
    0x91#8 ∉ [0x90#8, 0x10#8, 0x50#8, 0x20#8, 0x68#8, 0x40#8, 0x28#8, 0x60#8] := by decide

theorem test_witness_StepRunsTheDecodedInstruction :
    (State.reset.withFetchWord 8 0x50).op.strobe = true ∧
    decode (portPacket (State.reset.withFetchWord 8 0x50)) = .ok .fgCapture := ⟨rfl, rfl⟩

/-- A host that asks for a capture. -/
def asking : State := { State.reset with
  env := { State.reset.env with host := [.request false 0x50 .zero] } }

theorem test_witness_HostRequestIsPutThenServed :
    asking.op.strobe = false ∧ asking.busy = false ∧ asking.bus.inflight = none ∧
    asking.env.host = .request false 0x50 .zero :: [] ∧
    decode ⟨.operation, 0x50, .zero⟩ = .ok .fgCapture := ⟨rfl, by decide, rfl, rfl, rfl⟩

/-- A capture that waits for its frame start. -/
def waiting : State := { State.reset with
  fg := { State.reset.fg with min := 255, max := 0, phase := .frameWaitA }
  op := { State.reset.op with cur := some .fgCapture } }

/-- The same with a request of the host that waits for the block. -/
def queued : State := { waiting with env := { waiting.env with host := [.request false 0x10 .zero] } }

theorem test_queued_HostWaits : HostWaits queued := by
  intro m rest h
  cases h
  decide

theorem test_witness_HeldMachineStaysPut :
    queued.op.strobe = false ∧ HostWaits queued ∧ queued.env.host ≠ [] ∧ queued.env.pace = [] ∧
    tick queued = .ok none := ⟨rfl, test_queued_HostWaits, by decide, rfl, rfl⟩

theorem test_witness_UncountedRunEndsHeld :
    waiting.env.pace = [] ∧ resume waiting = .next (nextOf (resume waiting)) :=
  ⟨rfl, eq_nextOf (by decide)⟩

theorem test_witness_ByteCommandWriteRaisesTip :
    Cmd.moves .wr = true ∧ (opened [] []).enabled = true ∧ (opened [] []).bus.inflight = none ∧
    (Cmd.sta .wr = true ∨ (opened [] []).bus.busOpen = true) := by decide

theorem test_witness_StartWriteCompletes :
    (ready [true] []).enabled = true ∧ (ready [true] []).bus.inflight = none ∧
    (ready [true] []).env.slaveAcks = true :: [] := by decide

theorem test_witness_WriteCompletes :
    (opened [true] []).enabled = true ∧ (opened [true] []).bus.inflight = none ∧
    (opened [true] []).bus.busOpen = true ∧ (opened [true] []).env.slaveAcks = true :: [] := by decide

theorem test_witness_WriteStopCompletes :
    (opened [false] []).enabled = true ∧ (opened [false] []).bus.inflight = none ∧
    (opened [false] []).bus.busOpen = true ∧ (opened [false] []).env.slaveAcks = false :: [] := by decide

theorem test_witness_ReadsKeepingTheBusComplete :
    (opened [] [1]).enabled = true ∧ (opened [] [1]).bus.inflight = none ∧
    (opened [] [1]).bus.busOpen = true ∧ (opened [] [1]).env.slaveBytes = 1 :: [] := by decide

theorem test_witness_ReadsWithStopComplete :
    (opened [] [255]).enabled = true ∧ (opened [] [255]).bus.inflight = none ∧
    (opened [] [255]).bus.busOpen = true ∧ (opened [] [255]).env.slaveBytes = 255 :: [] := by decide

theorem test_witness_StopAloneCompletes :
    (ready [] []).enabled = true ∧ (ready [] []).bus.inflight = none := by decide

/-- The policies that carry on where the spec's default refuses. -/
def lenient : State := { State.reset with
  cfg := { State.reset.cfg with
    closedBus := .nobodyAnswers, unwritten := .anyValue, disabledCore := .ignore }
  bus := { State.reset.bus with ctrl := 0x80 } }

theorem test_witness_CommandWritePolicies :
    (State.reset.enabled = false ∧ State.reset.cfg.disabledCore = .refuse) ∧
    ((nextOf (exec .cStaWr (ready [] []))).enabled = true ∧
      (nextOf (exec .cStaWr (ready [] []))).bus.inflight ≠ none) ∧
    ((ready [] []).enabled = true ∧ (ready [] []).bus.inflight = none ∧ Cmd.moves .rd = true ∧
      Cmd.sta .rd = false ∧ (ready [] []).bus.busOpen = false ∧ (ready [] []).cfg.closedBus = .refuse) ∧
    ((lenient.withBus State.reset.bus).enabled = false ∧
      (lenient.withBus State.reset.bus).cfg.disabledCore = .ignore) ∧
    (lenient.enabled = true ∧ lenient.bus.inflight = none ∧ lenient.bus.busOpen = false ∧
      lenient.cfg.closedBus = .nobodyAnswers) := by decide

theorem test_witness_AddressByteLoads :
    (1 ≤ 7 ∧ (slaveAddrByte 0x80 false).getLsbD 7 = true) ∧ State.reset.bus.inflight = none ∧
    (nextOf (exec .cStaWr (ready [] []))).bus.inflight ≠ none := by decide

theorem test_witness_InitConfiguresTheBus :
    State.reset.busy = false ∧ State.reset.bus.busOpen = false := by decide

theorem test_ready_BusReady (acks : List Bool) (bytes : List Byte) : BusReady (ready acks bytes) :=
  ⟨⟨rfl, rfl, rfl⟩, rfl, (by decide : (0x80#8).getLsbD 7 = true)⟩

theorem test_witness_AddressedWriteTransfer :
    (BusReady (ready [true] []) ∧ (ready [true] []).env.slaveAcks = true :: []) ∧
    (BusReady (ready [false, false] []) ∧
      (ready [false, false] []).env.slaveAcks = false :: false :: []) ∧
    (BusReady (ready [false, true] []) ∧
      (ready [false, true] []).env.slaveAcks = false :: true :: []) :=
  ⟨⟨test_ready_BusReady _ _, rfl⟩, ⟨test_ready_BusReady _ _, rfl⟩, test_ready_BusReady _ _, rfl⟩

theorem test_held_BusReady (d : Bool) (acks : List Bool) (bytes : List Byte) :
    BusReady (held d acks bytes) :=
  ⟨⟨rfl, rfl, rfl⟩, rfl, (by decide : (0x80#8).getLsbD 7 = true)⟩

/-- The bus held in a direction, under the alternative of U4. -/
def unheard (d : Bool) : State :=
  { held d [] [] with cfg := { Cfg.reference with closedBus := .nobodyAnswers } }

theorem test_unheard_BusReady (d : Bool) : BusReady (unheard d) :=
  ⟨⟨rfl, rfl, rfl⟩, rfl, (by decide : (0x80#8).getLsbD 7 = true)⟩

theorem test_witness_UnaddressedWriteTransfer :
    (BusReady (held false [false] []) ∧ (held false [false] []).bus.busOpen = true ∧
      (held false [false] []).direction = some false ∧
      (held false [false] []).env.slaveAcks = false :: []) ∧
    (BusReady (held false [true] []) ∧ (held false [true] []).bus.busOpen = true ∧
      (held false [true] []).direction = some false ∧
      (held false [true] []).env.slaveAcks = true :: []) ∧
    (BusReady (held true [] []) ∧ (held true [] []).bus.busOpen = true ∧
      (held true [] []).direction ≠ some false ∧ (held true [] []).cfg.closedBus = .refuse) ∧
    (BusReady (unheard true) ∧ (unheard true).bus.busOpen = true ∧
      (unheard true).direction ≠ some false ∧ (unheard true).cfg.closedBus = .nobodyAnswers) :=
  ⟨⟨test_held_BusReady _ _ _, rfl, rfl, rfl⟩, ⟨test_held_BusReady _ _ _, rfl, rfl, rfl⟩,
    ⟨test_held_BusReady _ _ _, rfl, by decide, rfl⟩, test_unheard_BusReady _, rfl, by decide, rfl⟩

/-- R216: after a successful write with `s` = 0 a read without address is refused (U4), and so is a write
after a read; a second write goes on the same transaction. -/
theorem test_wrongDirection :
    why (exec (.bmXfer true true false 0)
      (nextOf (exec (.bmXfer false false true 0x12) (ready [false, false] [7])))) = some .wrongDirection ∧
    why (exec (.bmXfer false true false 0)
      (nextOf (exec (.bmXfer true false true 0) (ready [false, false] [7])))) = some .wrongDirection ∧
    after (exec (.bmXfer false true false 0x80)
      (nextOf (exec (.bmXfer false false true 0x12) (ready [false, false, false] [])))) (fun t =>
        (t.bus.wire, t.bm.success))
      = some ([.start, .tx 0xC0 false, .tx 0x12 false, .tx 0x80 false, .stop], true) := by
  decide +kernel

/-- The alternative of U4: nobody acknowledges a write on a bus held for reading. -/
theorem test_unheard :
    after (exec (.bmXfer false false false 0x12) (unheard true)) (fun t =>
      (t.bus.wire, t.bm.success, t.bus.busOpen))
    = some ([.start, .tx 0xC1 false, .tx 0x12 true, .stop], false, false) := by decide +kernel

theorem test_witness_AddressedReadTransfer :
    (BusReady (ready [true] []) ∧ (ready [true] []).env.slaveAcks = true :: []) ∧
    (BusReady (ready [false] [0x7F]) ∧ (ready [false] [0x7F]).env.slaveAcks = false :: [] ∧
      (ready [false] [0x7F]).env.slaveBytes = 0x7F :: []) :=
  ⟨⟨test_ready_BusReady _ _, rfl⟩, test_ready_BusReady _ _, rfl, rfl⟩

theorem test_witness_UnaddressedReadTransfer :
    (BusReady (held true [] [0x5A]) ∧ (held true [] [0x5A]).bus.busOpen = true ∧
      (held true [] [0x5A]).direction = some true ∧ (held true [] [0x5A]).env.slaveBytes = 0x5A :: []) ∧
    (BusReady (held false [] []) ∧ (held false [] []).bus.busOpen = true ∧
      (held false [] []).direction ≠ some true ∧ (held false [] []).cfg.closedBus = .refuse) ∧
    (BusReady (unheard false) ∧ (unheard false).bus.busOpen = true ∧
      (unheard false).direction ≠ some true ∧ (unheard false).cfg.closedBus = .nobodyAnswers) :=
  ⟨⟨test_held_BusReady _ _ _, rfl, rfl, rfl⟩, ⟨test_held_BusReady _ _ _, rfl, by decide, rfl⟩,
    test_unheard_BusReady _, rfl, by decide, rfl⟩

/-- R98: under the other `NACK_POLICY` the byte of `C_RD` is that of `C_RD_NACK`. -/
theorem test_everyByte :
    after (exec (.bmXfer true false false 0) { held true [] [0x5A] with
      cfg := { Cfg.reference with nackPolicy := .everyByte } }) (fun t =>
      (t.bus.wire, t.io, t.bus.busOpen, t.bm.success))
    = some ([.start, .tx 0xC1 false, .rx 0x5A true], [.cmd 0x28], true, true) := by decide +kernel

theorem test_witness_RegisterWriteOutcomes :
    (BusReady (ready [true] []) ∧ (ready [true] []).env.slaveAcks = true :: []) ∧
    (BusReady (ready [false, true] []) ∧
      (ready [false, true] []).env.slaveAcks = false :: true :: []) ∧
    (BusReady (ready [false, false, true] []) ∧
      (ready [false, false, true] []).env.slaveAcks = false :: false :: true :: []) :=
  ⟨⟨test_ready_BusReady _ _, rfl⟩, ⟨test_ready_BusReady _ _, rfl⟩, test_ready_BusReady _ _, rfl⟩

theorem test_witness_RegisterReadOutcomes :
    (BusReady (ready [true] []) ∧ (ready [true] []).env.slaveAcks = true :: []) ∧
    (BusReady (ready [false, true] []) ∧
      (ready [false, true] []).env.slaveAcks = false :: true :: []) ∧
    (BusReady (ready [false, false, true] []) ∧
      (ready [false, false, true] []).env.slaveAcks = false :: false :: true :: []) ∧
    (BusReady (ready [false, false, false] [0x7F]) ∧
      (ready [false, false, false] [0x7F]).env.slaveAcks = false :: false :: false :: [] ∧
      (ready [false, false, false] [0x7F]).env.slaveBytes = 0x7F :: []) :=
  ⟨⟨test_ready_BusReady _ _, rfl⟩, ⟨test_ready_BusReady _ _, rfl⟩, ⟨test_ready_BusReady _ _, rfl⟩,
    test_ready_BusReady _ _, rfl, rfl⟩

/-- A failed transfer without STOP requested, a good one with it and one without. -/
theorem test_witness_TransferReleasesOrHoldsTheBus :
    (BusReady (ready [true] []) ∧
      exec (.bmXfer false false true 0) (ready [true] [])
        = .next (nextOf (exec (.bmXfer false false true 0) (ready [true] []))) ∧
      (nextOf (exec (.bmXfer false false true 0) (ready [true] []))).busy = false ∧
      (nextOf (exec (.bmXfer false false true 0) (ready [true] []))).bm.success = false) ∧
    (nextOf (exec (.bmXfer false true true 0) (ready [false, false] []))).busy = false ∧
    (BusReady (held false [false] []) ∧
      exec (.bmXfer false false false 0) (held false [false] [])
        = .next (nextOf (exec (.bmXfer false false false 0) (held false [false] []))) ∧
      (nextOf (exec (.bmXfer false false false 0) (held false [false] []))).busy = false ∧
      (nextOf (exec (.bmXfer false false false 0) (held false [false] []))).bm.success = true ∧
      (held false [false] []).cfg.closedBus = .refuse) :=
  ⟨⟨test_ready_BusReady _ _, eq_nextOf (by decide +kernel), by decide +kernel, by decide +kernel⟩,
    by decide +kernel, test_held_BusReady _ _ _, eq_nextOf (by decide +kernel), by decide +kernel,
    by decide +kernel, rfl⟩

theorem test_witness_BusOperationRefusals :
    ((opened [] []).busy = false ∧ (opened [] []).bus.busOpen = true) ∧
    (State.reset.busy = false ∧ State.reset.bm.inited = false) ∧
    (BusReady (ready [] []) ∧ (ready [] []).bus.busOpen = false ∧
      (ready [] []).cfg.closedBus = .refuse) :=
  ⟨⟨rfl, rfl⟩, ⟨rfl, rfl⟩, test_ready_BusReady _ _, rfl, rfl⟩

theorem test_witness_TransferWaitsForTheCore :
    (BusReady (ready [] []) ∧ (ready [] []).env.slaveAcks = []) ∧
    (BusReady (ready [false] []) ∧ (ready [false] []).env.slaveAcks = [false] ∧
      (ready [false] []).env.slaveBytes = []) ∧
    (BusReady (held false [] []) ∧ (held false [] []).bus.busOpen = true ∧
      (held false [] []).direction = some false ∧ (held false [] []).env.slaveAcks = []) ∧
    (BusReady (held true [] []) ∧ (held true [] []).bus.busOpen = true ∧
      (held true [] []).direction = some true ∧ (held true [] []).env.slaveBytes = []) ∧
    (BusReady (ready [false, false] []) ∧ (ready [false, false] []).env.slaveAcks = [false, false]) ∧
    (BusReady (ready [false, false, false] []) ∧
      (ready [false, false, false] []).env.slaveAcks = false :: false :: false :: [] ∧
      (ready [false, false, false] []).env.slaveBytes = []) :=
  ⟨⟨test_ready_BusReady _ _, rfl⟩, ⟨test_ready_BusReady _ _, rfl, rfl⟩,
    ⟨test_held_BusReady _ _ _, rfl, rfl, rfl⟩, ⟨test_held_BusReady _ _ _, rfl, rfl, rfl⟩,
    ⟨test_ready_BusReady _ _, rfl⟩,
    test_ready_BusReady _ _, rfl, rfl⟩

/-- The last of them, run: the read's byte is in flight after both transfers' addresses. -/
theorem test_regrd_waits :
    after (exec (.bmRegrd 0x1C) (ready [false, false, false] [])) (fun t =>
      (t.bm.phase, t.bus.inflight, t.bus.tip, t.bus.wire))
    = some (.dataWait, some .rdNackSto, true,
      [.start, .tx 0xC0 false, .tx 0x1C false, .start, .tx 0xC1 false]) := by decide +kernel

theorem test_reference_Ok : Cfg.reference.Ok := by
  constructor <;> decide +kernel

theorem test_onePixel_Ok : onePixel.cfg.Ok := by
  constructor <;> decide +kernel

theorem test_onePixel_EndsWaits : EndsWaits (frameWaits onePixel.cfg) onePixel.env.status :=
  ⟨[0xFF], 0xFB, _, rfl, by decide, by decide, [], 0xFF, _, rfl, by simp, by decide,
    [], 0xFD, _, rfl, by simp, by decide, [], 0xFF, _, rfl, by simp, by decide,
    [], 0xFE, _, rfl, by simp, by decide, [], 0xFF, _, rfl, by simp, by decide, rfl⟩

theorem test_witness_IdealCapture :
    Idle onePixel ∧ onePixel.cfg.Ok ∧ EndsWaits (frameWaits onePixel.cfg) onePixel.env.status ∧
    onePixel.env.status = onePixel.env.status ++ [] ∧
    onePixel.env.pixels = keptSamples onePixel.cfg (fun _ _ => 77) ++ [] :=
  ⟨⟨rfl, rfl, rfl⟩, test_onePixel_Ok, test_onePixel_EndsWaits, rfl, by decide⟩

theorem test_witness_CaptureWaitsForTheSensor : Idle State.reset ∧ State.reset.env.status = [] :=
  ⟨⟨rfl, rfl, rfl⟩, rfl⟩

/-- The first frame wait with two reads that do not end it and one that does (V-FG6). -/
def polling : State := { waiting with env := { waiting.env with status := [4, 4, 0] } }

theorem test_witness_WaitEndsAtTheAwaitedLevel :
    polling.bus.inflight = none ∧ polling.bm.phase = .idle ∧
    waitOf polling.cfg polling.fg.phase = some (2, false, fun t => t.fgTo .frameWaitB) ∧
    polling.env.status = [4, 4] ++ 0 :: [] ∧ (∀ x ∈ [4#8, 4#8], x.getLsbD 2 ≠ false) ∧
    (0#8).getLsbD 2 = false := ⟨rfl, rfl, rfl, rfl, by decide, rfl⟩

/-- The last pixel wait with reads that show the other level only, and a host that waits. -/
def stalled : State := { queued with
  fg := { queued.fg with phase := .pixWaitRise }
  env := { queued.env with status := [4, 4] } }

theorem test_witness_WaitEndsAtTheAwaitedLevel_held :
    stalled.bus.inflight = none ∧ stalled.bm.phase = .idle ∧ stalled.op.strobe = false ∧
    HostWaits stalled ∧ stalled.env.pace = [] ∧
    waitOf stalled.cfg stalled.fg.phase = some (0, true, fun t => t.fgTo .sample) ∧
    ∀ x ∈ stalled.env.status, x.getLsbD 0 ≠ true :=
  ⟨rfl, rfl, rfl, fun m rest h => by cases h; decide, rfl, rfl, by decide⟩

/-- A capture at a sample: kept at the window's first column, not kept at the column after it. -/
def sampling (c : Nat) : State := { onePixel with
  cfg := Cfg.reference
  fg := { onePixel.fg with phase := .sample, r := 1, c := c } }

theorem test_witness_SampleStep :
    (sampling 2).bus.inflight = none ∧ (sampling 2).bm.phase = .idle ∧ (sampling 2).fg.phase = .sample ∧
    kept (sampling 2).cfg (sampling 2).fg.r (sampling 2).fg.c = true ∧
    (sampling 2).env.pixels = 77 :: [] ∧
    kept (sampling 3).cfg (sampling 3).fg.r (sampling 3).fg.c = false := by decide

theorem test_witness_PixelLoad :
    (framed.busy = false ∧ Memory.read framed.fb (pixAddr framed.cfg 1 7) = some 70) ∧
    (State.reset.busy = false ∧ Memory.read State.reset.fb (pixAddr State.reset.cfg 0 0) = none ∧
      State.reset.cfg.unwritten = .refuse) ∧
    (lenient.busy = false ∧ Memory.read lenient.fb (pixAddr lenient.cfg 0 0) = none ∧
      lenient.cfg.unwritten = .anyValue) := by decide

theorem test_witness_PixelStore : framed.busy = false := by decide

/-- The last pixel of the frame, and one address for a coordinate outside it. -/
theorem test_witness_ClampLaw :
    1 ≤ Cfg.reference.rows ∧ 1 ≤ Cfg.reference.cols ∧ (0 : Int) ≤ 1 ∧ (1 : Int) < Cfg.reference.rows ∧
    (0 : Int) ≤ 2 ∧ (2 : Int) < Cfg.reference.cols ∧
    pixAddr Cfg.reference 1 2 = pixAddr Cfg.reference 9 9 := by decide

theorem test_witness_LoadAfterStore : 1 ≤ framed.cfg.rows ∧ 1 ≤ framed.cfg.cols := by decide

/-- A frame of two by two pixels, one of them bright, every run long enough. -/
def spot : State := { State.reset with
  cfg := { State.reset.cfg with rows := 2, cols := 2, minRun := 0 }
  fb := [(0, 10), (1, 200), (2, 10), (3, 10)] }

/-- The pixels of `spot`, as a solid rectangle on a background. -/
def spotAt (i j : Int) : Byte := if 0 ≤ i ∧ i ≤ 0 ∧ 1 ≤ j ∧ j ≤ 1 then 200 else 10

theorem test_spot_reads : RegionReads spot ⟨0, 1, 0, 1⟩ spotAt := by
  intro i j h1 h2 h3 h4
  simp only at h1 h2 h3 h4
  obtain rfl | rfl : i = 0 ∨ i = 1 := by omega
  all_goals
    obtain rfl | rfl : j = 0 ∨ j = 1 := by omega
    all_goals rfl

theorem test_witness_ThresholdOfRegion :
    Idle spot ∧ RegionReads spot ⟨0, 1, 0, 1⟩ spotAt := ⟨⟨rfl, rfl, rfl⟩, test_spot_reads⟩

theorem test_witness_ScanOfUnwrittenPixelRefused :
    Idle State.reset ∧ State.reset.cfg.unwritten = .refuse ∧
    Memory.read State.reset.fb (pixAddr State.reset.cfg 1 2) = none :=
  ⟨⟨rfl, rfl, rfl⟩, rfl, rfl⟩

theorem test_witness_LocateFindsTheLongestRuns :
    Idle spot ∧ RegionReads spot ⟨0, 1, 0, 1⟩ spotAt ∧ spot.cfg.overlay = .identity :=
  ⟨⟨rfl, rfl, rfl⟩, test_spot_reads, rfl⟩

/-- The rectangle is one pixel in the region's corner; and a threshold nothing exceeds. -/
theorem test_witness_LocateOnUniformScenes :
    (Idle spot ∧ spot.cfg.overlay = .identity ∧ RegionReads spot ⟨0, 1, 0, 1⟩ (fun i j =>
        if (0 : Int) ≤ i ∧ i ≤ 0 ∧ 1 ≤ j ∧ j ≤ 1 then 200 else 10) ∧ 105#8 < 200#8 ∧ 10#8 ≤ 105#8 ∧
      (spot.cfg.minRun : Int) < 0 - 0 + 1 ∧ (spot.cfg.minRun : Int) < 1 - 1 + 1) ∧
    ((spot.withTr { spot.tr with boxValid := true }).tr.boxValid = true ∧
      ∀ i j, spotAt i j ≤ 200) :=
  ⟨⟨⟨rfl, rfl, rfl⟩, rfl, test_spot_reads, by decide, by decide, by decide, by decide⟩, rfl, by
    intro i j
    unfold spotAt
    split <;> decide⟩

theorem test_witness_ErrorOfTheBox :
    Idle State.reset ∧ State.reset.cfg.midpoint = .floor ∧
    coordOk (32767 - (0 + 0) / 2) = true := ⟨⟨rfl, rfl, rfl⟩, rfl, rfl⟩

theorem test_witness_CommandMovesTheActuators : Idle State.reset ∧ State.reset.cfg.Ok :=
  ⟨⟨rfl, rfl, rfl⟩, test_reference_Ok⟩

/-- The five parts of a cycle on one pixel. -/
def part1 : State := nextOf (exec .fgCapture onePixel)
def part2 : State := nextOf (exec (.trUpdthr ⟨0, 0, 0, 0⟩) part1)
def part3 : State := nextOf (exec (.trLocate ⟨0, 0, 0, 0⟩ part2.tr.threshold) part2)
def part4 : State :=
  nextOf (exec (.trError part3.tr.box (rectCenter part3.cfg.midpoint ⟨0, 0, 0, 0⟩)) part3)
def part5 : State := nextOf (exec (.trCommand part4.tr.panErr part4.tr.tiltErr part4.tr.lastPan
  part4.tr.lastTilt) part4)

theorem test_witness_SnapshotIsTheCycleOnce :
    Idle onePixel ∧ exec .fgCapture onePixel = .next part1 ∧ part1.busy = false ∧
    exec (.trUpdthr ⟨0, 0, 0, 0⟩) part1 = .next part2 ∧
    exec (.trLocate ⟨0, 0, 0, 0⟩ part2.tr.threshold) part2 = .next part3 ∧
    exec (.trError part3.tr.box (rectCenter part3.cfg.midpoint ⟨0, 0, 0, 0⟩)) part3 = .next part4 ∧
    exec (.trCommand part4.tr.panErr part4.tr.tiltErr part4.tr.lastPan part4.tr.lastTilt) part4
      = .next part5 :=
  ⟨⟨rfl, rfl, rfl⟩, eq_nextOf (by decide +kernel), by decide +kernel, eq_nextOf (by decide +kernel),
    eq_nextOf (by decide +kernel), eq_nextOf (by decide +kernel), eq_nextOf (by decide +kernel)⟩

theorem test_witness_TrackingRepeatsTheSnapshot :
    Idle onePixel ∧
    exec (.trSnapshot ⟨0, 0, 0, 0⟩) onePixel
      = .next (nextOf (exec (.trSnapshot ⟨0, 0, 0, 0⟩) onePixel)) ∧
    (nextOf (exec (.trSnapshot ⟨0, 0, 0, 0⟩) onePixel)).busy = false ∧
    (nextOf (exec (.trSnapshot ⟨0, 0, 0, 0⟩) onePixel)).env.status = [] :=
  ⟨⟨rfl, rfl, rfl⟩, eq_nextOf (by decide +kernel), by decide +kernel, by decide +kernel⟩

theorem test_witness_CycleOfAnIdealFrame :
    Idle onePixel ∧ onePixel.cfg.Ok ∧ onePixel.cfg.overlay = .identity ∧
    EndsWaits (frameWaits onePixel.cfg) onePixel.env.status ∧
    onePixel.env.status = onePixel.env.status ++ [] ∧
    onePixel.env.pixels = keptSamples onePixel.cfg (fun _ _ => 77) ++ [] ∧
    ∀ i j : Int, 0 ≤ i → i ≤ 0 → 0 ≤ j → j ≤ 0 →
      ∃ v, Memory.read (storeKept onePixel.cfg (fun _ _ => 77) onePixel.fb)
        (pixAddr onePixel.cfg i j) = some v :=
  ⟨⟨rfl, rfl, rfl⟩, test_onePixel_Ok, rfl, test_onePixel_EndsWaits, rfl, by decide, fun i j h1 h2 h3 h4 => by
    obtain rfl : i = 0 := by omega
    obtain rfl : j = 0 := by omega
    exact ⟨77, by decide⟩⟩

/-- A tracking block that waits for its next frame. -/
def tracking : State := { waiting with
  tr := { State.reset.tr with phase := .capture }
  op := { State.reset.op with cur := some (.trTrack ⟨0, 1, 0, 2⟩) }
  env := { waiting.env with host := [.request false 0x50 .zero] } }

theorem test_witness_TrackingNeverCompletes :
    (Idle onePixel ∧ exec (.trTrack ⟨0, 0, 0, 0⟩) onePixel
      = .next (nextOf (exec (.trTrack ⟨0, 0, 0, 0⟩) onePixel))) ∧
    (OneSequencer tracking ∧ tracking.op.cur = some (.trTrack ⟨0, 1, 0, 2⟩) ∧
      tracking.tr.phase ≠ .idle ∧ tracking.op.strobe = false ∧ HostWaits tracking ∧
      step tracking = .next (nextOf (step tracking))) :=
  ⟨⟨⟨rfl, rfl, rfl⟩, eq_nextOf (by decide +kernel)⟩,
    ⟨fun h => absurd rfl h, fun _ => .inr rfl, fun h => absurd rfl h⟩, rfl, by decide, rfl,
    fun m rest h => by cases h; decide, eq_nextOf (by decide)⟩

/-- The reset input asserted. -/
def resetting : State := { waiting with env := { waiting.env with host := [.resetInput] } }

theorem test_witness_BlockResetFromAnyState :
    resetting.op.strobe = false ∧ resetting.env.host = .resetInput :: [] := ⟨rfl, rfl⟩

theorem test_witness_BusyBlockRefusesRequests :
    waitsForIdle (.fbRdpix 0 0) = true ∧ waiting.busy = true := by decide

theorem test_witness_OnlyInitConfigures :
    exec (.fbWrpix 0 0 1) framed = .next (nextOf (exec (.fbWrpix 0 0 1) framed)) :=
  eq_nextOf (by decide)

theorem test_witness_OnlyCommandsMoveTheActuators :
    exec .fgCapture onePixel = .next (nextOf (exec .fgCapture onePixel)) ∧
    exec .blkReset onePixel = .next (nextOf (exec .blkReset onePixel)) :=
  ⟨eq_nextOf (by decide +kernel), rfl⟩

theorem test_witness_OnlyTheseWriteTheFrame :
    exec (.trLocate ⟨0, 1, 0, 1⟩ 105) spot = .next (nextOf (exec (.trLocate ⟨0, 1, 0, 1⟩ 105) spot)) ∧
    spot.cfg.overlay = .identity := ⟨eq_nextOf (by decide +kernel), rfl⟩

theorem test_witness_BusAndVideoAreApart :
    (exec .fgCapture onePixel = .next (nextOf (exec .fgCapture onePixel)) ∧
      onePixel.bus.inflight = none) ∧
    (exec .cWr (opened [true] []) = .next (nextOf (exec .cWr (opened [true] []))) ∧
      (opened [true] []).bus.inflight = none ∧ Instr.cWr = Cmd.instr .wr) :=
  ⟨⟨eq_nextOf (by decide +kernel), rfl⟩, eq_nextOf (by decide), rfl, rfl⟩

/-- A store waiting on the port of a written frame. -/
def storing : State := framed.withFetchWord 8 0x70

/-- For StepKeepsMemoryCanonical, StepKeepsFrameInRange, StepKeepsBusInvariants, StepKeepsOneSequencer,
StepKeepsPositionsInLimits and TracesOnlyGrow: every invariant holds here, and the step answers. -/
theorem test_witness_StepKeepsInvariants :
    Memory.wf storing.fb ∧ (1 ≤ storing.cfg.rows ∧ 1 ≤ storing.cfg.cols ∧ FrameInRange storing) ∧
    TipMatches storing ∧ InitedEnabled storing ∧ OneSequencer storing ∧
    (storing.cfg.Ok ∧ PositionsInLimits storing) ∧ step storing = .next (nextOf (step storing)) :=
  ⟨by unfold Memory.wf; decide, ⟨by decide, by decide, by unfold FrameInRange; decide⟩,
    ⟨fun c h => (nomatch h), by decide⟩, fun h => (nomatch h),
    ⟨fun h => absurd rfl h, fun h => absurd rfl h, fun h => absurd rfl h⟩,
    ⟨test_reference_Ok, by unfold PositionsInLimits; decide +kernel⟩, eq_nextOf (by decide)⟩

theorem test_witness_ResetMeetsTheInvariants : Cfg.reference.Ok := test_reference_Ok

end Sys2Proof.Tests
end

/-! The traces and the configuration (R4, R21, R200; log 1, 26). -/

namespace Sys2Proof.Machine

variable {s t u : State}

/-- `t` carries on the history of `s`: both traces have only grown, under the same configuration. -/
structure Extends (s t : State) : Prop where
  grows : Grows s t
  cfg : t.cfg = s.cfg

theorem Extends.trans (h : Extends s t) (k : Extends t u) : Extends s u :=
  ⟨h.grows.trans k.grows, k.cfg.trans h.cfg⟩

/-- A change that writes no register and puts nothing on the bus. -/
theorem Extends.of_eq (hw : t.bus.wire = s.bus.wire := by rfl) (hio : t.io = s.io := by rfl)
    (hc : t.cfg = s.cfg := by rfl) : Extends s t :=
  ⟨⟨⟨[], by simp [hw]⟩, [], by simp [hio]⟩, hc⟩

theorem tick_extends (h : tick s = .ok (some t)) : Extends s t :=
  have ⟨around, grows⟩ := tick_around h
  ⟨grows, around.cfg⟩

theorem initBus_extends {v : Byte} (h : initBus v s = .ok t) : Extends s t := by
  rw [initBus_eq] at h
  cases h
  exact ⟨⟨⟨[], by simp⟩, _, rfl⟩, rfl⟩

/-- A step only appends to the traces: its only parts that write at all are the ticks and `BM_INIT`. -/
theorem step_extends (h : step s = .next t) : Extends s t :=
  step_keeps (Extends s)
    (quiet := fun _ _ _ e => e.trans .of_eq)
    (hticks := fun _ _ e ht => e.trans (tick_extends ht))
    (xfer := fun _ _ _ _ _ _ _ e => e.trans .of_eq)
    (capture := fun _ _ e => e.trans .of_eq)
    (cycle := fun _ _ e => e.trans .of_eq)
    (tracker := fun _ _ _ _ _ e => e.trans .of_eq)
    (init := fun _ _ _ _ e hi => e.trans (initBus_extends hi))
    (store := fun _ _ _ _ e => e.trans .of_eq)
    (reset := fun _ e => e.trans .of_eq)
    (h := .of_eq) (hst := h)

end Sys2Proof.Machine

/-! The two sides of the block (R2, R120). -/

namespace Sys2Proof.Machine

variable {s t : State} {i : Instr}

/-- With FG and TR idle, what ticks is the bus core or BM, and they leave the video side alone. -/
theorem tick_sameVideo (hf : s.fg.phase = .idle) (ht : s.tr.phase = .idle)
    (h : tick s = .ok (some t)) : SameVideo s t := by
  rcases tick_moved h with ⟨-, moved, -⟩ | ⟨-, -, moved, -⟩ | ⟨-, -, hf', -⟩ | ⟨hi, hb, -, -⟩
  · exact moved.video
  · exact moved.video
  · exact absurd hf hf'
  · rw [tick_idle hi hb hf ht] at h
    cases h

/-- With no command in flight and BM idle, what ticks is FG or TR, and they leave the bus side alone. -/
theorem tick_sameBus (hi : s.bus.inflight = none) (hb : s.bm.phase = .idle)
    (h : tick s = .ok (some t)) : SameBus s t := by
  rcases tick_moved h with ⟨hi', -⟩ | ⟨-, hb', -⟩ | ⟨-, -, -, moved, -⟩ | ⟨-, -, -, moved⟩
  · exact absurd hi hi'
  · exact absurd hb hb'
  · exact moved.video.bus
  · exact moved.video.bus

/-- A run that starts with FG and TR idle leaves the video side alone. -/
theorem resume_sameVideo (hf : s.fg.phase = .idle) (ht : s.tr.phase = .idle)
    (h : resume s = .next t) : SameVideo s t :=
  resume_keeps (SameVideo s)
    (fun _ _ same htick =>
      same.trans (tick_sameVideo (by rw [same.fg, hf]) (by rw [same.tr, ht]) htick))
    (fun _ _ same => same.trans ⟨rfl, rfl, rfl, rfl, rfl, rfl⟩) (.refl s) h

/-- A run that starts with no command in flight and BM idle leaves the bus side alone. -/
theorem resume_sameBus (hi : s.bus.inflight = none) (hb : s.bm.phase = .idle)
    (h : resume s = .next t) : SameBus s t :=
  resume_keeps (SameBus s)
    (fun _ _ same htick =>
      same.trans (tick_sameBus (by rw [same.bus, hi]) (by rw [same.bm, hb]) htick))
    (fun _ _ same => same.trans ⟨rfl, rfl, rfl, rfl⟩) (.refl s) h

/-- An accepted operation whose start leaves the bus side alone leaves it alone to its end. -/
theorem accept_sameBus {start : State → State} (hi : s.bus.inflight = none)
    (hstart : ∀ u, SameBus u (start u)) (h : accept i start s = .next t) : SameBus s t := by
  obtain ⟨idle, run⟩ := accept_next h
  obtain ⟨hb, -, -⟩ := busy_false_iff.1 idle
  have started : SameBus s (start (s.withOp { s.op with cur := some i })) :=
    SameBus.trans (t := s.withOp { s.op with cur := some i }) ⟨rfl, rfl, rfl, rfl⟩ (hstart _)
  exact started.trans (resume_sameBus (by rw [started.bus, hi]) (by rw [started.bm, hb]) run)

/-- An accepted bus operation whose start leaves the video side alone leaves it alone to its end. -/
theorem acceptBus_sameVideo {start : State → State} (hstart : ∀ u, SameVideo u (start u))
    (h : acceptBus i start s = .next t) : SameVideo s t := by
  obtain ⟨idle, -, run⟩ := acceptBus_next h
  obtain ⟨-, hf, ht⟩ := busy_false_iff.1 idle
  have started : SameVideo s (start (s.withOp { s.op with cur := some i })) :=
    SameVideo.trans (t := s.withOp { s.op with cur := some i }) ⟨rfl, rfl, rfl, rfl, rfl, rfl⟩
      (hstart _)
  exact started.trans (resume_sameVideo (by rw [started.fg, hf]) (by rw [started.tr, ht]) run)

theorem startXfer_sameVideo (sub : BmSub) (d stop a : Bool) (x : Byte) (s : State) :
    SameVideo s (startXfer sub d stop a x s) := ⟨rfl, rfl, rfl, rfl, rfl, rfl⟩

theorem startCapture_sameBus (s : State) : SameBus s (startCapture s) := ⟨rfl, rfl, rfl, rfl⟩

theorem startCycle_sameBus (s : State) : SameBus s (startCycle s) := ⟨rfl, rfl, rfl, rfl⟩

theorem trTo_sameBus (p : TrPhase) (s : State) : SameBus s (s.trTo p) := ⟨rfl, rfl, rfl, rfl⟩

theorem execBmInit_sameVideo {v : Byte} (h : execBmInit v s = .next t) : SameVideo s t := by
  unfold execBmInit at h
  rw [initBus_eq] at h
  split at h
  · cases h
  · split at h
    · cases h
    · cases h
      exact ⟨rfl, rfl, rfl, rfl, rfl, rfl⟩

theorem execFbRdpix_sameBus {row col : Int} (h : execFbRdpix row col s = .next t) :
    SameBus s t := by
  unfold execFbRdpix at h
  split at h
  · cases h
  · split at h <;> cases h
    exact ⟨rfl, rfl, rfl, rfl⟩

theorem execFbWrpix_sameBus {row col : Int} {v : Byte} (h : execFbWrpix row col v s = .next t) :
    SameBus s t := by
  unfold execFbWrpix at h
  split at h <;> cases h
  exact ⟨rfl, rfl, rfl, rfl⟩

/-- A command byte, completed or left in flight, leaves the video side alone (R81, R82). -/
theorem busCommand_sameVideo {c : Cmd} (h : busCommand c s = .next t) : SameVideo s t := by
  unfold busCommand at h
  rw [ioWrite_cmd] at h
  split at h <;> cases h
  rename_i u hu
  have written : SameVideo s u := (cmdWrite_moved hu).1.video
  cases hk : coreTick true u with
  | none => exact written
  | some v => exact written.trans (coreTick_moved hk).1.video

theorem exec_cmd (c : Cmd) (s : State) : exec c.instr s = busCommand c s := by
  cases c <;> rfl

theorem execAddrByte_sameVideo {addr : BitVec 7} {d : Bool} (h : execAddrByte addr d s = .next t) :
    SameVideo s t := by
  unfold execAddrByte at h
  split at h <;> cases h
  rename_i hw
  obtain ⟨-, rfl⟩ := ioWrite_data_moved hw
  exact ⟨rfl, rfl, rfl, rfl, rfl, rfl⟩

end Sys2Proof.Machine

/-! At most one sequencer at work (R7, R33). -/

namespace Sys2Proof.Machine

variable {s t : State}

/-- With BM idle no command is in flight: BM waits for none. -/
theorem OneSequencer.inflight_none (h : OneSequencer s) (hb : s.bm.phase = .idle) :
    s.bus.inflight = none := by
  obtain ⟨-, -, flying⟩ := h
  by_contra hi
  rcases flying hi with hw | hw <;> simp [hb] at hw

/-- With BM idle and no command in flight, what is left to say is that FG and TR agree. -/
theorem OneSequencer.of_bm_idle (hb : s.bm.phase = .idle) (hi : s.bus.inflight = none)
    (hv : s.fg.phase ≠ .idle → s.tr.phase = .idle ∨ s.tr.phase = .capture) : OneSequencer s :=
  ⟨fun h => absurd hb h, hv, fun h => absurd hi h⟩

/-- With FG and TR idle, what is left to say is that a command in flight is one BM waits for. -/
theorem OneSequencer.of_video_idle (hf : s.fg.phase = .idle) (ht : s.tr.phase = .idle)
    (hi : s.bus.inflight ≠ none → s.bm.phase = .addrWait ∨ s.bm.phase = .dataWait) :
    OneSequencer s :=
  ⟨fun _ => ⟨hf, ht⟩, fun h => absurd hf h, hi⟩

/-- The invariant reads the three phases and the command in flight, and nothing else. -/
theorem OneSequencer.congr (h : OneSequencer s) (hbm : t.bm.phase = s.bm.phase := by rfl)
    (hfg : t.fg.phase = s.fg.phase := by rfl) (htr : t.tr.phase = s.tr.phase := by rfl)
    (hbus : t.bus.inflight = s.bus.inflight := by rfl) : OneSequencer t := by
  unfold OneSequencer
  rw [hbm, hfg, htr, hbus]
  exact h

/-- A tick is of one agent, and only the tracker's, at the end of a cycle, sets another one going. -/
theorem OneSequencer.of_tick (h : OneSequencer s) (ht : tick s = .ok (some t)) : OneSequencer t := by
  obtain ⟨alone, pair, -⟩ := h
  rcases tick_moved ht with ⟨-, moved, hbm, -, hi, -⟩ | ⟨-, hb, moved, flying⟩ |
    ⟨hi, hb, hf, moved, -⟩ | ⟨hi, hb, hf, moved⟩
  · obtain ⟨hfg, -, htr, -⟩ := moved.video
    refine ⟨?_, ?_, fun h => absurd hi h⟩
    · rwa [hbm, hfg, htr]
    · rwa [hfg, htr]
  · obtain ⟨hf, htr⟩ := alone hb
    refine .of_video_idle (by rw [moved.video.fg, hf]) (by rw [moved.video.tr, htr]) ?_
    rcases flying with ⟨-, -, -, -, waits⟩ | ⟨hi, -⟩
    · exact fun _ => waits
    · exact fun h => absurd hi h
  · obtain ⟨hbm, hbus, -⟩ := moved.video.bus
    refine .of_bm_idle (by rw [hbm, hb]) (by rw [hbus, hi]) fun _ => ?_
    rw [moved.tr]
    exact pair hf
  · obtain ⟨hbm, hbus, -⟩ := moved.video.bus
    refine .of_bm_idle (by rw [hbm, hb]) (by rw [hbus, hi]) fun hf' => ?_
    rcases moved.grabber with hfg | ⟨-, -, hcap⟩
    · exact absurd (hfg ▸ hf) hf'
    · exact .inr hcap

/-- A step keeps it: its ticks by `of_tick`, and a request starts one sequencer of a block in which BM,
FG and TR are idle and so no command is in flight. -/
theorem OneSequencer.of_step (h : OneSequencer s) (hst : step s = .next t) : OneSequencer t :=
  step_keeps OneSequencer
    (quiet := fun _ _ _ h => h.congr)
    (hticks := fun _ _ h ht => h.of_tick ht)
    (xfer := fun _ _ _ _ _ _ idle h => by
      obtain ⟨hb, hf, ht⟩ := busy_false_iff.1 idle
      exact .of_video_idle hf ht fun hi => absurd (h.inflight_none hb) hi)
    (capture := fun _ idle h => by
      obtain ⟨hb, -, ht⟩ := busy_false_iff.1 idle
      exact .of_bm_idle hb (h.inflight_none hb) fun _ => .inl ht)
    (cycle := fun _ idle h => by
      obtain ⟨hb, -, -⟩ := busy_false_iff.1 idle
      exact .of_bm_idle hb (h.inflight_none hb) fun _ => .inr rfl)
    (tracker := fun _ _ _ _ idle h => by
      obtain ⟨hb, hf, -⟩ := busy_false_iff.1 idle
      exact .of_bm_idle hb (h.inflight_none hb) fun hf' => absurd hf hf')
    (init := fun _ _ _ _ h hi => by
      rw [initBus_eq] at hi
      cases hi
      exact h.congr)
    (store := fun _ _ _ _ h => h.congr)
    (reset := fun _ _ => .of_bm_idle rfl rfl fun hf => absurd rfl hf)
    (h := h) (hst := hst)

end Sys2Proof.Machine

/-! The state after reset (R31). -/

namespace Sys2Proof.Machine

variable (c : Cfg)

theorem resetWith_tipMatches : TipMatches (State.resetWith c) :=
  ⟨fun _ h => (nomatch h), by simp [State.resetWith, BusCore.reset]⟩

theorem resetWith_initedEnabled : InitedEnabled (State.resetWith c) := fun h => (nomatch h)

theorem resetWith_oneSequencer : OneSequencer (State.resetWith c) :=
  .of_bm_idle rfl rfl fun hf => absurd rfl hf

/-- The homes lie within the travel limits (R4), and the last positions start there (R31). -/
theorem resetWith_positionsInLimits (ok : c.Ok) : PositionsInLimits (State.resetWith c) :=
  ⟨ok.panHome.1, ok.panHome.2, ok.tiltHome.1, ok.tiltHome.2⟩

end Sys2Proof.Machine

/-! The obligations. -/

section

open Sys2Proof Sys2Proof.Machine

/-- Settles O59: every part of a step extends the history of the state it starts from. -/
theorem tracesOnlyGrow : Obligations.TracesOnlyGrow := by
  intro s t h
  obtain ⟨⟨wire, io⟩, cfg⟩ := step_extends h
  exact ⟨wire, io, cfg⟩

/-- Settles O53: each instruction is started on its own side, and from there only that side ticks. -/
theorem busAndVideoAreApart : Obligations.BusAndVideoAreApart := by
  intro i s t h hi
  constructor
  · intro video
    suffices same : SameBus s t from ⟨same.bm, same.bus⟩
    rcases video with rfl | ⟨r, c, rfl⟩ | ⟨r, c, v, rfl⟩ | ⟨roi, rfl⟩ | ⟨roi, thr, rfl⟩ |
      ⟨box, c, rfl⟩ | ⟨pe, te, lp, lt, rfl⟩ | ⟨roi, rfl⟩ | ⟨roi, rfl⟩
    · exact accept_sameBus hi startCapture_sameBus h
    · exact execFbRdpix_sameBus h
    · exact execFbWrpix_sameBus h
    · exact accept_sameBus hi (trTo_sameBus .threshold) h
    · exact accept_sameBus hi (trTo_sameBus .rowPass) h
    · exact accept_sameBus hi (trTo_sameBus .error) h
    · exact accept_sameBus hi (trTo_sameBus .command) h
    · exact accept_sameBus hi startCycle_sameBus h
    · exact accept_sameBus hi startCycle_sameBus h
  · intro bus
    suffices same : SameVideo s t from ⟨same.fg, same.fb, same.tr, same.act⟩
    rcases bus with ⟨v, rfl⟩ | ⟨d, stop, a, x, rfl⟩ | ⟨sub, val, rfl⟩ | ⟨sub, rfl⟩ | ⟨c, rfl⟩ |
      ⟨addr, d, rfl⟩
    · exact execBmInit_sameVideo h
    · exact acceptBus_sameVideo (startXfer_sameVideo .none d stop a x) h
    · exact acceptBus_sameVideo (startXfer_sameVideo .first false false true sub) h
    · exact acceptBus_sameVideo (startXfer_sameVideo .first false false true sub) h
    · exact busCommand_sameVideo (exec_cmd c s ▸ h)
    · exact execAddrByte_sameVideo h

/-- Settles O57: a start finds the block idle, and a tick hands over to at most one other sequencer. -/
theorem stepKeepsOneSequencer : Obligations.StepKeepsOneSequencer := by
  intro s t h hst
  exact h.of_step hst

/-- Settles O60, invariant by invariant. -/
theorem resetMeetsTheInvariants : Obligations.ResetMeetsTheInvariants := fun c ok =>
  ⟨Memory.wf_nil, fun _ h => (nomatch h), resetWith_tipMatches c, resetWith_initedEnabled c,
    resetWith_oneSequencer c, resetWith_positionsInLimits c ok⟩

end

/-! What keeps the frame, and the canonical form of it (R25, R142). -/

namespace Sys2Proof.Machine

variable {s t : State} {i : Instr}

/-- A tick changes the frame buffer by stores through the accessor only: what such a store keeps of a
frame buffer, a tick keeps. -/
theorem tick_frame (P : List Host.Cell → Prop) (hs : P s.fb)
    (hw : ∀ m row col v, P m → P (Memory.write m (pixAddr s.cfg row col) v))
    (h : tick s = .ok (some t)) : P t.fb := by
  rcases tick_moved h with ⟨-, moved, -⟩ | ⟨-, -, moved, -⟩ | ⟨-, -, -, -, hfb⟩ | ⟨-, -, -, moved⟩
  · rwa [moved.video.fb]
  · rwa [moved.video.fb]
  · rcases hfb with hfb | ⟨row, col, v, hfb⟩
    · rwa [hfb]
    · rw [hfb]
      exact hw _ row col v hs
  · exact moved.frame P hs hw

/-- The canonical form is kept by every step: what changes the frame is a store, or a reset that empties
it. -/
theorem Memory.wf_of_step (h : Memory.wf s.fb) (hst : step s = .next t) : Memory.wf t.fb :=
  step_keeps (fun s => Memory.wf s.fb)
    (quiet := fun _ _ _ h => h)
    (hticks := fun _ _ h ht => tick_frame Memory.wf h (fun _ _ _ v h => Memory.write_wf h _ v) ht)
    (xfer := fun _ _ _ _ _ _ _ h => h)
    (capture := fun _ _ h => h)
    (cycle := fun _ _ h => h)
    (tracker := fun _ _ _ _ _ h => h)
    (init := fun _ _ _ _ h hi => by
      rw [initBus_eq] at hi
      cases hi
      exact h)
    (store := fun _ _ _ v h => Memory.write_wf h _ v)
    (reset := fun _ _ => Memory.wf_nil)
    (h := h) (hst := hst)

end Sys2Proof.Machine

/-! The bus invariants (R20, R21, R90). -/

namespace Sys2Proof.Machine

variable {s t : State} {i : Instr}

/-- Nothing in flight and `TIP` down. -/
theorem TipMatches.of_none (hi : s.bus.inflight = none) (ht : s.bus.tip = false) : TipMatches s :=
  ⟨by simp [hi], by simp [hi, ht]⟩

/-- A command that moves a byte in flight and `TIP` up. -/
theorem TipMatches.of_some {c : Cmd} (hm : c.moves = true) (hi : s.bus.inflight = some c)
    (ht : s.bus.tip = true) : TipMatches s :=
  ⟨fun d hd => by rw [hi] at hd; cases hd; exact hm, by simp [hi, ht]⟩

theorem TipMatches.congr (h : TipMatches s) (hi : t.bus.inflight = s.bus.inflight := by rfl)
    (ht : t.bus.tip = s.bus.tip := by rfl) : TipMatches t := by
  unfold TipMatches
  rwa [hi, ht]

theorem TipMatches.tip_false (h : TipMatches s) (hi : s.bus.inflight = none) : s.bus.tip = false := by
  simpa [hi] using h.2

/-- What leaves alone what `BM_INIT` configured keeps an initialised core enabled. -/
theorem InitedEnabled.congr (h : InitedEnabled s) (same : SameInit s t) : InitedEnabled t := by
  unfold InitedEnabled State.enabled
  rw [same.inited, same.ctrl]
  exact h

/-- No tick configures the bus. -/
theorem tick_sameInit (h : tick s = .ok (some t)) : SameInit s t := by
  rcases tick_moved h with ⟨-, moved, -⟩ | ⟨-, -, moved, -⟩ | ⟨-, -, -, moved, -⟩ | ⟨-, -, -, moved⟩
  · exact moved.init
  · exact moved.init
  · exact moved.video.bus.init
  · exact moved.video.bus.init

/-- The core's tick ends the command, a tick of BM writes one or none, and the video side touches no
register of the bus core. -/
theorem TipMatches.of_tick (h : TipMatches s) (ht : tick s = .ok (some t)) : TipMatches t := by
  rcases tick_moved ht with ⟨-, -, -, -, hi, htip⟩ | ⟨hi, -, -, hw⟩ | ⟨-, -, -, moved, -⟩ |
    ⟨-, -, -, moved⟩
  · exact .of_none hi htip
  · rcases hw with ⟨c, hm, hi', htip, -⟩ | ⟨hi', htip⟩
    · exact .of_some hm hi' htip
    · exact .of_none hi' (htip.trans (h.tip_false hi))
  · exact h.congr (by rw [moved.video.bus.bus]) (by rw [moved.video.bus.bus])
  · exact h.congr (by rw [moved.video.bus.bus]) (by rw [moved.video.bus.bus])

theorem TipMatches.of_step (h : TipMatches s) (hst : step s = .next t) : TipMatches t :=
  step_keeps TipMatches
    (quiet := fun _ _ _ h => h.congr)
    (hticks := fun _ _ h ht => h.of_tick ht)
    (xfer := fun _ _ _ _ _ _ _ h => h.congr)
    (capture := fun _ _ h => h.congr)
    (cycle := fun _ _ h => h.congr)
    (tracker := fun _ _ _ _ _ h => h.congr)
    (init := fun _ _ _ _ h hi => by
      rw [initBus_eq] at hi
      cases hi
      exact h.congr)
    (store := fun _ _ _ _ h => h.congr)
    (reset := fun _ _ => .of_none rfl rfl)
    (h := h) (hst := hst)

/-- `BM_INIT` raises both bits and a reset takes `BM.inited` down; nothing else writes either. -/
theorem InitedEnabled.of_step (h : InitedEnabled s) (hst : step s = .next t) : InitedEnabled t :=
  step_keeps InitedEnabled
    (quiet := fun _ _ _ h => h)
    (hticks := fun _ _ h ht => h.congr (tick_sameInit ht))
    (xfer := fun _ _ _ _ _ _ _ h => h)
    (capture := fun _ _ h => h)
    (cycle := fun _ _ h => h)
    (tracker := fun _ _ _ _ _ h => h)
    (init := fun _ _ _ _ _ hi => by
      rw [initBus_eq] at hi
      cases hi
      exact fun _ => (by decide : (0x80#8).getLsbD 7 = true))
    (store := fun _ _ _ _ h => h)
    (reset := fun _ _ hinit => (nomatch hinit))
    (h := h) (hst := hst)

end Sys2Proof.Machine

/-! The last commanded positions (R157). -/

namespace Sys2Proof.Machine

variable {s t : State} {i : Instr}

theorem newPan_mem {c : Cfg} (ok : c.Ok) (pe : Int) (lp : Pos) :
    c.panMin ≤ newPan c pe lp ∧ newPan c pe lp ≤ c.panMax :=
  clampPos_mem ok.panLimits.2.1

theorem newTilt_mem {c : Cfg} (ok : c.Ok) (te : Int) (lt : Pos) :
    c.tiltMin ≤ newTilt c te lt ∧ newTilt c te lt ≤ c.tiltMax :=
  clampPos_mem ok.tiltLimits.2.1

/-- The last positions and the actuator registers of `t` are those of `s`. -/
structure Unmoved (s t : State) : Prop where
  act : t.act = s.act
  lastPan : t.tr.lastPan = s.tr.lastPan
  lastTilt : t.tr.lastTilt = s.tr.lastTilt

theorem Unmoved.refl (s : State) : Unmoved s s := ⟨rfl, rfl, rfl⟩

theorem Unmoved.trans {u : State} (h : Unmoved s t) (k : Unmoved t u) : Unmoved s u :=
  ⟨k.act.trans h.act, k.lastPan.trans h.lastPan, k.lastTilt.trans h.lastTilt⟩

theorem SameVideo.unmoved (h : SameVideo s t) : Unmoved s t :=
  ⟨h.act, by rw [h.tr], by rw [h.tr]⟩

/-- Only the `Command` phase of TR moves anything. -/
theorem tick_unmoved (hp : s.tr.phase ≠ .command) (h : tick s = .ok (some t)) : Unmoved s t := by
  rcases tick_moved h with ⟨-, moved, -⟩ | ⟨-, -, moved, -⟩ | ⟨-, -, -, moved, -⟩ | ⟨-, -, -, moved⟩
  · exact moved.video.unmoved
  · exact moved.video.unmoved
  · exact ⟨moved.act, by rw [moved.tr], by rw [moved.tr]⟩
  · obtain ⟨hact, hpan, htilt, -⟩ := moved.quiet hp
    exact ⟨hact, hpan, htilt⟩

/-- A tick moves nothing, or it is TR's and commands new positions. -/
theorem tick_positions (h : tick s = .ok (some t)) :
    Unmoved s t ∨ ∃ pe te lp lt, t.tr.lastPan = newPan s.cfg pe lp ∧
      t.tr.lastTilt = newTilt s.cfg te lt := by
  rcases tick_moved h with ⟨-, moved, -⟩ | ⟨-, -, moved, -⟩ | ⟨-, -, -, moved, -⟩ | ⟨-, -, -, moved⟩
  · exact .inl moved.video.unmoved
  · exact .inl moved.video.unmoved
  · exact .inl ⟨moved.act, by rw [moved.tr], by rw [moved.tr]⟩
  · by_cases hp : s.tr.phase = .command
    · obtain ⟨pe, te, lp, lt, hpan, htilt, -⟩ := moved.commanded hp
      exact .inr ⟨pe, te, lp, lt, hpan, htilt⟩
    · exact .inl (tick_unmoved hp h)

theorem PositionsInLimits.of_tick (ok : s.cfg.Ok) (h : PositionsInLimits s)
    (ht : tick s = .ok (some t)) : PositionsInLimits t := by
  unfold PositionsInLimits
  rw [(tick_around ht).1.cfg]
  rcases tick_positions ht with ⟨-, hpan, htilt⟩ | ⟨pe, te, lp, lt, hpan, htilt⟩ <;> rw [hpan, htilt]
  · exact h
  · obtain ⟨h1, h2⟩ := newPan_mem ok pe lp
    obtain ⟨h3, h4⟩ := newTilt_mem ok te lt
    exact ⟨h1, h2, h3, h4⟩

/-- A command clamps to the limits and a reset goes to the homes, which lie within them (R4). -/
theorem PositionsInLimits.of_step (ok : s.cfg.Ok) (h : PositionsInLimits s)
    (hst : step s = .next t) : PositionsInLimits t :=
  (step_keeps (fun s => s.cfg.Ok ∧ PositionsInLimits s)
    (quiet := fun _ _ _ h => h)
    (hticks := fun _ _ h ht => ⟨(tick_around ht).1.cfg ▸ h.1, h.2.of_tick h.1 ht⟩)
    (xfer := fun _ _ _ _ _ _ _ h => h)
    (capture := fun _ _ h => h)
    (cycle := fun _ _ h => h)
    (tracker := fun _ _ _ _ _ h => h)
    (init := fun _ _ _ _ h hi => by
      rw [initBus_eq] at hi
      cases hi
      exact h)
    (store := fun _ _ _ _ h => h)
    (reset := fun _ h => ⟨h.1, h.1.panHome.1, h.1.panHome.2, h.1.tiltHome.1, h.1.tiltHome.2⟩)
    (h := ⟨ok, h⟩) (hst := hst)).2

end Sys2Proof.Machine

/-! Who may do what: an instruction that configures, moves or stores nothing (R11, R25, R27). -/

namespace Sys2Proof.Machine

variable {s t : State} {i : Instr}

/-- No operation configures the bus as it is started. -/
theorem Started.sameInit {start : State → State} (h : Started i start) (s : State) (x : Port) :
    SameInit s (start (s.withOp x)) := by
  cases h <;> exact ⟨rfl, rfl, rfl, rfl, rfl⟩

/-- No operation moves anything as it is started. -/
theorem Started.unmoved {start : State → State} (h : Started i start) (s : State) (x : Port) :
    Unmoved s (start (s.withOp x)) := by
  cases h <;> exact ⟨rfl, rfl, rfl⟩

/-- No operation stores as it is started. -/
theorem Started.fb {start : State → State} (h : Started i start) (s : State) (x : Port) :
    (start (s.withOp x)).fb = s.fb := by
  cases h <;> rfl

/-- A command byte leaves alone what `BM_INIT` configured. -/
theorem busCommand_sameInit {c : Cmd} (h : busCommand c s = .next t) : SameInit s t := by
  unfold busCommand at h
  rw [ioWrite_cmd] at h
  split at h <;> cases h
  rename_i u hu
  have written : SameInit s u := (cmdWrite_moved hu).1.init
  cases hk : coreTick true u with
  | none => exact written
  | some v => exact written.trans (coreTick_moved hk).1.init

/-- The run of an operation configures nothing. -/
theorem resume_sameInit (h : resume s = .next t) : SameInit s t :=
  resume_keeps (SameInit s) (fun _ _ same ht => same.trans (tick_sameInit ht))
    (fun _ _ same => same.trans ⟨rfl, rfl, rfl, rfl, rfl⟩) (.refl s) h

/-- Every instruction but `BM_INIT` and a reset leaves alone what `BM_INIT` configured. -/
theorem exec_sameInit (hi : ∀ v, i ≠ .bmInit v) (hr : i ≠ .blkReset) (h : exec i s = .next t) :
    SameInit s t := by
  rcases exec_next h with served | ⟨c, -, hc⟩ | ⟨addr, d, -, hw⟩
  · cases served with
    | ran start _ how run => exact (how.sameInit _ _).trans (resume_sameInit run)
    | inited v what => exact absurd what (hi v)
    | loaded _ _ _ _ _ eq => subst eq; exact ⟨rfl, rfl, rfl, rfl, rfl⟩
    | stored _ _ _ _ _ eq => subst eq; exact ⟨rfl, rfl, rfl, rfl, rfl⟩
    | reset what => exact absurd what hr
  · exact busCommand_sameInit hc
  · obtain ⟨-, rfl⟩ := ioWrite_data_moved hw
    exact ⟨rfl, rfl, rfl, rfl, rfl⟩

/-- A tick of an operation that is no cycle: the operation stays none, and the tracker stays in its
phase, ends, or goes on inside a threshold or a locate. -/
theorem tick_flow (hc : isCycle s.op.cur = false) (h : tick s = .ok (some t)) :
    isCycle t.op.cur = false ∧
      (t.tr.phase = s.tr.phase ∨ t.tr.phase = .idle ∨
        (s.tr.phase = .capture ∧ t.tr.phase = .threshold) ∨
        (s.tr.phase = .rowPass ∧ t.tr.phase = .colPass)) := by
  have keeps : t.op.cur = s.op.cur ∨ t.op.cur = none → isCycle t.op.cur = false := by
    rintro (e | e) <;> rw [e]
    · exact hc
    · rfl
  rcases tick_cases s with ⟨-, hk⟩ | ⟨hi, -, hk⟩ | ⟨-, -, -, hk⟩ | ⟨-, -, -, hk⟩ <;> rw [hk] at h
  · have moved := (coreTick_moved (Except.ok.inj h)).1
    exact ⟨keeps moved.cur, .inl (by rw [moved.video.tr])⟩
  · have moved := (bmTick_moved h hi).1
    exact ⟨keeps moved.cur, .inl (by rw [moved.video.tr])⟩
  · have moved := (fgTick_moved (Except.ok.inj h)).1
    exact ⟨keeps ((fgTick_flow (Except.ok.inj h)).imp_right And.right), .inl (by rw [moved.tr])⟩
  · rcases trTick_flow h with ⟨hcur, -, goes⟩ | ⟨hcur, hp, -⟩
    · exact ⟨keeps (.inl hcur), .inr (.inr (goes hc))⟩
    · exact ⟨keeps (.inr hcur), .inr (.inl hp)⟩

/-- A run that starts outside the `Command` phase, for no cycle, moves nothing. -/
theorem resume_unmoved (hc : isCycle s.op.cur = false) (hp : s.tr.phase ≠ .command)
    (h : resume s = .next t) : Unmoved s t :=
  (resume_keeps (fun u => isCycle u.op.cur = false ∧ u.tr.phase ≠ .command ∧ Unmoved s u)
    (fun u v ⟨hc, hp, same⟩ ht => by
      obtain ⟨hc', goes⟩ := tick_flow hc ht
      refine ⟨hc', ?_, same.trans (tick_unmoved hp ht)⟩
      rcases goes with e | e | ⟨-, e⟩ | ⟨-, e⟩ <;> rw [e]
      · exact hp
      all_goals simp)
    (fun _ _ ⟨hc, hp, same⟩ => ⟨hc, hp, same.trans ⟨rfl, rfl, rfl⟩⟩) ⟨hc, hp, .refl s⟩ h).2.2

/-- Every instruction but `TR_COMMAND`, the two cycles and a reset moves nothing. -/
theorem exec_unmoved (hcmd : ∀ pe te lp lt, i ≠ .trCommand pe te lp lt)
    (hsnap : ∀ roi, i ≠ .trSnapshot roi) (htrack : ∀ roi, i ≠ .trTrack roi) (hr : i ≠ .blkReset)
    (h : exec i s = .next t) : Unmoved s t := by
  rcases exec_next h with served | ⟨c, -, hc⟩ | ⟨addr, d, -, hw⟩
  · cases served with
    | ran start idle how run =>
      obtain ⟨-, -, ht⟩ := busy_false_iff.1 idle
      refine (how.unmoved _ _).trans (resume_unmoved ?_ ?_ run)
      · cases how with
        | snapshot roi => exact absurd rfl (hsnap roi)
        | track roi => exact absurd rfl (htrack roi)
        | _ => rfl
      · cases how with
        | command pe te lp lt => exact absurd rfl (hcmd pe te lp lt)
        | xfer | regwr | regrd | capture => exact ht ▸ (by simp)
        | _ => simp [State.trTo, startCycle]
    | inited v _ _ _ eq => rw [initBus_eq] at eq; cases eq; exact ⟨rfl, rfl, rfl⟩
    | loaded _ _ _ _ _ eq => subst eq; exact ⟨rfl, rfl, rfl⟩
    | stored _ _ _ _ _ eq => subst eq; exact ⟨rfl, rfl, rfl⟩
    | reset what => exact absurd what hr
  · exact (busCommand_sameVideo hc).unmoved
  · obtain ⟨-, rfl⟩ := ioWrite_data_moved hw
    exact ⟨rfl, rfl, rfl⟩

/-- No operation can store: no capture runs and none is coming, and the column pass, whose overlay may
store, is not running or to come, unless the overlay is the identity. -/
structure Storeless (s : State) : Prop where
  noCycle : isCycle s.op.cur = false
  noCapture : s.fg.phase = .idle
  noOverlay : s.cfg.overlay = .identity ∨ (s.tr.phase ≠ .rowPass ∧ s.tr.phase ≠ .colPass)

/-- Then a tick leaves the frame buffer, and there is still nothing that can store. -/
theorem Storeless.of_tick (h : Storeless s) (ht : tick s = .ok (some t)) :
    Storeless t ∧ t.fb = s.fb := by
  obtain ⟨hc, hf, ho⟩ := h
  obtain ⟨hc', goes⟩ := tick_flow hc ht
  have overlay : t.cfg.overlay = .identity ∨ (t.tr.phase ≠ .rowPass ∧ t.tr.phase ≠ .colPass) := by
    rw [(tick_around ht).1.cfg]
    refine ho.imp_right fun ⟨hrow, hcol⟩ => ?_
    rcases goes with e | e | ⟨-, e⟩ | ⟨e, -⟩
    · rw [e]
      exact ⟨hrow, hcol⟩
    · simp [e]
    · simp [e]
    · exact absurd e hrow
  suffices same : t.fg.phase = .idle ∧ t.fb = s.fb from ⟨⟨hc', same.1, overlay⟩, same.2⟩
  rcases tick_moved ht with ⟨-, moved, -⟩ | ⟨-, -, moved, -⟩ | ⟨-, -, hf', -⟩ | ⟨-, -, -, moved⟩
  · exact ⟨by rw [moved.video.fg, hf], moved.video.fb⟩
  · exact ⟨by rw [moved.video.fg, hf], moved.video.fb⟩
  · exact absurd hf hf'
  · constructor
    · rcases moved.grabber with hfg | ⟨hp, -, hcap⟩
      · rw [hfg, hf]
      · simp [hp, hcap] at goes
    · rcases ho with ho | ⟨-, hcol⟩
      · exact moved.identity ho
      · exact moved.still hcol

theorem Storeless.of_resume (hs : Storeless s) (h : resume s = .next t) : t.fb = s.fb :=
  (resume_keeps (fun u => Storeless u ∧ u.fb = s.fb)
    (fun _ _ ⟨hu, hfb⟩ ht => ⟨(hu.of_tick ht).1, (hu.of_tick ht).2.trans hfb⟩)
    (fun _ _ ⟨⟨hc, hf, ho⟩, hfb⟩ => ⟨⟨hc, hf, ho⟩, hfb⟩) ⟨hs, rfl⟩ h).2

/-- Every other instruction leaves the frame. -/
theorem exec_sameFrame (hcap : i ≠ .fgCapture) (hwr : ∀ r c v, i ≠ .fbWrpix r c v)
    (hr : i ≠ .blkReset) (hsnap : ∀ roi, i ≠ .trSnapshot roi) (htrack : ∀ roi, i ≠ .trTrack roi)
    (hloc : ∀ roi thr, i = .trLocate roi thr → s.cfg.overlay = .identity)
    (h : exec i s = .next t) : t.fb = s.fb := by
  rcases exec_next h with served | ⟨c, -, hc⟩ | ⟨addr, d, -, hw⟩
  · cases served with
    | ran start idle how run =>
      obtain ⟨-, hf, ht⟩ := busy_false_iff.1 idle
      refine (Storeless.of_resume ?_ run).trans (how.fb _ _)
      cases how with
      | capture => exact absurd rfl hcap
      | snapshot roi => exact absurd rfl (hsnap roi)
      | track roi => exact absurd rfl (htrack roi)
      | locate roi thr => exact ⟨rfl, hf, .inl (hloc roi thr rfl)⟩
      | xfer | regwr | regrd => exact ⟨rfl, hf, .inr (by simp [startXfer, ht])⟩
      | threshold | error | command => exact ⟨rfl, hf, .inr (by simp [State.trTo])⟩
    | inited v _ _ _ eq => rw [initBus_eq] at eq; cases eq; rfl
    | loaded _ _ _ _ _ eq => subst eq; rfl
    | stored r c v what => exact absurd what (hwr r c v)
    | reset what => exact absurd what hr
  · exact (busCommand_sameVideo hc).fb
  · obtain ⟨-, rfl⟩ := ioWrite_data_moved hw
    rfl

end Sys2Proof.Machine

/-! The port, the refusals, the reset (R28, R60, R200, R212). -/

namespace Sys2Proof.Machine

variable {s t : State} {i : Instr}

theorem Rect.ok_value (r : RectRegs) : r.value.ok = true := by
  simp [Rect.ok, RectRegs.value, coordOk_toInt]

/-- What the operand registers give an operation fits them (R62, R68). -/
theorem decodeOperation_wellFormed {w : Byte} {x : Operands} (h : decodeOperation w x = .ok i) :
    wellFormed i = true := by
  have plain : ∀ {f : BitVec 4} {j : Instr}, plainOp f j = .ok i → wellFormed j = true →
      wellFormed i = true := by
    intro f j h hj
    unfold plainOp at h
    split at h <;> cases h
    exact hj
  unfold decodeOperation at h
  simp only at h
  split at h
  case h_2 => split at h <;> cases h; rfl
  case h_15 => cases h
  all_goals
    exact plain h (by simp [wellFormed, Point.ok, coordOk_toInt, Rect.ok_value])

/-- A request on the port is served by what it decodes to. -/
theorem step_serves (hs : s.op.strobe = true) (hd : decode (portPacket s) = .ok i) :
    step s = exec i (clearStrobe s) := by
  unfold step
  rw [if_pos hs, hd]

/-- With no request on the port, a move of the host that lands is the step. -/
theorem step_hostMove {m : HostMove} {rest : List HostMove} (hs : s.op.strobe = false)
    (hh : s.env.host = m :: rest) (hm : moveLands m s = true) :
    step s = .next (hostMove m rest s) := by
  unfold step runOn
  rw [if_neg (by simp [hs]), hh]
  exact if_pos hm

/-- An idle block with no command in flight takes the host's next request, early or not (R212). -/
theorem moveLands_request (early : Bool) (w : Byte) (x : Operands) (hb : s.busy = false)
    (hi : s.bus.inflight = none) : moveLands (.request early w x) s = true := by
  simp [moveLands, hb, hi]

/-- The step after a request is put on the port serves it. -/
theorem step_hostRequest {early : Bool} {w : Byte} {x : Operands} {rest : List HostMove}
    (hs : s.op.strobe = false) (hd : decode ⟨.operation, w, x⟩ = .ok i) :
    step (hostMove (.request early w x) rest s) = exec i { s with
      op := { s.op with word := w, args := x }, env := { s.env with host := rest } } := by
  have served : clearStrobe (hostMove (.request early w x) rest s) = { s with
      op := { s.op with word := w, args := x }, env := { s.env with host := rest } } := by
    simp [clearStrobe, hostMove, putRequest, State.withOp, State.withEnv, hs]
  rw [step_serves (s := hostMove (.request early w x) rest s) rfl hd, served]

theorem accept_busy (start : State → State) (hb : s.busy = true) :
    accept i start s = .refused .busy := if_pos hb

theorem acceptBus_busy (start : State → State) (hb : s.busy = true) :
    acceptBus i start s = .refused .busy := if_pos hb

/-- A busy block refuses every operation that waits for it (U9). -/
theorem exec_busy (hi : waitsForIdle i = true) (hb : s.busy = true) :
    exec i s = .refused .busy := by
  cases i with
  | bmInit v => exact if_pos hb
  | bmXfer d stop a x => exact acceptBus_busy _ hb
  | bmRegwr sub val => exact acceptBus_busy _ hb
  | bmRegrd sub => exact acceptBus_busy _ hb
  | fgCapture => exact accept_busy _ hb
  | fbRdpix row col => exact if_pos hb
  | fbWrpix row col v => exact if_pos hb
  | trUpdthr roi => exact accept_busy _ hb
  | trLocate roi thr => exact accept_busy _ hb
  | trError box c => exact accept_busy _ hb
  | trCommand pe te lp lt => exact accept_busy _ hb
  | trSnapshot roi => exact accept_busy _ hb
  | trTrack roi => exact accept_busy _ hb
  | _ => cases hi

end Sys2Proof.Machine

/-! The policies of a command write, and the address byte (R17, R66, R81, U1, U2, U4). -/

namespace Sys2Proof.Machine

variable {s t : State} {c : Cmd}

theorem busCommand_ok (h : cmdWrite c s = .ok t) :
    busCommand c s = .next ((coreTick true t).getD t) := by
  rw [busCommand, ioWrite_cmd, h]

theorem busCommand_refused {r : Refusal} (h : cmdWrite c s = .error r) :
    busCommand c s = .refused r := by
  rw [busCommand, ioWrite_cmd, h]

theorem cmdWrite_disabled (he : s.enabled = false) (hp : s.cfg.disabledCore = .refuse) :
    cmdWrite c s = .error .coreDisabled := by
  rw [cmdWrite, if_pos he, hp]

theorem cmdWrite_ignored (he : s.enabled = false) (hp : s.cfg.disabledCore = .ignore) :
    cmdWrite c s = .ok (s.logged (.cmd c.byte)) := by
  rw [cmdWrite, if_pos he, hp]

theorem cmdWrite_inFlight (he : s.enabled = true) (hi : s.bus.inflight ≠ none) :
    cmdWrite c s = .error .commandInFlight := by
  rw [cmdWrite, if_neg (by simp [he]), if_pos hi]

theorem cmdWrite_closed (he : s.enabled = true) (hi : s.bus.inflight = none) (hm : c.moves = true)
    (hs : c.sta = false) (ho : s.bus.busOpen = false) (hp : s.cfg.closedBus = .refuse) :
    cmdWrite c s = .error .closedBus := by
  rw [cmdWrite, if_neg (by simp [he]), if_neg (by simp [hi]), if_pos hm, if_pos ⟨hs, ho, hp⟩]

/-- Where nobody answers on a released bus, the command goes in flight there too (U4). -/
theorem cmdWrite_unanswered (he : s.enabled = true) (hi : s.bus.inflight = none)
    (hm : c.moves = true) (hp : s.cfg.closedBus = .nobodyAnswers) :
    cmdWrite c s = .ok { s with
      bus := { s.bus with inflight := some c, tip := true }, io := s.io ++ [.cmd c.byte] } := by
  rw [cmdWrite, if_neg (by simp [he]), if_neg (by simp [hi]), if_pos hm, if_neg (by simp [hp])]
  rfl

/-- A disabled core does nothing. -/
theorem coreTick_disabled {l : Bool} (he : s.enabled = false) : coreTick l s = none := by
  simp [coreTick, he]

/-- A byte sent on a released bus is not acknowledged (U4). -/
theorem coreTick_wr_closed (he : s.enabled = true) (hi : s.bus.inflight = some .wr)
    (ho : s.bus.busOpen = false) :
    coreTick true s = some { s with bus := { s.bus with
      wire := s.bus.wire ++ [.tx s.bus.txr true], ack := true, tip := false, inflight := none } } := by
  simp [coreTick, he, hi, coreComplete, startPart, writePart, readPart, stopPart, ackAnswer, ho,
    State.withBus, State.emit]

/-- A byte received on a released bus is any value (U4). -/
theorem coreTick_rd_closed (he : s.enabled = true) (hi : s.bus.inflight = some .rd)
    (ho : s.bus.busOpen = false) :
    coreTick true s = some { s with
      bus := { s.bus with
        wire := s.bus.wire ++ [.rx (Config.freeByte .closedBusByte s.env.draws) false]
        rxr := Config.freeByte .closedBusByte s.env.draws
        ack := Config.freeBit .ackAfterRead (s.env.draws + 1), tip := false, inflight := none }
      env := { s.env with draws := s.env.draws + 2 } } := by
  simp [coreTick, he, hi, coreComplete, startPart, writePart, readPart, stopPart, byteAnswer, ho,
    State.withBus, State.withEnv, State.emit, State.drawn]

/-- A disabled core that ignores commands takes no notice of one (R17). -/
theorem busCommand_ignored (he : s.enabled = false) (hp : s.cfg.disabledCore = .ignore) :
    busCommand c s = .next { s with io := s.io ++ [.cmd c.byte] } := by
  rw [busCommand_ok (cmdWrite_ignored he hp), coreTick_disabled (by exact he)]
  rfl

/-- `C_WR` where nobody answers on a released bus (U4). -/
theorem busCommand_wr_closed (he : s.enabled = true) (hi : s.bus.inflight = none)
    (ho : s.bus.busOpen = false) (hp : s.cfg.closedBus = .nobodyAnswers) :
    busCommand .wr s = .next { s with
      bus := { s.bus with
        wire := s.bus.wire ++ [.tx s.bus.txr true], ack := true, tip := false, inflight := none }
      io := s.io ++ [.cmd 0x10] } := by
  rw [busCommand_ok (cmdWrite_unanswered he hi rfl hp),
    coreTick_wr_closed (by exact he) rfl (by exact ho)]
  rfl

/-- `C_RD` where nobody answers on a released bus (U4): the byte and the acknowledge are free. -/
theorem busCommand_rd_closed (he : s.enabled = true) (hi : s.bus.inflight = none)
    (ho : s.bus.busOpen = false) (hp : s.cfg.closedBus = .nobodyAnswers) :
    busCommand .rd s = .next { s with
      bus := { s.bus with
        wire := s.bus.wire ++ [.rx (Config.freeByte .closedBusByte s.env.draws) false]
        rxr := Config.freeByte .closedBusByte s.env.draws
        ack := Config.freeBit .ackAfterRead (s.env.draws + 1), tip := false, inflight := none }
      env := { s.env with draws := s.env.draws + 2 }
      io := s.io ++ [.cmd 0x20] } := by
  rw [busCommand_ok (cmdWrite_unanswered he hi rfl hp),
    coreTick_rd_closed (by exact he) rfl (by exact ho)]
  rfl

theorem slaveAddrByte_direction (v : Byte) (d : Bool) : (slaveAddrByte v d).getLsbD 0 = d := by
  rw [slaveAddrByte, addrWord, BitVec.getLsbD_append]
  simp

theorem slaveAddrByte_address (v : Byte) (d : Bool) {k : Nat} (hk : 1 ≤ k) :
    (slaveAddrByte v d).getLsbD k = v.getLsbD k := by
  have high : ¬ k < 1 := by omega
  have index : 1 + (k - 1) = k := by omega
  rw [slaveAddrByte, addrWord, BitVec.getLsbD_append, if_neg high, BitVec.getLsbD_extractLsb', index]
  by_cases h : k < 8
  · simp [show k - 1 < 7 by omega]
  · rw [BitVec.getLsbD_of_ge v k (by omega), Bool.and_false]

/-- With no command in flight the address byte goes into `TXR` (R18, R93). -/
theorem execAddrByte_loads (addr : BitVec 7) (d : Bool) (hi : s.bus.inflight = none) :
    execAddrByte addr d s = .next { s with
      bus := { s.bus with txr := addrWord addr d }
      io := s.io ++ [.data (addrWord addr d)] } := by
  simp [execAddrByte, ioWrite, hi, State.withBus, State.logged]

theorem execAddrByte_refused (addr : BitVec 7) (d : Bool) (hi : s.bus.inflight ≠ none) :
    execAddrByte addr d s = .refused .dataInFlight := by
  simp [execAddrByte, ioWrite, hi]

end Sys2Proof.Machine

/-! Runs of any number of ticks (R48). -/

namespace Sys2Proof.Machine

variable {s t u : State} {i : Instr}

/-- The block comes from `s` to `t` by ticks alone. -/
def Reaches (s t : State) : Prop := ∃ k, runTicks k s = some t

theorem Reaches.refl (s : State) : Reaches s s := ⟨0, rfl⟩

theorem Reaches.of_tick (h : tick s = .ok (some t)) : Reaches s t :=
  ⟨1, runTicks_moved h⟩

theorem Reaches.trans (h : Reaches s t) (k : Reaches t u) : Reaches s u := by
  obtain ⟨m, hm⟩ := h
  obtain ⟨n, hn⟩ := k
  exact ⟨m + n, (runTicks_add hm).trans hn⟩

/-- An operation of FG or TR of an idle block ends in the held state it reaches. -/
theorem accept_of_reaches {start : State → State} (h : Idle s) (hs : ∀ u, (start u).env = u.env)
    (hr : Reaches (start (s.withOp { s.op with cur := some i })) t) (ht : tick t = .ok none) :
    accept i start s = .next t := by
  obtain ⟨k, hk⟩ := hr
  exact accept_of_runTicks h hs hk ht

end Sys2Proof.Machine

/-! The capture, wait by wait (R121 to R127). -/

namespace Sys2Proof.Machine

variable {s t : State} {bit : Nat} {level : Bool} {next : State → State}

/-- A wait phase polls its bit for its level. -/
theorem fgTick_wait (hw : waitOf s.cfg s.fg.phase = some (bit, level, next)) :
    fgTick s = pollLevel bit level next s := by
  unfold fgTick
  cases hp : s.fg.phase <;> rw [hp] at hw <;> cases hw <;> rfl

/-- A wait phase is none of the phases that wait for nothing. -/
theorem waitOf_phase (hw : waitOf s.cfg s.fg.phase = some (bit, level, next)) :
    s.fg.phase ≠ .idle := by
  intro hp
  rw [hp] at hw
  cases hw

/-- The tick of a block in which FG waits is a read of its poll. -/
theorem tick_wait (hi : s.bus.inflight = none) (hb : s.bm.phase = .idle)
    (hw : waitOf s.cfg s.fg.phase = some (bit, level, next)) :
    tick s = .ok (pollLevel bit level next s) := by
  rw [tick_fg hi hb (waitOf_phase hw), fgTick_wait hw]

theorem pollLevel_answered {b : Byte} {rest : List Byte} (hs : s.env.status = b :: rest) :
    pollLevel bit level next s = some (if b.getLsbD bit = level
      then next (s.withEnv { s.env with status := rest })
      else s.withEnv { s.env with status := rest }) := by
  simp [pollLevel, readFgStatus, hs]

/-- A wait whose sensor has not answered holds the machine (R129). -/
theorem tick_wait_held (hi : s.bus.inflight = none) (hb : s.bm.phase = .idle)
    (hw : waitOf s.cfg s.fg.phase = some (bit, level, next)) (hs : s.env.status = []) :
    tick s = .ok none := by
  rw [tick_wait hi hb hw]
  simp [pollLevel, readFgStatus, hs]

/-- A wait passes the reads that show the other level, one a tick, and ends with the first that shows the
awaited one (R50). -/
theorem reaches_wait (hi : s.bus.inflight = none) (hb : s.bm.phase = .idle)
    (hw : waitOf s.cfg s.fg.phase = some (bit, level, next)) {others : List Byte} {b : Byte}
    {rest : List Byte} (ho : ∀ x ∈ others, x.getLsbD bit ≠ level) (hl : b.getLsbD bit = level)
    (hs : s.env.status = others ++ b :: rest) :
    Reaches s (next (s.withEnv { s.env with status := rest })) := by
  have ticks := tick_wait hi hb hw
  induction others generalizing s with
  | nil =>
    rw [pollLevel_answered hs, if_pos hl] at ticks
    exact .of_tick ticks
  | cons x xs ih =>
    rw [pollLevel_answered hs, if_neg (ho x (by simp))] at ticks
    exact (Reaches.of_tick ticks).trans (ih (s := s.withEnv { s.env with status := xs ++ b :: rest })
      hi hb hw (fun y hy => ho y (by simp [hy])) rfl (tick_wait hi hb hw))

end Sys2Proof.Machine

/-! The capture of a frame (R121 to R127): the samples stored so far, and the coordinates still to come. -/

namespace Sys2Proof.Machine

variable {s : State} {frame : Nat → Nat → Byte}

/-- The samples of a frame at some coordinates. -/
def samplesAt (frame : Nat → Nat → Byte) (ks : List (Nat × Nat)) : List Byte :=
  ks.map fun k => frame k.1 k.2

/-- The frame buffer after the samples at some coordinates have been stored. -/
def storeAt (c : Cfg) (frame : Nat → Nat → Byte) (ks : List (Nat × Nat)) (m : List Host.Cell) :
    List Host.Cell :=
  ks.foldl (fun m k => Memory.write m (pixAddr c (decMap c k.1 k.2).1 (decMap c k.1 k.2).2)
    (frame k.1 k.2)) m

/-- A running capture that has stored the samples at `ks`: it stands in phase `p` at row `r` and column
`c`, with `status` and `pixels` the sensor's coming answers. -/
def capturing (s : State) (frame : Nat → Nat → Byte) (ks : List (Nat × Nat)) (p : FgPhase)
    (r c : Nat) (status pixels : List Byte) : State :=
  { s with
    fg := {
      phase := p, r := r, c := c
      min := (samplesAt frame ks).foldl byteMin 255, max := (samplesAt frame ks).foldl byteMax 0
      summary := s.fg.summary }
    fb := storeAt s.cfg frame ks s.fb
    env := { s.env with status := status, pixels := pixels } }

theorem startCapture_eq (s : State) (frame : Nat → Nat → Byte) :
    startCapture s
      = capturing s frame [] .frameWaitA s.fg.r s.fg.c s.env.status s.env.pixels := rfl

variable {ks : List (Nat × Nat)} {p : FgPhase} {r c : Nat} {status pixels : List Byte}

/-- The next sample is stored at its decimated coordinates and enters minimum and maximum (R126). -/
theorem sampleAndStore_capturing :
    sampleAndStore (capturing s frame ks p r c status (frame r c :: pixels))
      = capturing s frame (ks ++ [(r, c)]) p r c status pixels := by
  simp [sampleAndStore, readFgPixel, capturing, samplesAt, storeAt, fbWrite, State.withFb,
    State.withEnv, State.withFg]

/-- The coordinate, if its sample is kept. -/
def keptAt (cfg : Cfg) (row col : Nat) : List (Nat × Nat) :=
  if kept cfg row col then [(row, col)] else []

/-- The kept coordinates of `n` columns of a row. -/
def keptInRow (cfg : Cfg) (row col n : Nat) : List (Nat × Nat) :=
  (List.range' col n).flatMap fun k => keptAt cfg row k

/-- The kept coordinates of `n` rows. -/
def keptInRows (cfg : Cfg) (row n : Nat) : List (Nat × Nat) :=
  (List.range' row n).flatMap fun r => keptInRow cfg r 0 cfg.sensorCols

theorem keptInRow_succ (cfg : Cfg) (row col n : Nat) :
    keptInRow cfg row col (n + 1) = keptAt cfg row col ++ keptInRow cfg row (col + 1) n := by
  simp [keptInRow, List.range'_succ]

theorem keptInRows_succ (cfg : Cfg) (row n : Nat) :
    keptInRows cfg row (n + 1)
      = keptInRow cfg row 0 cfg.sensorCols ++ keptInRows cfg (row + 1) n := by
  simp [keptInRows, List.range'_succ]

/-- The kept coordinates of the sensor are those of all its rows. -/
theorem keptCoords_eq (cfg : Cfg) : keptCoords cfg = keptInRows cfg 0 cfg.sensorRows := by
  have row : ∀ (r : Nat) (l : List Nat),
      (l.filter fun k => kept cfg r k).map (fun k => (r, k)) = l.flatMap fun k => keptAt cfg r k := by
    intro r l
    induction l with
    | nil => rfl
    | cons k l ih => cases h : kept cfg r k <;> simp [keptAt, h, ih]
  simp only [keptCoords, keptInRows, keptInRow, row, List.range_eq_range']

/-- The head of the column loop enters the wait for a pixel, or after the last column the next row. -/
theorem enterCol_capturing {n : Nat} (h : n < s.cfg.sensorCols) :
    enterCol n (capturing s frame ks p r c status pixels)
      = capturing s frame ks .pixWaitFall r n status pixels := if_pos h

theorem enterCol_capturing_last :
    enterCol s.cfg.sensorCols (capturing s frame ks p r c status pixels)
      = enterRow (r + 1) (capturing s frame ks p r s.cfg.sensorCols status pixels) :=
  if_neg (Nat.lt_irrefl _)

/-- The head of the row loop enters the wait for a row, or after the last row the end. -/
theorem enterRow_capturing {n : Nat} (h : n < s.cfg.sensorRows) :
    enterRow n (capturing s frame ks p r c status pixels)
      = capturing s frame ks .rowWaitFall n c status pixels := by
  simp [enterRow, capturing, State.withFg, h]

theorem enterRow_capturing_last :
    enterRow s.cfg.sensorRows (capturing s frame ks p r c status pixels)
      = capturing s frame ks .done s.cfg.sensorRows c status pixels := by
  simp [enterRow, capturing, State.withFg]

theorem fgTick_capturing_sample :
    fgTick (capturing s frame ks .sample r c status pixels)
      = some (enterCol (c + 1) (if kept s.cfg r c
          then sampleAndStore (capturing s frame ks .sample r c status pixels)
          else capturing s frame ks .sample r c status pixels)) := rfl

variable {ws : List (Nat × Bool)} {reads answers : List Byte}

section Capture

variable (hi : s.bus.inflight = none) (hb : s.bm.phase = .idle)
include hi hb

/-- A wait of a running capture ends under reads that end it. -/
theorem capturing_wait {bit : Nat} {level : Bool} {next : State → State}
    (hw : waitOf s.cfg p = some (bit, level, next)) (he : EndsWaits ((bit, level) :: ws) reads) :
    ∃ rest, EndsWaits ws rest ∧
      Reaches (capturing s frame ks p r c (reads ++ answers) pixels)
        (next (capturing s frame ks p r c (rest ++ answers) pixels)) := by
  obtain ⟨others, b, rest, rfl, ho, hl, hrest⟩ := he
  exact ⟨rest, hrest, reaches_wait
    (s := capturing s frame ks p r c ((others ++ b :: rest) ++ answers) pixels)
    hi hb hw ho hl (by simp [capturing])⟩

/-- What ticks in a running capture is FG. -/
theorem capturing_tick (hp : p ≠ .idle) :
    tick (capturing s frame ks p r c status pixels)
      = .ok (fgTick (capturing s frame ks p r c status pixels)) :=
  tick_fg (s := capturing s frame ks p r c status pixels) hi hb hp

/-- After its waits a pixel is sampled if it is kept, and the column loop goes on (R124 to R126). -/
theorem capturing_sample :
    Reaches (capturing s frame ks .sample r c status (samplesAt frame (keptAt s.cfg r c) ++ pixels))
      (enterCol (c + 1) (capturing s frame (ks ++ keptAt s.cfg r c) .sample r c status pixels)) := by
  refine .of_tick ?_
  rw [capturing_tick hi hb (by simp), fgTick_capturing_sample]
  cases hk : kept s.cfg r c with
  | true => simp [keptAt, hk, samplesAt, sampleAndStore_capturing]
  | false => simp [keptAt, hk, samplesAt]

/-- One column: both edges of the pixel clock, then the sample. -/
theorem capturing_pixel (he : EndsWaits (edgeWait s.cfg.pclkBit false true ++ ws) reads) :
    ∃ rest, EndsWaits ws rest ∧
      Reaches (capturing s frame ks .pixWaitFall r c (reads ++ answers)
          (samplesAt frame (keptAt s.cfg r c) ++ pixels))
        (enterCol (c + 1)
          (capturing s frame (ks ++ keptAt s.cfg r c) .sample r c (rest ++ answers) pixels)) := by
  obtain ⟨rest₁, he₁, fall⟩ := capturing_wait hi hb (p := .pixWaitFall) rfl he
  obtain ⟨rest₂, he₂, rise⟩ := capturing_wait hi hb (p := .pixWaitRise) rfl he₁
  exact ⟨rest₂, he₂, fall.trans (rise.trans (capturing_sample hi hb))⟩

/-- The columns of a row from `k` on, by their number. -/
theorem capturing_columns (n : Nat) {k : Nat} (hk : k + n = s.cfg.sensorCols)
    (he : EndsWaits ((List.replicate n (edgeWait s.cfg.pclkBit false true)).flatten ++ ws) reads) :
    ∃ rest, EndsWaits ws rest ∧
      Reaches (enterCol k (capturing s frame ks p r c (reads ++ answers)
          (samplesAt frame (keptInRow s.cfg r k n) ++ pixels)))
        (enterRow (r + 1) (capturing s frame (ks ++ keptInRow s.cfg r k n) p r s.cfg.sensorCols
          (rest ++ answers) pixels)) := by
  induction n generalizing ks p c k reads with
  | zero =>
    obtain rfl : k = s.cfg.sensorCols := hk
    refine ⟨reads, he, ?_⟩
    rw [enterCol_capturing_last]
    simpa [keptInRow, samplesAt] using Reaches.refl _
  | succ n ih =>
    rw [List.replicate_succ, List.flatten_cons, List.append_assoc] at he
    obtain ⟨rest₁, he₁, pixel⟩ := capturing_pixel hi hb he
    obtain ⟨rest₂, he₂, columns⟩ := ih (k := k + 1) (by omega) he₁
    refine ⟨rest₂, he₂, ?_⟩
    rw [enterCol_capturing (by omega), keptInRow_succ, samplesAt, List.map_append, List.append_assoc,
      ← List.append_assoc ks]
    exact pixel.trans columns

/-- One row: both edges of the row signal, then its columns. -/
theorem capturing_row (he : EndsWaits (rowWaits s.cfg ++ ws) reads) :
    ∃ rest, EndsWaits ws rest ∧
      Reaches (capturing s frame ks .rowWaitFall r c (reads ++ answers)
          (samplesAt frame (keptInRow s.cfg r 0 s.cfg.sensorCols) ++ pixels))
        (enterRow (r + 1) (capturing s frame (ks ++ keptInRow s.cfg r 0 s.cfg.sensorCols) .rowWaitRise r
          s.cfg.sensorCols (rest ++ answers) pixels)) := by
  rw [rowWaits, List.append_assoc] at he
  obtain ⟨rest₁, he₁, fall⟩ := capturing_wait hi hb (p := .rowWaitFall) rfl he
  obtain ⟨rest₂, he₂, rise⟩ := capturing_wait hi hb (p := .rowWaitRise) rfl he₁
  obtain ⟨rest₃, he₃, columns⟩ := capturing_columns hi hb _ (Nat.zero_add _) he₂
  exact ⟨rest₃, he₃, fall.trans (rise.trans columns)⟩

/-- The rows from `k` on, by their number. -/
theorem capturing_rows (n : Nat) {k : Nat} (hk : k + n = s.cfg.sensorRows)
    (hc : n = 0 → c = s.cfg.sensorCols)
    (he : EndsWaits ((List.replicate n (rowWaits s.cfg)).flatten ++ ws) reads) :
    ∃ rest, EndsWaits ws rest ∧
      Reaches (enterRow k (capturing s frame ks p r c (reads ++ answers)
          (samplesAt frame (keptInRows s.cfg k n) ++ pixels)))
        (capturing s frame (ks ++ keptInRows s.cfg k n) .done s.cfg.sensorRows s.cfg.sensorCols
          (rest ++ answers) pixels) := by
  induction n generalizing ks p r c k reads with
  | zero =>
    obtain rfl : k = s.cfg.sensorRows := hk
    refine ⟨reads, he, ?_⟩
    rw [enterRow_capturing_last, hc rfl]
    simpa [keptInRows, samplesAt] using Reaches.refl _
  | succ n ih =>
    rw [List.replicate_succ, List.flatten_cons, List.append_assoc] at he
    obtain ⟨rest₁, he₁, row⟩ := capturing_row hi hb he
    obtain ⟨rest₂, he₂, rows⟩ := ih (k := k + 1) (by omega) (fun _ => rfl) he₁
    refine ⟨rest₂, he₂, ?_⟩
    rw [enterRow_capturing (by omega), keptInRows_succ, samplesAt, List.map_append, List.append_assoc,
      ← List.append_assoc ks]
    exact row.trans rows

/-- One frame: both edges of the frame signal, then its rows. -/
theorem capturing_frame (hrows : 1 ≤ s.cfg.sensorRows) (he : EndsWaits (frameWaits s.cfg) reads) :
    Reaches (capturing s frame [] .frameWaitA r c (reads ++ answers)
        (keptSamples s.cfg frame ++ pixels))
      (capturing s frame (keptCoords s.cfg) .done s.cfg.sensorRows s.cfg.sensorCols answers
        pixels) := by
  rw [frameWaits, ← List.append_nil (edgeWait _ _ _ ++ _), List.append_assoc] at he
  obtain ⟨rest₁, he₁, away⟩ := capturing_wait hi hb (p := .frameWaitA) rfl he
  obtain ⟨rest₂, he₂, back⟩ := capturing_wait hi hb (p := .frameWaitB) rfl he₁
  obtain ⟨rest₃, rfl, rows⟩ := capturing_rows hi hb _ (Nat.zero_add _) (by omega) he₂
  rw [keptSamples, keptCoords_eq]
  exact away.trans (back.trans rows)

/-- A started capture under such a sensor comes to its end. -/
theorem startCapture_reaches {samples : List Byte} (hrows : 1 ≤ s.cfg.sensorRows)
    (he : EndsWaits (frameWaits s.cfg) reads) (hs : s.env.status = reads ++ answers)
    (hp : s.env.pixels = keptSamples s.cfg frame ++ samples) :
    Reaches (startCapture s) (captureDone (capturing s frame (keptCoords s.cfg) .done
      s.cfg.sensorRows s.cfg.sensorCols answers samples)) := by
  rw [startCapture_eq s frame, hs, hp]
  refine (capturing_frame hi hb hrows he).trans (.of_tick ?_)
  exact capturing_tick hi hb (by simp)

end Capture

/-- The end of a capture that is an operation of its own: its summary is the result (R121). -/
theorem captureDone_of_operation (h : s.tr.phase ≠ .capture) :
    captureDone s = { s with
      fg := { s.fg with summary := summaryOf s.fg.min s.fg.max, phase := .idle }
      op := { s.op with
        cur := none, res := { s.op.res with summary := summaryOf s.fg.min s.fg.max } } } := by
  rw [captureDone, if_neg h]
  rfl

/-- The end of a capture that is the first part of a cycle: its summary is kept in FG only (R158). -/
theorem captureDone_of_cycle (h : s.tr.phase = .capture) :
    captureDone s = { s with
      fg := { s.fg with summary := summaryOf s.fg.min s.fg.max, phase := .idle } } := by
  rw [captureDone, if_pos h]
  rfl

end Sys2Proof.Machine

/-! The scans of a cycle over a region whose every pixel is written (R151 to R155). -/

namespace Sys2Proof.Machine

variable {s t : State} {roi : Rect}

/-- Every pixel of a region has been written. -/
def RegionWritten (roi : Rect) (s : State) : Prop :=
  ∀ i j, roi.rowStart ≤ i → i ≤ roi.rowEnd → roi.colStart ≤ j → j ≤ roi.colEnd →
    ∃ v, Memory.read s.fb (pixAddr s.cfg i j) = some v

/-- A written pixel is read, whatever the policy for unwritten ones (R141). -/
theorem fbRead_written {i j : Int} {v : Byte} (h : Memory.read s.fb (pixAddr s.cfg i j) = some v) :
    fbRead i j s = .ok v := by
  rw [fbRead, h]

theorem RegionWritten.fbRead (h : RegionWritten roi s) {i j : Int} (hi : i ∈ rowsOf roi)
    (hj : j ∈ colsOf roi) : ∃ v, fbRead i j s = .ok v := by
  obtain ⟨hi₁, hi₂⟩ := mem_span.1 hi
  obtain ⟨hj₁, hj₂⟩ := mem_span.1 hj
  obtain ⟨v, hv⟩ := h i j hi₁ hi₂ hj₁ hj₂
  exact ⟨v, fbRead_written hv⟩

/-- The same for the pixel at a position of a scan line of either pass. -/
theorem RegionWritten.fbRead_along (h : RegionWritten roi s) {a : Axis} {l x : Int}
    (hl : l ∈ linesOf a roi) (hx : x ∈ alongOf a roi) :
    ∃ v, Machine.fbRead (pixelOf a l x).1 (pixelOf a l x).2 s = .ok v := by
  cases a with
  | row => exact h.fbRead hl hx
  | col => exact h.fbRead hx hl

/-- A scan writes no pixel. -/
theorem RegionWritten.of_scanned (h : RegionWritten roi s) (k : Scanned s t) :
    RegionWritten roi t := by
  obtain ⟨x, rfl, -⟩ := k
  exact h

/-- A loop answers when each of its steps does: a step scans, so the region stays written. -/
theorem foldlM_answers {α : Type} {f : State → α → Except Refusal State}
    (hf : ∀ u a v, f u a = .ok v → Scanned u v) (l : List α)
    (ha : ∀ u a, a ∈ l → RegionWritten roi u → ∃ v, f u a = .ok v) :
    ∀ s, RegionWritten roi s → ∃ t, l.foldlM f s = .ok t := by
  induction l with
  | nil => exact fun s _ => ⟨s, rfl⟩
  | cons a l ih =>
    intro s hs
    obtain ⟨u, hu⟩ := ha s a (by simp) hs
    obtain ⟨t, ht⟩ := ih (fun u b hb => ha u b (by simp [hb])) u (hs.of_scanned (hf s a u hu))
    exact ⟨t, by rw [List.foldlM_cons, hu]; exact ht⟩

theorem thresholdPixel_answers {i j : Int} {v : Byte} (h : fbRead i j s = .ok v) :
    ∃ t, thresholdPixel i j s = .ok t := by
  simp [thresholdPixel, h, Except.map]

/-- One row of the threshold scan. -/
theorem thresholdRow_scanned {i : Int}
    (h : (colsOf roi).foldlM (fun s j => thresholdPixel i j s) (s.withTr { s.tr with i := i })
      = .ok t) : Scanned s t :=
  Scanned.trans (t := s.withTr { s.tr with i := i }) ⟨_, rfl, rfl, rfl, rfl, rfl, rfl, rfl⟩
    (foldlM_scanned (fun _ _ _ h => thresholdPixel_scanned h) _ _ _ h)

/-- The threshold of a written region (R151). -/
theorem updateThreshold_answers (h : RegionWritten roi s) : ∃ t, updateThreshold roi s = .ok t := by
  obtain ⟨t, ht⟩ := foldlM_answers (roi := roi)
    (f := fun s i => (colsOf roi).foldlM (fun s j => thresholdPixel i j s)
      (s.withTr { s.tr with i := i }))
    (fun _ _ _ h => thresholdRow_scanned h) (rowsOf roi)
    (fun u i hi hu => foldlM_answers (fun _ _ _ h => thresholdPixel_scanned h) _
      (fun w j hj hw => (hw.fbRead hi hj).elim fun _ hv => thresholdPixel_answers hv) _ hu)
    (s.withTr { s.tr with min := 255, max := 0 }) h
  exact ⟨_, by rw [updateThreshold, ht]; rfl⟩

theorem scanPixel_answers {a : Axis} {thr : Byte} {l x : Int} {v : Byte}
    (h : fbRead (pixelOf a l x).1 (pixelOf a l x).2 s = .ok v) :
    ∃ t, scanPixel a thr l s x = .ok t := by
  simp [scanPixel, h, Except.map]

theorem scanLine_scanned {a : Axis} {thr : Byte} {l : Int} (h : scanLine a roi thr s l = .ok t) :
    Scanned s t := by
  obtain ⟨u, hu, rfl⟩ := except_map_ok h
  have started : Scanned s ((s.lineAt a l).runTo 0) := by
    cases a <;> exact ⟨_, rfl, rfl, rfl, rfl, rfl, rfl, rfl⟩
  exact started.trans ((foldlM_scanned (fun _ _ _ h => scanPixel_scanned h) _ _ _ hu).trans
    (closeRun_scanned a _ _))

theorem scanLine_answers {a : Axis} {thr : Byte} {l : Int} (hl : l ∈ linesOf a roi)
    (h : RegionWritten roi s) : ∃ t, scanLine a roi thr s l = .ok t := by
  have started : RegionWritten roi ((s.lineAt a l).runTo 0) := by cases a <;> exact h
  obtain ⟨t, ht⟩ := foldlM_answers (fun _ _ _ h => scanPixel_scanned h) (alongOf a roi)
    (fun u x hx hu => (hu.fbRead_along hl hx).elim fun _ hv => scanPixel_answers (thr := thr) hv)
    _ started
  exact ⟨_, by rw [scanLine, ht]; rfl⟩

/-- A pass over a written region (R154, R155). -/
theorem pass_answers (a : Axis) (thr : Byte) (h : RegionWritten roi s) :
    ∃ t, pass a roi thr s = .ok t :=
  foldlM_answers (fun _ _ _ h => scanLine_scanned h) _ (fun _ _ hl hu => scanLine_answers hl hu) _ h

/-! The scans do not look at the port. -/

variable (o : Port)

theorem foldlM_withOp {α : Type} {f : State → α → Except Refusal State}
    (hf : ∀ u a, f (u.withOp o) a = (f u a).map fun v => v.withOp o) (l : List α) :
    ∀ s, l.foldlM f (s.withOp o) = (l.foldlM f s).map fun v => v.withOp o := by
  induction l with
  | nil => exact fun _ => rfl
  | cons a l ih =>
    intro s
    rw [List.foldlM_cons, List.foldlM_cons, hf]
    cases f s a with
    | error r => rfl
    | ok u => exact ih u

theorem thresholdPixel_withOp (i j : Int) (s : State) :
    thresholdPixel i j (s.withOp o) = (thresholdPixel i j s).map fun v => v.withOp o := by
  rw [thresholdPixel, thresholdPixel, show fbRead i j (s.withOp o) = fbRead i j s from rfl]
  cases fbRead i j s <;> rfl

theorem updateThreshold_withOp (roi : Rect) (s : State) :
    updateThreshold roi (s.withOp o) = (updateThreshold roi s).map fun v => v.withOp o := by
  have rows := foldlM_withOp o
    (f := fun s i => (colsOf roi).foldlM (fun s j => thresholdPixel i j s)
      (s.withTr { s.tr with i := i }))
    (fun u i => foldlM_withOp o (fun u j => thresholdPixel_withOp o i j u) (colsOf roi)
      (u.withTr { u.tr with i := i }))
    (rowsOf roi) (s.withTr { s.tr with min := 255, max := 0 })
  rw [updateThreshold, updateThreshold]
  refine (congrArg (· >>= _) rows).trans ?_
  cases (rowsOf roi).foldlM (fun s i => (colsOf roi).foldlM (fun s j => thresholdPixel i j s)
    (s.withTr { s.tr with i := i })) (s.withTr { s.tr with min := 255, max := 0 }) <;> rfl

theorem closeRun_withOp (a : Axis) (last : Int) (s : State) :
    closeRun a last (s.withOp o) = (closeRun a last s).withOp o := by
  unfold closeRun
  by_cases h : qualifies s.cfg.minRun s.tr.run s.tr.best = true
  · rw [if_pos h, if_pos (by exact h)]
    rfl
  · rw [if_neg h, if_neg (by exact h)]

theorem scanPixel_withOp (a : Axis) (thr : Byte) (l : Int) (s : State) (x : Int) :
    scanPixel a thr l (s.withOp o) x = (scanPixel a thr l s x).map fun v => v.withOp o := by
  rw [scanPixel, scanPixel, show fbRead (pixelOf a l x).1 (pixelOf a l x).2 (s.withOp o)
    = fbRead (pixelOf a l x).1 (pixelOf a l x).2 s from rfl]
  cases fbRead (pixelOf a l x).1 (pixelOf a l x).2 s with
  | error r => rfl
  | ok v =>
    have close := closeRun_withOp o a (x - 1) (s.scanAt a l x)
    by_cases h : thr < v
    · simp only [Except.map, h, if_true]
      rfl
    · simp only [Except.map, h, if_false]
      exact congrArg (fun u => Except.ok (State.runTo u 0)) close

theorem scanLine_withOp (a : Axis) (roi : Rect) (thr : Byte) (s : State) (l : Int) :
    scanLine a roi thr (s.withOp o) l = (scanLine a roi thr s l).map fun v => v.withOp o := by
  have started : ((s.withOp o).lineAt a l).runTo 0 = ((s.lineAt a l).runTo 0).withOp o := by
    cases a <;> rfl
  rw [scanLine, scanLine, started, foldlM_withOp o (scanPixel_withOp o a thr l)]
  cases (alongOf a roi).foldlM (scanPixel a thr l) ((s.lineAt a l).runTo 0) with
  | error r => rfl
  | ok u => exact congrArg Except.ok (closeRun_withOp o a _ u)

theorem pass_withOp (a : Axis) (roi : Rect) (thr : Byte) (s : State) :
    pass a roi thr (s.withOp o) = (pass a roi thr s).map fun v => v.withOp o :=
  foldlM_withOp o (scanLine_withOp o a roi thr) _ (s.withTr { s.tr with best := 0 })

end Sys2Proof.Machine

/-! A cycle of the tracker, from its capture's end to its command (R158, R159). -/

namespace Sys2Proof.Machine

variable {s t : State} {roi : Rect} {i : Instr}

/-- The registers of TR with the box a locate starts from (R152). -/
def boxed (roi : Rect) (s : State) : Tr := { s.tr with box := boxBefore s roi, boxValid := true }

theorem initBox_eq (roi : Rect) (s : State) : initBox roi s = s.withTr (boxed roi s) := by
  unfold initBox boxed boxBefore
  split <;> rename_i h
  · rw [← h]
    rfl
  · rfl

/-- The two cycle operations on a region. -/
inductive CycleOn (roi : Rect) : Instr → Prop where
  | snapshot : CycleOn roi (.trSnapshot roi)
  | track : CycleOn roi (.trTrack roi)

section Phases

variable (hc : CycleOn roi i) (ho : s.op.cur = some i)
include hc ho

theorem trTick_threshold (hp : s.tr.phase = .threshold) (h : updateThreshold roi s = .ok t) :
    trTick s = .ok (some (t.trTo .rowPass)) := by
  obtain ⟨x, rfl, -⟩ := updateThreshold_scanned h
  cases hc <;> simp [trTick, hp, ho, roiOf, h, Except.map, isCycle]

theorem trTick_rowPass (hp : s.tr.phase = .rowPass)
    (h : pass .row roi s.tr.threshold (initBox roi s) = .ok t) :
    trTick s = .ok (some (t.trTo .colPass)) := by
  cases hc <;> simp [trTick, hp, ho, roiOf, thrOf, h, Except.map]

theorem trTick_colPass (hp : s.tr.phase = .colPass) (hid : s.cfg.overlay = .identity)
    (h : pass .col roi s.tr.threshold s = .ok t) :
    trTick s = .ok (some (t.trTo .error)) := by
  obtain ⟨x, rfl, -⟩ := pass_scanned h
  cases hc <;> simp [trTick, hp, ho, roiOf, thrOf, h, Except.map, isCycle, overlay, hid]

theorem trTick_error (hp : s.tr.phase = .error) :
    trTick s = .ok (some ((computeError s.tr.box (rectCenter s.cfg.midpoint roi) s).trTo .command)) := by
  cases hc <;> simp [trTick, hp, ho, roiOf, errorArgs, isCycle, computeError]

end Phases

/-- What the tracker's part of a cycle finds: the block quiet but for TR, and every pixel it will read
written. -/
structure CycleReady (roi : Rect) (s : State) : Prop where
  noCommand : s.bus.inflight = none
  bmIdle : s.bm.phase = .idle
  fgIdle : s.fg.phase = .idle
  overlay : s.cfg.overlay = .identity
  written : RegionWritten roi s

theorem CycleReady.withTr (h : CycleReady roi s) (x : Tr) : CycleReady roi (s.withTr x) := by
  obtain ⟨h₁, h₂, h₃, h₄, h₅⟩ := h
  exact ⟨h₁, h₂, h₃, h₄, h₅⟩

theorem CycleReady.tick (h : CycleReady roi s) (o : Port) :
    tick (s.withOp o) = trTick (s.withOp o) :=
  tick_tr h.noCommand h.bmIdle h.fgIdle

/-- Under either cycle operation, whatever else is on the port, TR comes from `s` to phase `p`, changing
registers of its own alone, and the same ones under both. -/
def CyclesTo (roi : Rect) (s : State) (p : TrPhase) (x : Tr) : Prop :=
  x.phase = p ∧
    ∀ i o, CycleOn roi i → o.cur = some i → Reaches (s.withOp o) ((s.withTr x).withOp o)

theorem cyclesTo_threshold (h : CycleReady roi s) (hp : s.tr.phase = .capture) :
    ∃ x, CyclesTo roi s .threshold x :=
  ⟨{ s.tr with phase := .threshold }, rfl, fun i o _ _ => .of_tick (by
    rw [h.tick, trTick, show (s.withOp o).tr.phase = .capture from hp]
    rfl)⟩

theorem cyclesTo_rowPass (h : CycleReady roi s) (hp : s.tr.phase = .threshold) :
    ∃ x, CyclesTo roi s .rowPass x := by
  obtain ⟨t, ht⟩ := updateThreshold_answers h.written
  obtain ⟨x, rfl, -⟩ := updateThreshold_scanned ht
  refine ⟨{ x with phase := .rowPass }, rfl, fun i o hi ho => .of_tick ?_⟩
  rw [h.tick, trTick_threshold hi (s := s.withOp o) ho hp
    (by rw [updateThreshold_withOp, ht]; rfl)]
  rfl

theorem cyclesTo_colPass (h : CycleReady roi s) (hp : s.tr.phase = .rowPass) :
    ∃ x, CyclesTo roi s .colPass x := by
  obtain ⟨t, ht⟩ := pass_answers .row s.tr.threshold (h.withTr (boxed roi s)).written
  obtain ⟨x, rfl, -⟩ := pass_scanned ht
  refine ⟨{ x with phase := .colPass }, rfl, fun i o hi ho => .of_tick ?_⟩
  have box : initBox roi (s.withOp o) = (s.withTr (boxed roi s)).withOp o :=
    initBox_eq roi (s.withOp o)
  rw [h.tick, trTick_rowPass hi (s := s.withOp o) ho hp
    (by rw [box, pass_withOp, State.withOp_tr, ht]; rfl)]
  rfl

theorem cyclesTo_error (h : CycleReady roi s) (hp : s.tr.phase = .colPass) :
    ∃ x, CyclesTo roi s .error x := by
  obtain ⟨t, ht⟩ := pass_answers .col s.tr.threshold h.written
  obtain ⟨x, rfl, -⟩ := pass_scanned ht
  refine ⟨{ x with phase := .error }, rfl, fun i o hi ho => .of_tick ?_⟩
  rw [h.tick, trTick_colPass hi (s := s.withOp o) ho hp h.overlay
    (by rw [pass_withOp, State.withOp_tr, ht]; rfl)]
  rfl

theorem cyclesTo_command (h : CycleReady roi s) (hp : s.tr.phase = .error) :
    ∃ x, CyclesTo roi s .command x :=
  ⟨{ (computeError s.tr.box (rectCenter s.cfg.midpoint roi) s).tr with phase := .command }, rfl,
    fun i o hi ho => .of_tick (by
    rw [h.tick, trTick_error hi (s := s.withOp o) ho hp]
    rfl)⟩

theorem CyclesTo.trans {p q : TrPhase} {x y : Tr} (h : CyclesTo roi s p x)
    (k : CyclesTo roi (s.withTr x) q y) : CyclesTo roi s q y :=
  ⟨k.1, fun i o hi ho => (h.2 i o hi ho).trans (k.2 i o hi ho)⟩

/-- From the capture's end the cycle comes to its command (R158). -/
theorem cycle_reaches_command (h : CycleReady roi s) (hp : s.tr.phase = .capture) :
    ∃ x, CyclesTo roi s .command x := by
  obtain ⟨x₁, h₁⟩ := cyclesTo_threshold h hp
  obtain ⟨x₂, h₂⟩ := cyclesTo_rowPass (h.withTr x₁) h₁.1
  obtain ⟨x₃, h₃⟩ := cyclesTo_colPass (h.withTr x₂) h₂.1
  obtain ⟨x₄, h₄⟩ := cyclesTo_error (h.withTr x₃) h₃.1
  obtain ⟨x₅, h₅⟩ := cyclesTo_command (h.withTr x₄) h₄.1
  exact ⟨x₅, h₁.trans (h₂.trans (h₃.trans (h₄.trans h₅)))⟩

end Sys2Proof.Machine

/-! A whole cycle under a sensor whose reads end its capture (R130, R158, R159). -/

namespace Sys2Proof.Machine

variable {s t : State} {roi : Rect} {i : Instr} {frame : Nat → Nat → Byte}
  {reads answers samples : List Byte}

/-- The block after a cycle's capture: the frame stored, and TR still in `Capture`. -/
def captured (s : State) (frame : Nat → Nat → Byte) (answers samples : List Byte) : State :=
  { capturing s frame (keptCoords s.cfg) .idle s.cfg.sensorRows s.cfg.sensorCols answers samples with
    fg := {
      phase := .idle, r := s.cfg.sensorRows, c := s.cfg.sensorCols
      min := (keptSamples s.cfg frame).foldl byteMin 255
      max := (keptSamples s.cfg frame).foldl byteMax 0
      summary := summaryOf ((keptSamples s.cfg frame).foldl byteMin 255)
        ((keptSamples s.cfg frame).foldl byteMax 0) }
    tr := { s.tr with phase := .capture } }

/-- A started cycle comes to the end of its capture. -/
theorem startCycle_reaches (o : Port) (hi : s.bus.inflight = none) (hb : s.bm.phase = .idle)
    (hrows : 1 ≤ s.cfg.sensorRows) (he : EndsWaits (frameWaits s.cfg) reads)
    (hs : s.env.status = reads ++ answers)
    (hp : s.env.pixels = keptSamples s.cfg frame ++ samples) :
    Reaches (startCycle (s.withOp o)) ((captured s frame answers samples).withOp o) := by
  have run := startCapture_reaches (s := (s.withTr { s.tr with phase := .capture }).withOp o)
    hi hb hrows he hs hp
  rw [captureDone_of_cycle rfl] at run
  exact run

/-- The block after TR has commanded the error it holds, from its last positions (R157, R158). -/
def commanded (s : State) : State :=
  commandActuators s.tr.panErr s.tr.tiltErr s.tr.lastPan s.tr.lastTilt s

@[simp] theorem commanded_bm (s : State) : (commanded s).bm = s.bm := by
  rw [commanded, commandActuators_eq]
@[simp] theorem commanded_bus (s : State) : (commanded s).bus = s.bus := by
  rw [commanded, commandActuators_eq]
@[simp] theorem commanded_fb (s : State) : (commanded s).fb = s.fb := by
  rw [commanded, commandActuators_eq]
@[simp] theorem commanded_fg (s : State) : (commanded s).fg = s.fg := by
  rw [commanded, commandActuators_eq]
@[simp] theorem commanded_op (s : State) : (commanded s).op = s.op := by
  rw [commanded, commandActuators_eq]
@[simp] theorem commanded_env (s : State) : (commanded s).env = s.env := by
  rw [commanded, commandActuators_eq]

theorem commanded_act (s : State) :
    (commanded s).act = ⟨(commanded s).tr.lastPan, (commanded s).tr.lastTilt⟩ := by
  rw [commanded, commandActuators_eq]

theorem commanded_io (s : State) : (commanded s).io
    = s.io ++ [.actPan (commanded s).tr.lastPan, .actTilt (commanded s).tr.lastTilt] := by
  rw [commanded, commandActuators_eq]

/-- What it commands does not depend on the port. -/
theorem commanded_withOp (o : Port) (s : State) :
    commanded (s.withOp o) = (commanded s).withOp o := by
  rw [commanded, commanded, commandActuators_eq, commandActuators_eq]
  rfl

/-- The end of a snapshot (R158). -/
theorem trTick_command_snapshot (ho : s.op.cur = some (.trSnapshot roi)) (hp : s.tr.phase = .command) :
    ∃ r, trTick s = .ok (some (trFinish r (commanded s))) := by
  have hc : commandPhase s = commanded s := by simp [commandPhase, commanded, ho]
  simp only [trTick, hp, hc, afterCommand, commanded_op, ho]
  exact ⟨_, rfl⟩

/-- The end of a cycle of tracking is the start of its next (R159). -/
theorem trTick_command_track (ho : s.op.cur = some (.trTrack roi)) (hp : s.tr.phase = .command) :
    trTick s = .ok (some (startCycle (commanded s))) := by
  have hc : commandPhase s = commanded s := by simp [commandPhase, commanded, ho]
  simp [trTick, hp, hc, afterCommand, ho]

/-- The block at a cycle's command: the frame stored and the sensor's answers for it spent, TR in its last
phase, the bus and the register writes as they were. -/
structure AtCommand (s : State) (frame : Nat → Nat → Byte) (answers samples : List Byte)
    (d : State) : Prop where
  phase : d.tr.phase = .command
  bm : d.bm = s.bm
  bus : d.bus = s.bus
  fb : d.fb = storeKept s.cfg frame s.fb
  status : d.env.status = answers
  pixels : d.env.pixels = samples
  io : d.io = s.io

/-- Both operations come from an idle block to the same command. -/
theorem startCycle_reaches_command (idle : Idle s) (hrows : 1 ≤ s.cfg.sensorRows)
    (hid : s.cfg.overlay = .identity) (he : EndsWaits (frameWaits s.cfg) reads)
    (hs : s.env.status = reads ++ answers)
    (hp : s.env.pixels = keptSamples s.cfg frame ++ samples)
    (hw : RegionWritten roi (captured s frame answers samples)) :
    ∃ d : State, CycleReady roi d ∧ AtCommand s frame answers samples d ∧
      ∀ i o, CycleOn roi i → o.cur = some i → Reaches (startCycle (s.withOp o)) (d.withOp o) := by
  obtain ⟨hb, -, -⟩ := busy_false_iff.1 idle.free
  have ready : CycleReady roi (captured s frame answers samples) :=
    ⟨idle.noCommand, hb, rfl, hid, hw⟩
  obtain ⟨x, hx, run⟩ := cycle_reaches_command ready rfl
  exact ⟨_, ready.withTr x, ⟨hx, rfl, rfl, rfl, rfl, rfl, rfl⟩, fun i o hi ho =>
    (startCycle_reaches o idle.noCommand hb hrows he hs hp).trans (run i o hi ho)⟩

/-- A snapshot whose cycle comes to `d` commands and ends. -/
theorem trSnapshot_of_reaches {d : State} (idle : Idle s) (ready : CycleReady roi d)
    (hp : d.tr.phase = .command)
    (run : Reaches (startCycle (s.withOp { s.op with cur := some (.trSnapshot roi) }))
      (d.withOp { s.op with cur := some (.trSnapshot roi) })) :
    ∃ r, exec (.trSnapshot roi) s = .next (trFinish r ((commanded d).withOp
      { s.op with cur := some (.trSnapshot roi) })) := by
  obtain ⟨r, hr⟩ := trTick_command_snapshot
    (s := d.withOp { s.op with cur := some (.trSnapshot roi) }) rfl hp
  rw [commanded_withOp] at hr
  refine ⟨r, accept_of_reaches idle (fun _ => rfl) (run.trans (.of_tick ((ready.tick _).trans hr))) ?_⟩
  exact tick_idle ready.noCommand ready.bmIdle ready.fgIdle rfl

/-- Tracking whose cycle comes to `d` commands and holds in its next capture, where the sensor has not
answered for that. -/
theorem trTrack_of_reaches {d : State} (idle : Idle s) (ready : CycleReady roi d)
    (hp : d.tr.phase = .command) (hs : d.env.status = [])
    (run : Reaches (startCycle (s.withOp { s.op with cur := some (.trTrack roi) }))
      (d.withOp { s.op with cur := some (.trTrack roi) })) :
    exec (.trTrack roi) s = .next (startCycle ((commanded d).withOp
      { s.op with cur := some (.trTrack roi) })) := by
  have last := (ready.tick { s.op with cur := some (.trTrack roi) }).trans
    (trTick_command_track (s := d.withOp { s.op with cur := some (.trTrack roi) }) rfl hp)
  rw [commanded_withOp] at last
  refine accept_of_reaches idle (fun _ => rfl) (run.trans (.of_tick last)) ?_
  exact tick_wait_held ready.noCommand ready.bmIdle rfl hs

end Sys2Proof.Machine

/-! The obligations of the state family. -/

section

open Sys2Proof Sys2Proof.Machine

/-- Settles O54: a step stores through the accessor or empties the frame. -/
theorem stepKeepsMemoryCanonical : Obligations.StepKeepsMemoryCanonical := by
  intro s t h hst
  exact Memory.wf_of_step h hst

/-- Settles O56: each of the two is kept by every part of a step. -/
theorem stepKeepsBusInvariants : Obligations.StepKeepsBusInvariants := by
  intro s t htip hinit hst
  exact ⟨htip.of_step hst, hinit.of_step hst⟩

/-- Settles O58: new positions are clamped ones, or the homes. -/
theorem stepKeepsPositionsInLimits : Obligations.StepKeepsPositionsInLimits := by
  intro s t ok h hst
  exact h.of_step ok hst

/-- Settles O50: no start, no tick and no command byte configures the bus. -/
theorem onlyInitConfigures : Obligations.OnlyInitConfigures := by
  intro i s t hi hr h
  obtain ⟨slaveAddr, inited, ctrl, divLo, divHi⟩ := exec_sameInit hi hr h
  exact ⟨slaveAddr, inited, ctrl, divLo, divHi⟩

/-- Settles O51: a reset is the one other instruction that sets the last positions. -/
theorem onlyCommandsMoveTheActuators : Obligations.OnlyCommandsMoveTheActuators := by
  intro i s t hcmd hsnap htrack h
  by_cases hr : i = .blkReset
  · subst hr
    cases h
    exact ⟨rfl, fun hne => absurd rfl hne⟩
  · obtain ⟨act, lastPan, lastTilt⟩ := exec_unmoved hcmd hsnap htrack hr h
    exact ⟨act, fun _ => ⟨lastPan, lastTilt⟩⟩

/-- Settles O52: no other operation ever has anything that can store. -/
theorem onlyTheseWriteTheFrame : Obligations.OnlyTheseWriteTheFrame := by
  intro i s t hcap hwr hr hsnap htrack hloc h
  exact exec_sameFrame hcap hwr hr hsnap htrack hloc h

/-- Settles O6: the move lands on the idle block, and the request it leaves is served. -/
theorem hostRequestIsPutThenServed : Obligations.HostRequestIsPutThenServed := by
  intro s early w x rest i hs hb hi hh hd
  exact ⟨_, step_hostMove hs hh (moveLands_request early w x hb hi), step_hostRequest hs hd⟩

/-- Settles O16, policy by policy. -/
theorem commandWritePolicies : Obligations.CommandWritePolicies := by
  refine ⟨fun c s => ⟨?_, ?_, ?_⟩, ?_, ?_⟩
  · intro he hp
    rw [exec_cmd, busCommand_refused (cmdWrite_disabled he hp)]
  · intro he hi
    rw [exec_cmd, busCommand_refused (cmdWrite_inFlight he hi)]
  · intro he hi hm hs ho hp
    rw [exec_cmd, busCommand_refused (cmdWrite_closed he hi hm hs ho hp)]
  · intro c s he hp
    rw [exec_cmd, busCommand_ignored he hp]
  · intro s he hi ho hp
    exact ⟨busCommand_wr_closed he hi ho hp, _, _, busCommand_rd_closed he hi ho hp⟩

/-- Settles O17: the bits of the byte, then its load and the refusal of it. -/
theorem addressByteLoads : Obligations.AddressByteLoads :=
  ⟨fun v d => ⟨slaveAddrByte_direction v d, fun _ hk => slaveAddrByte_address v d hk⟩,
    fun addr d _ => ⟨execAddrByte_loads addr d, execAddrByte_refused addr d⟩⟩

/-- Settles O28: the frame is captured coordinate by coordinate, and the operation ends with it. -/
theorem idealCapture : Obligations.IdealCapture := by
  intro s frame reads answers samples idle ok he hs hp
  obtain ⟨hb, -, ht⟩ := busy_false_iff.1 idle.free
  have run := startCapture_reaches (s := s.withOp { s.op with cur := some .fgCapture })
    idle.noCommand hb ok.sensorRows he hs hp
  rw [captureDone_of_operation (by simp [capturing, ht])] at run
  exact accept_of_reaches idle (fun _ => rfl) run (tick_idle idle.noCommand hb rfl ht)

/-- Settles O45: both operations come to one command `d`; the snapshot ends there, tracking waits for its
next frame. -/
theorem cycleOfAnIdealFrame : Obligations.CycleOfAnIdealFrame := by
  intro roi s frame reads answers samples idle ok hid he hs hp hw
  obtain ⟨d, ready, ⟨phase, bm, bus, fb, status, pixels, io⟩, run⟩ :=
    startCycle_reaches_command idle ok.sensorRows hid he hs hp hw
  obtain ⟨r, snapshot⟩ := trSnapshot_of_reaches idle ready phase (run _ _ .snapshot rfl)
  have track := fun ha : answers = [] =>
    trTrack_of_reaches idle ready phase (status.trans ha) (run _ _ .track rfl)
  have bmIdle := bm ▸ ready.bmIdle
  refine ⟨_, snapshot, ?_⟩
  simp +contextual [track, trFinish, startCycle, startCapture, State.trTo, State.busy, bmIdle,
    ready.fgIdle, bm, bus, fb, status, pixels, io, commanded_act, commanded_io]

/-- Settles O48: the input makes the same move as the operation, and that is R31's values. -/
theorem blockResetFromAnyState : Obligations.BlockResetFromAnyState := by
  refine ⟨?_, fun s => ⟨blockReset s, rfl, ?_⟩⟩
  · intro s rest hs hh
    exact step_hostMove hs hh rfl
  · simp [blockReset, State.busy]

/-- Settles O5: what the port holds is in format H, whose operands fit. -/
theorem stepRunsTheDecodedInstruction : Obligations.StepRunsTheDecodedInstruction := by
  intro s i hs hd
  exact ⟨decodeOperation_wellFormed hd, step_serves hs hd⟩

/-- Settles O47: each value is read off the state after reset. -/
theorem resetValues : Obligations.ResetValues := by
  intro c
  exact ⟨rfl, rfl, rfl, rfl, (by decide : (0#8).getLsbD 7 = false), rfl, rfl, rfl, rfl, rfl, rfl, rfl, rfl,
    rfl, rfl, rfl⟩

/-- Settles O49: the thirteen operations share one refusal. -/
theorem busyBlockRefusesRequests : Obligations.BusyBlockRefusesRequests := by
  intro i s hi hb
  exact exec_busy hi hb

end

/-! A run that ends where nothing can go on, and a machine that stays there (R48, R50, R213). -/

namespace Sys2Proof.Machine

variable {s t : State} {n : Nat}

/-- With no agent that can step, and nothing coming from outside, a step changes nothing. -/
theorem step_held (hs : s.op.strobe = false) (hh : HostWaits s) (hp : s.env.pace = [])
    (ht : tick s = .ok none) : step s = .next s := by
  rw [step_runs hs hh, resume_of_unpaced hp, drive_held ht]

/-- A run given more steps than the measure allows is not ended by the count of them. -/
theorem drive_ends_held (hn : remaining s < n) (h : drive n s = .next t) : tick t = .ok none := by
  induction n generalizing s with
  | zero => omega
  | succ n ih =>
    cases hk : tick s with
    | error r => rw [drive_refused hk] at h; cases h
    | ok o =>
      cases o with
      | none => rw [drive_held hk] at h; cases h; exact hk
      | some u =>
        rw [drive_moved hk] at h
        have lower := tick_remaining hk
        exact ih (by omega) h

end Sys2Proof.Machine

/-! The frame buffer's bounds (R42, R45, R140). -/

namespace Sys2Proof.Machine

variable {s t : State} {c : Cfg}

/-- The address of a clamped coordinate lies in the frame buffer (R140). -/
theorem pixAddr_lt (hr : 1 ≤ c.rows) (hc : 1 ≤ c.cols) (row col : Int) :
    pixAddr c row col < c.rows * c.cols := by
  obtain ⟨row0, row1⟩ := clampInt_mem (v := row) (lo := 0) (hi := (c.rows : Int) - 1) (by omega)
  obtain ⟨col0, col1⟩ := clampInt_mem (v := col) (lo := 0) (hi := (c.cols : Int) - 1) (by omega)
  have inRows := mul_le_mul_of_nonneg_right row1 (Int.natCast_nonneg c.cols)
  have nonneg := mul_nonneg row0 (Int.natCast_nonneg c.cols)
  rw [sub_mul, one_mul] at inRows
  unfold pixAddr
  zify
  rw [Int.toNat_of_nonneg (by omega)]
  omega

/-- A store through the accessor stays in the frame buffer. -/
theorem write_pixAddr_lt (hr : 1 ≤ c.rows) (hc : 1 ≤ c.cols) {m : List Host.Cell}
    (h : ∀ e ∈ m, e.1 < c.rows * c.cols) (row col : Int) (v : Byte) :
    ∀ e ∈ Memory.write m (pixAddr c row col) v, e.1 < c.rows * c.cols := by
  intro e he
  rcases Memory.mem_write he with rfl | old
  · exact pixAddr_lt hr hc row col
  · exact h e old

/-- The frame buffer has a row and a column (R4), and every byte of it lies inside it. -/
def FrameBounded (s : State) : Prop := 1 ≤ s.cfg.rows ∧ 1 ≤ s.cfg.cols ∧ FrameInRange s

theorem FrameBounded.of_tick (h : FrameBounded s) (ht : tick s = .ok (some t)) :
    FrameBounded t := by
  obtain ⟨rows, cols, inRange⟩ := h
  unfold FrameBounded FrameInRange
  rw [(tick_around ht).1.cfg]
  exact ⟨rows, cols, tick_frame (fun m => ∀ e ∈ m, e.1 < s.cfg.rows * s.cfg.cols) inRange
    (fun _ row col v hm => write_pixAddr_lt rows cols hm row col v) ht⟩

/-- Every store goes through the accessor, whose address is a clamped one, and a reset empties the
frame. -/
theorem FrameBounded.of_step (h : FrameBounded s) (hst : step s = .next t) : FrameBounded t :=
  step_keeps FrameBounded
    (quiet := fun _ _ _ h => h)
    (hticks := fun _ _ h ht => h.of_tick ht)
    (xfer := fun _ _ _ _ _ _ _ h => h)
    (capture := fun _ _ h => h)
    (cycle := fun _ _ h => h)
    (tracker := fun _ _ _ _ _ h => h)
    (init := fun _ _ _ _ h hi => by
      rw [initBus_eq] at hi
      cases hi
      exact h)
    (store := fun _ row col v ⟨rows, cols, inRange⟩ =>
      ⟨rows, cols, write_pixAddr_lt rows cols inRange row col v⟩)
    (reset := fun _ ⟨rows, cols, _⟩ => ⟨rows, cols, fun _ he => (nomatch he)⟩)
    (h := h) (hst := hst)

end Sys2Proof.Machine

/-! The reads of one wait, counted (R50, R122 to R124, R129). -/

namespace Sys2Proof.Machine

variable {s t : State} {bit : Nat} {level : Bool} {next : State → State} {others rest : List Byte}

/-- Each read that shows the other level takes one step of the run and leaves the wait where it is. -/
theorem drive_polls (hi : s.bus.inflight = none) (hb : s.bm.phase = .idle)
    (hw : waitOf s.cfg s.fg.phase = some (bit, level, next))
    (ho : ∀ x ∈ others, x.getLsbD bit ≠ level) (hs : s.env.status = others ++ rest) (n : Nat) :
    drive (others.length + n) s = drive n (s.withEnv { s.env with status := rest }) := by
  induction others generalizing s with
  | nil =>
    obtain rfl : s.env.status = rest := hs
    rw [List.length_nil, Nat.zero_add]
    rfl
  | cons x xs ih =>
    obtain ⟨hx, hxs⟩ := List.forall_mem_cons.1 ho
    have ticks := tick_wait hi hb hw
    rw [pollLevel_answered hs, if_neg hx] at ticks
    rw [List.length_cons, Nat.succ_add, drive_moved ticks]
    exact ih (s := s.withEnv { s.env with status := xs ++ rest }) hi hb hw hxs rfl

/-- The first read of the awaited level ends the wait (R50). -/
theorem drive_wait_ends (hi : s.bus.inflight = none) (hb : s.bm.phase = .idle)
    (hw : waitOf s.cfg s.fg.phase = some (bit, level, next)) {b : Byte}
    (ho : ∀ x ∈ others, x.getLsbD bit ≠ level) (hl : b.getLsbD bit = level)
    (hs : s.env.status = others ++ b :: rest) :
    drive (others.length + 1) s = .next (next (s.withEnv { s.env with status := rest })) := by
  rw [drive_polls hi hb hw ho hs]
  have ticks := tick_wait (s := s.withEnv { s.env with status := b :: rest }) hi hb hw
  rw [pollLevel_answered rfl, if_pos hl] at ticks
  rw [drive_moved ticks, drive_zero]
  rfl

/-- A wait that never sees the awaited level takes every answer of the sensor, and holds (R129). -/
theorem resume_wait_holds (hi : s.bus.inflight = none) (hb : s.bm.phase = .idle)
    (hw : waitOf s.cfg s.fg.phase = some (bit, level, next)) (hp : s.env.pace = [])
    (ho : ∀ x ∈ s.env.status, x.getLsbD bit ≠ level) :
    resume s = .next (s.withEnv { s.env with status := [] }) := by
  have ample : ampleSteps s = s.env.status.length + (64 + 5 * s.env.status.length) := by
    unfold ampleSteps
    omega
  rw [resume_of_unpaced hp, ample, drive_polls hi hb hw ho (List.append_nil _).symm]
  exact drive_held (tick_wait_held (s := s.withEnv { s.env with status := [] }) hi hb hw rfl)

/-- Whether a move of the host lands does not depend on the answers of the sensor. -/
theorem HostWaits.withStatus (h : HostWaits s) (answers : List Byte) :
    HostWaits (s.withEnv { s.env with status := answers }) := h

/-- A block in which FG waits is busy. -/
theorem busy_of_wait (hw : waitOf s.cfg s.fg.phase = some (bit, level, next)) : s.busy = true := by
  simp [State.busy, waitOf_phase hw]

end Sys2Proof.Machine

/-! The obligations. -/

section

open Sys2Proof Sys2Proof.Machine

/-- Settles O8: the measure starts below the steps given to the run, and every one of them lowers it. -/
theorem uncountedRunEndsHeld : Obligations.UncountedRunEndsHeld := by
  intro s t hp h
  rw [resume_of_unpaced hp] at h
  exact drive_ends_held (remaining_lt s) h

/-- Settles O30: a read of the other level is one step, a read of the awaited level the last, and with no
read left the machine is held. -/
theorem waitEndsAtTheAwaitedLevel : Obligations.WaitEndsAtTheAwaitedLevel := by
  constructor
  · intro s bit level after others b rest hi hb hw hs ho hl
    exact drive_wait_ends hi hb hw ho hl hs
  · rintro s t bit level after hi hb hstrobe hh hp hw ho rfl
    have held := tick_wait_held (s := s.withEnv { s.env with status := [] }) hi hb hw rfl
    exact ⟨(step_runs hstrobe hh).trans (resume_wait_holds hi hb hw hp ho),
      step_held hstrobe (hh.withStatus []) hp held, busy_of_wait hw⟩

/-- Settles O55: a step stores at clamped coordinates only. -/
theorem stepKeepsFrameInRange : Obligations.StepKeepsFrameInRange := by
  intro s t rows cols inRange hst
  obtain ⟨-, -, kept⟩ := FrameBounded.of_step ⟨rows, cols, inRange⟩ hst
  exact kept

/-- Settles O7: the step is a run that is held at its start. -/
theorem heldMachineStaysPut : Obligations.HeldMachineStaysPut := by
  intro s hs hh hp ht
  exact step_held hs hh hp ht

end

/-! The encodings: the registers, the bytes, the encoder read back (R60 to R66, R68). -/

namespace Sys2Proof

/-- A rectangle that fits its four registers is read back from them. -/
theorem RectRegs.value_of {r : Rect} (h : r.ok = true) : (RectRegs.of r).value = r := by
  simp only [Rect.ok, Bool.and_eq_true, and_assoc] at h
  obtain ⟨hrs, hre, hcs, hce⟩ := h
  rw [RectRegs.value, RectRegs.of, coord_toInt_ofInt hrs, coord_toInt_ofInt hre,
    coord_toInt_ofInt hcs, coord_toInt_ofInt hce]

@[simp] theorem encode_instr (c : Cmd) : encode c.instr = cmdPacket c := by cases c <;> rfl

theorem wellFormed_instr (c : Cmd) : wellFormed c.instr = true := by cases c <;> rfl

@[simp] theorem decode_cmdPacket (c : Cmd) : decode (cmdPacket c) = .ok c.instr := by
  simp [decode, cmdPacket, decodeCommand]

theorem decode_encode_instr (c : Cmd) : decode (encode c.instr) = .ok c.instr := by
  rw [encode_instr, decode_cmdPacket]

@[simp] theorem decodeAddress_addrWord (addr : BitVec 7) (d : Bool) :
    decodeAddress (addrWord addr d) = .addrByte addr d := by
  have address : (addr ++ BitVec.ofBool d).extractLsb' 1 7 = addr :=
    BitVec.extractLsb'_append_eq_left
  have direction : (addr ++ BitVec.ofBool d).getLsbD 0 = d := by
    rw [BitVec.getLsbD_append, if_pos Nat.one_pos, BitVec.getLsbD_ofBool, decide_eq_true rfl,
      Bool.true_and]
  rw [addrWord, decodeAddress, address, direction]

/-- An address byte is its address with its direction bit below it (R66). -/
theorem addrWord_fields (w : Byte) : addrWord (w.extractLsb' 1 7) (w.getLsbD 0) = w := by
  have low : BitVec.ofBool (w.getLsbD 0) = w.extractLsb' 0 1 := by
    ext k hk
    obtain rfl : k = 0 := by omega
    simp
  rw [addrWord, low]
  exact (BitVec.extractLsb'_append_extractLsb'_eq_extractLsb' rfl).trans BitVec.extractLsb'_eq_self

/-- An operation word is read with the operand registers beside it. -/
theorem decode_opPacket (w : Byte) (x : Operands) : decode (opPacket w x) = decodeOperation w x := rfl

theorem decodeOperation_xferWord (d s a : Bool) (x : Operands) :
    decodeOperation (xferWord d s a) x = .ok (.bmXfer d s a x.data) := by
  cases d <;> cases s <;> cases a <;> rfl

/-- The decoder reads back what the encoder wrote, where the coordinates fit their registers. -/
theorem decode_encode {i : Instr} (h : wellFormed i = true) : decode (encode i) = .ok i := by
  cases i with
  | bmInit | bmRegwr | bmRegrd | fgCapture | blkReset => exact decode_opPacket _ _
  | bmXfer d s a data => exact decodeOperation_xferWord d s a _
  | fbRdpix row col =>
    obtain ⟨hrow, hcol⟩ := Bool.and_eq_true_iff.1 h
    refine (decode_opPacket _ _).trans ?_
    change Except.ok (Instr.fbRdpix _ _) = _
    rw [coord_toInt_ofInt hrow, coord_toInt_ofInt hcol]
  | fbWrpix row col val =>
    obtain ⟨hrow, hcol⟩ := Bool.and_eq_true_iff.1 h
    refine (decode_opPacket _ _).trans ?_
    change Except.ok (Instr.fbWrpix _ _ _) = _
    rw [coord_toInt_ofInt hrow, coord_toInt_ofInt hcol]
  | trUpdthr roi =>
    refine (decode_opPacket _ _).trans ?_
    exact congrArg (Except.ok <| Instr.trUpdthr ·) (RectRegs.value_of h)
  | trLocate roi thr =>
    refine (decode_opPacket _ _).trans ?_
    exact congrArg (Except.ok <| Instr.trLocate · thr) (RectRegs.value_of h)
  | trError box c =>
    obtain ⟨hbox, hc⟩ := Bool.and_eq_true_iff.1 h
    obtain ⟨hrow, hcol⟩ := Bool.and_eq_true_iff.1 hc
    refine (decode_opPacket _ _).trans ?_
    change Except.ok (Instr.trError _ ⟨_, _⟩) = _
    rw [RectRegs.value_of hbox, coord_toInt_ofInt hrow, coord_toInt_ofInt hcol]
  | trCommand panError tiltError lastPan lastTilt =>
    obtain ⟨hpan, htilt⟩ := Bool.and_eq_true_iff.1 h
    refine (decode_opPacket _ _).trans ?_
    change Except.ok (Instr.trCommand _ _ _ _) = _
    rw [coord_toInt_ofInt hpan, coord_toInt_ofInt htilt]
  | trSnapshot roi =>
    refine (decode_opPacket _ _).trans ?_
    exact congrArg (Except.ok <| Instr.trSnapshot ·) (RectRegs.value_of h)
  | trTrack roi =>
    refine (decode_opPacket _ _).trans ?_
    exact congrArg (Except.ok <| Instr.trTrack ·) (RectRegs.value_of h)
  | cStaWr => exact decode_encode_instr .staWr
  | cWr => exact decode_encode_instr .wr
  | cWrSto => exact decode_encode_instr .wrSto
  | cRd => exact decode_encode_instr .rd
  | cRdNackSto => exact decode_encode_instr .rdNackSto
  | cSto => exact decode_encode_instr .sto
  | cRdNack => exact decode_encode_instr .rdNack
  | cRdSto => exact decode_encode_instr .rdSto
  | addrByte addr d => exact congrArg Except.ok (decodeAddress_addrWord addr d)

end Sys2Proof

/-! The decoder of operation words, by its code and its flags (R61, R63, R69). -/

namespace Sys2Proof

variable {w : Byte} {x : Operands} {i : Instr}

/-- Bits 7:4 of an operation word. -/
def opCode (w : Byte) : Nat := (w.extractLsb' 4 4).toNat

/-- Bits 3:0 of an operation word. -/
def opFlags (w : Byte) : BitVec 4 := w.extractLsb' 0 4

/-- An operation word is its code above its flags (R61). -/
theorem toNat_eq_opCode_opFlags (w : Byte) : w.toNat = 16 * opCode w + (opFlags w).toNat := by
  simp only [opCode, opFlags, BitVec.extractLsb'_toNat, Nat.shiftRight_eq_div_pow]
  omega

/-- What the decoder makes of an operation word: an operation without flags under a code of its own,
`BM_XFER` with its descriptor in the flags, or nothing under a reserved code. -/
inductive OperationRead (w : Byte) (x : Operands) : Prop where
  | plain (i : Instr) (code : opCode w ≠ 0 ∧ opCode w ≠ 2 ∧ opCode w ≠ 14)
      (format : (encode i).format = .operation) (word : (encode i).word.toNat = 16 * opCode w)
      (eq : decodeOperation w x = plainOp (opFlags w) i)
  | xfer (code : opCode w = 2)
      (eq : decodeOperation w x =
        if (opFlags w).getLsbD 3 then .error .reservedFlags
        else .ok (.bmXfer ((opFlags w).getLsbD 2) ((opFlags w).getLsbD 1)
          ((opFlags w).getLsbD 0) x.data))
  | reserved (code : opCode w = 0 ∨ opCode w = 14)
      (eq : decodeOperation w x = .error .reservedCode)

/-- Each of the sixteen codes is of one of the three kinds. -/
theorem decodeOperation_read (w : Byte) (x : Operands) : OperationRead w x := by
  have bound : opCode w < 16 := (w.extractLsb' 4 4).isLt
  have read := decodeOperation.eq_def w x
  simp only at read
  split at read
  case h_2 code => exact .xfer code read
  case h_15 =>
    refine .reserved ?_ read
    simp only [opCode, imp_false] at *
    omega
  all_goals
    rename_i code
    change opCode w = _ at code
    exact .plain _ (by simp [code]) rfl (by rw [code]; rfl) read

theorem plainOp_ok {f : BitVec 4} {j : Instr} (h : plainOp f j = .ok i) : f = 0 ∧ j = i := by
  unfold plainOp at h
  split at h <;> cases h
  exact ⟨‹_›, rfl⟩

/-- With `flags[3]` clear the flags are the descriptor of a `BM_XFER` word (R63). -/
theorem toNat_xferWord {f : BitVec 4} (h : f.getLsbD 3 = false) :
    (xferWord (f.getLsbD 2) (f.getLsbD 1) (f.getLsbD 0)).toNat = 32 + f.toNat :=
  (by decide : ∀ f : BitVec 4, f.getLsbD 3 = false →
    (xferWord (f.getLsbD 2) (f.getLsbD 1) (f.getLsbD 0)).toNat = 32 + f.toNat) f h

/-- An operation that decodes encodes to the word it was read from. -/
theorem encode_of_decodeOperation (h : decodeOperation w x = .ok i) :
    (encode i).format = .operation ∧ (encode i).word = w := by
  have parts := toNat_eq_opCode_opFlags w
  rcases decodeOperation_read w x with ⟨j, -, format, word, eq⟩ | ⟨code, eq⟩ | ⟨-, eq⟩
  · obtain ⟨flags, rfl⟩ := plainOp_ok (eq.symm.trans h)
    refine ⟨format, BitVec.eq_of_toNat_eq ?_⟩
    rw [word, parts, flags]
    rfl
  · rw [h] at eq
    split at eq <;> cases eq
    rename_i clear
    refine ⟨rfl, BitVec.eq_of_toNat_eq ?_⟩
    rw [parts, code]
    exact toNat_xferWord (by simpa using clear)
  · rw [h] at eq
    cases eq

/-- A command byte that decodes is the byte of a command, and stands for it. -/
theorem decodeCommand_ok (h : decodeCommand w = .ok i) : ∃ c : Cmd, c.instr = i ∧ c.byte = w := by
  unfold decodeCommand at h
  split at h <;> cases h
  exact ⟨_, rfl, Cmd.byte_of_ofByte ‹_›⟩

theorem decodeCommand_reserved (h : Cmd.ofByte w = none) :
    decodeCommand w = .error .reservedCommand := by
  rw [decodeCommand, h]

/-- Every byte but the eight of R65 is no command. -/
theorem Cmd.ofByte_eq_none
    (h : w ∉ [0x90#8, 0x10#8, 0x50#8, 0x20#8, 0x68#8, 0x40#8, 0x28#8, 0x60#8]) :
    Cmd.ofByte w = none := by
  have legal (c : Cmd) :
      c.byte ∈ [0x90#8, 0x10#8, 0x50#8, 0x20#8, 0x68#8, 0x40#8, 0x28#8, 0x60#8] := by
    cases c <;> decide
  cases hc : Cmd.ofByte w with
  | none => rfl
  | some c => exact absurd (byte_of_ofByte hc ▸ legal c) h

namespace Machine

/-- R69's reserved words, by code and flags. -/
theorem reservedWord_iff : reservedWord w = true ↔
    opCode w = 0 ∨ opCode w = 14 ∨ (opFlags w).getLsbD 3 = true ∨
      (opCode w ≠ 2 ∧ opFlags w ≠ 0) := by
  simp [reservedWord, opCode, opFlags, ← BitVec.toNat_inj, or_assoc]

/-- A reserved word is refused for its code or for its flags. -/
theorem decodeOperation_reserved (h : reservedWord w = true) (x : Operands) :
    decodeOperation w x = .error .reservedCode ∨ decodeOperation w x = .error .reservedFlags := by
  rw [reservedWord_iff] at h
  rcases decodeOperation_read w x with ⟨i, ⟨zero, two, fourteen⟩, -, -, eq⟩ | ⟨code, eq⟩ | ⟨-, eq⟩
  · have flags : opFlags w ≠ 0 := by
      intro clear
      simp [zero, two, fourteen, clear] at h
    exact .inr (eq.trans (if_neg flags))
  · have flags : (opFlags w).getLsbD 3 = true := by simpa [code] using h
    exact .inr (eq.trans (if_pos flags))
  · exact .inl eq

/-- Every other operation word decodes. -/
theorem decodeOperation_legal (h : reservedWord w = false) (x : Operands) :
    ∃ i, decodeOperation w x = .ok i := by
  have legal := reservedWord_iff.not.1 (by simp [h] : ¬ reservedWord w = true)
  push Not at legal
  obtain ⟨zero, fourteen, high, flags⟩ := legal
  rcases decodeOperation_read w x with ⟨i, ⟨-, two, -⟩, -, -, eq⟩ | ⟨-, eq⟩ | ⟨code, -⟩
  · exact ⟨i, eq.trans (if_pos (flags two))⟩
  · exact ⟨_, eq.trans (if_neg high)⟩
  · exact absurd code (by simp [zero, fourteen])

/-- A request that decodes to nothing is refused under the name of the reason (U10). -/
theorem step_rejects {s : State} {r : Reject} (hs : s.op.strobe = true)
    (hd : decode (portPacket s) = .error r) : step s = .refused (rejected r) := by
  unfold step
  rw [if_pos hs, hd]

/-- A write of a byte that is no command to `BM_CMD` is refused (U3). -/
theorem ioWrite_reserved (h : Cmd.ofByte w = none) (s : State) :
    ioWrite .cmdStatus w s = .error .reservedCommandByte := by
  rw [ioWrite, h]

end Machine

end Sys2Proof

/-! The obligations of the encoding family. -/

section

open Sys2Proof Sys2Proof.Machine

/-- Settles O1: the round trip, row by row. -/
theorem decodeOfEncodeIsTheInstruction : Obligations.DecodeOfEncodeIsTheInstruction := by
  intro i h
  exact decode_encode h

/-- Settles O2, format by format. -/
theorem decodedInstructionKeepsItsWord : Obligations.DecodedInstructionKeepsItsWord := by
  rintro ⟨format, w, x⟩ i h
  cases format with
  | operation => exact ⟨decodeOperation_wellFormed h, encode_of_decodeOperation h⟩
  | command =>
    obtain ⟨c, rfl, rfl⟩ := decodeCommand_ok h
    exact ⟨wellFormed_instr c, by simp [cmdPacket]⟩
  | address =>
    cases h
    exact ⟨rfl, rfl, addrWord_fields w⟩

/-- Settles O4: the decoder refuses the reserved words and reads the others, and the port and `BM_CMD`
refuse what it refuses. -/
theorem reservedWordsRefused : Obligations.ReservedWordsRefused := by
  refine ⟨fun w x => ⟨fun h => ?_, ?_⟩, fun s hs h => ?_, fun b s hb => ?_⟩
  · exact (decodeOperation_reserved h x).elim (⟨_, ·⟩) (⟨_, ·⟩)
  · rintro ⟨r, refused⟩
    by_contra h
    obtain ⟨i, read⟩ := decodeOperation_legal (by simpa using h) x
    rw [read] at refused
    cases refused
  · exact (decodeOperation_reserved h s.op.args).imp (step_rejects hs) (step_rejects hs)
  · have noCmd := Cmd.ofByte_eq_none hb
    exact ⟨decodeCommand_reserved noCmd, ioWrite_reserved noCmd s⟩

/-- Settles O3: each word's fields are read off its bits. -/
theorem specWordsDecode : Obligations.SpecWordsDecode :=
  ⟨rfl, rfl, rfl, rfl, rfl, rfl⟩

end

/-! The command bytes: each is its write, then its completion (R81 to R88, R98, R99). -/

namespace Sys2Proof.Machine

variable {s : State} {c : Cmd}

/-- A byte command that sends, answered by the slave. -/
theorem busCommand_write {a : Bool} {rest : List Bool} (he : s.enabled = true)
    (hi : s.bus.inflight = none) (hm : c.moves = true) (hw : c.write = true)
    (ho : c.sta = true ∨ s.bus.busOpen = true) (ha : s.env.slaveAcks = a :: rest) :
    busCommand c s = .next { s with
      bus := { s.bus with
        wire := s.bus.wire ++ ((if c.sta then [.start] else []) ++ [.tx s.bus.txr a]
          ++ (if c.stop then [.stop] else []))
        ack := a, tip := false, inflight := none
        busOpen := !c.stop && (c.sta || s.bus.busOpen) }
      env := { s.env with slaveAcks := rest }
      io := s.io ++ [.cmd c.byte] } := by
  have opened : (c.sta || s.bus.busOpen) = true := by simpa using ho
  rw [busCommand_ok (cmdWrite_moves he hi hm ho), coreTick_write (by exact he) rfl hw (by exact ho)
    (by exact ha), opened, Bool.and_true]
  rfl

/-- A byte command that receives, its byte supplied by the slave. -/
theorem busCommand_read {b : Byte} {rest : List Byte} (he : s.enabled = true)
    (hi : s.bus.inflight = none) (hm : c.moves = true) (hr : c.read = true)
    (ho : s.bus.busOpen = true) (hb : s.env.slaveBytes = b :: rest) :
    busCommand c s = .next { s with
      bus := { s.bus with
        wire := s.bus.wire ++ ([.rx b c.nack] ++ (if c.stop then [.stop] else []))
        rxr := b, ack := Config.freeBit .ackAfterRead s.env.draws, tip := false, inflight := none
        busOpen := !c.stop && s.bus.busOpen }
      env := { s.env with slaveBytes := rest, draws := s.env.draws + 1 }
      io := s.io ++ [.cmd c.byte] } := by
  rw [busCommand_ok (cmdWrite_moves he hi hm (.inr ho)),
    coreTick_read (by exact he) rfl hr (by exact ho) (by exact hb), ho, Bool.and_true]
  rfl

/-- STOP alone leaves nothing to complete. -/
theorem busCommand_sto (he : s.enabled = true) (hi : s.bus.inflight = none) :
    busCommand .sto s = .next { s with
      bus := { s.bus with wire := s.bus.wire ++ [.stop], busOpen := false }
      io := s.io ++ [.cmd 0x40] } := by
  rw [busCommand_ok (cmdWrite_sto he hi), coreTick_none (by exact hi)]
  rfl

/-- `BM_INIT` on an idle block whose bus is released. -/
theorem execBmInit_accepted (v : Byte) (hb : s.busy = false) (ho : s.bus.busOpen = false) :
    execBmInit v s = .next { s with
      bm := { s.bm with slaveAddr := v, inited := true }
      bus := { s.bus with
        divLo := s.cfg.clkDiv.extractLsb' 0 8, divHi := s.cfg.clkDiv.extractLsb' 8 8, ctrl := 0x80 }
      io := s.io ++ [.divLo (s.cfg.clkDiv.extractLsb' 0 8), .divHi (s.cfg.clkDiv.extractLsb' 8 8),
        .ctrl 0x80] } := by
  rw [execBmInit, if_neg (by simp [hb]), if_neg (by simp [ho]), initBus_eq]

end Sys2Proof.Machine

/-! One transfer, from its start to its return, by the slave's answers (R93, R94). -/

namespace Sys2Proof.Machine

variable {s : State}

/-- The state in which a transfer returns, before what follows it (`bmReturn`). -/
def returned (e : TransferEnd) (env : Env) (s : State) : State := { s with
  bm := { s.bm with success := e.success, dataOut := e.dataOut, phase := .idle }
  bus := { s.bus with
    txr := e.txr, rxr := e.rxr, ack := e.ack, tip := false, inflight := none,
    busOpen := e.busOpen, wire := s.bus.wire ++ e.events }
  env := env
  io := s.io ++ e.writes }

/-- The data phase of a transfer whose address byte was acknowledged. -/
def addressed (acks : List Bool) (s : State) : State := { s with
  bm := { s.bm with phase := firstPhase s.bm.dir false }
  bus := { s.bus with
    txr := slaveAddrByte s.bm.slaveAddr s.bm.dir, ack := false, tip := false, busOpen := true
    wire := s.bus.wire ++ [.start, .tx (slaveAddrByte s.bm.slaveAddr s.bm.dir) false] }
  env := { s.env with slaveAcks := acks }
  io := s.io ++ [.data (slaveAddrByte s.bm.slaveAddr s.bm.dir), .cmd 0x90] }

/-- The end of a write by the slave's answer to its byte: the rows DK0 and DK1 of R94. -/
def writeEnd (s : State) (stop a : Bool) (x : Byte) (nack : Bool) : TransferEnd :=
  if nack then writeNack s stop a x else writeAck s stop a x

/-- The address phase adds its events and writes to what the data phase leaves. -/
theorem returned_writeEnd_addressed (acks : List Bool) (env : Env) (stop : Bool) (x : Byte)
    (nack : Bool) (hd : s.bm.dir = false) :
    returned (writeEnd (addressed acks s) stop false x nack) env (addressed acks s) =
      returned (writeEnd s stop true x nack) env s := by
  cases nack <;>
    simp [returned, addressed, writeEnd, writeAck, writeNack, addrEvents, addrWrites, hd]

theorem returned_readByte_addressed (acks : List Bool) (env : Env) (stop : Bool) (b : Byte) (v : Bool)
    (hd : s.bm.dir = true) :
    returned (readByte (addressed acks s) stop false b v) env (addressed acks s) =
      returned (readByte s stop true b v) env s := by
  simp [returned, addressed, readByte, addrEvents, addrWrites, hd]

/-- An acknowledged address byte. -/
theorem reaches_addressed {acks : List Bool} (he : s.enabled = true) (hi : s.bus.inflight = none)
    (hp : s.bm.phase = .addrLoad) (ha : s.env.slaveAcks = false :: acks) :
    Reaches s (addressed acks s) :=
  ⟨5, run_addrPhase he hi hp ha⟩

/-- An address byte not acknowledged: FailStop follows. -/
theorem addrNack_returns {acks : List Bool} (he : s.enabled = true) (hi : s.bus.inflight = none)
    (hp : s.bm.phase = .addrLoad) (ha : s.env.slaveAcks = true :: acks) :
    Reaches s (bmReturn (returned (addrNack s s.bm.dir s.bm.dataOut)
      { s.env with slaveAcks := acks } s)) := by
  have addr : Reaches s _ := ⟨5, run_addrPhase he hi hp ha⟩
  have fails := addr.trans (.of_tick (tick_fail (by exact he) (by exact hi) rfl))
  simpa [returned, addrNack, hi] using fails

/-- The acknowledge check of a write (R93). -/
theorem dataCheck_write_returns (he : s.enabled = true) (hi : s.bus.inflight = none)
    (hp : s.bm.phase = .dataCheck) (hd : s.bm.dir = false) :
    Reaches s (bmReturn (if s.bus.ack then { s with
        bm := { s.bm with phase := .idle, success := false }
        bus := { s.bus with wire := s.bus.wire ++ [.stop], busOpen := false }
        io := s.io ++ [.cmd 0x40] }
      else { s with bm := { s.bm with success := true, phase := .idle } })) := by
  have check := Reaches.of_tick (tick_dataCheck_write hi hp hd)
  cases hk : s.bus.ack with
  | false => simpa [hk] using check
  | true =>
    rw [hk] at check
    exact check.trans (.of_tick (tick_fail (by exact he) (by exact hi) rfl))

/-- The data phase of a write that the slave hears. -/
theorem write_returns {nack : Bool} {acks : List Bool} (he : s.enabled = true)
    (hi : s.bus.inflight = none) (hp : s.bm.phase = .dataLoad) (hd : s.bm.dir = false)
    (ho : s.bus.busOpen = true) (hm : s.misdirected = false)
    (hx : s.bm.dataOut = s.bm.dataIn) (ha : s.env.slaveAcks = nack :: acks) :
    Reaches s (bmReturn (returned (writeEnd s s.bm.stop false s.bm.dataIn nack)
      { s.env with slaveAcks := acks } s)) := by
  have data : Reaches s _ := ⟨4, run_writePhase he hi hp hd ho hm ha⟩
  have checked := data.trans (dataCheck_write_returns (by exact he) (by exact hi) rfl (by exact hd))
  cases nack <;>
    simpa [returned, writeEnd, writeAck, writeNack, addrEvents, addrWrites, hi, hx] using checked

/-- The data phase of a read that the slave hears. -/
theorem read_returns {b : Byte} {bytes : List Byte} (he : s.enabled = true)
    (hi : s.bus.inflight = none) (hp : s.bm.phase = .dataIssue) (hd : s.bm.dir = true)
    (ho : s.bus.busOpen = true) (hm : s.misdirected = false) (hb : s.env.slaveBytes = b :: bytes) :
    ∃ v, Reaches s (bmReturn (returned (readByte s s.bm.stop false b v)
      { s.env with slaveBytes := bytes, draws := s.env.draws + 1 } s)) := by
  have data : Reaches s _ := ⟨3, run_readPhase he hi hp hd ho hm hb⟩
  have checked := data.trans (.of_tick (tick_dataCheck_read (by exact hi) rfl (by exact hd)))
  exact ⟨_, by simpa [returned, readByte, addrEvents, addrWrites, hi] using checked⟩

/-! The command of a data phase (R89). -/

@[simp] theorem dataCmd_write_write (p : NackPolicy) (stop : Bool) :
    (dataCmd p false stop).write = true := by
  cases stop <;> simp [dataCmd]

@[simp] theorem dataCmd_sta (p : NackPolicy) (d stop : Bool) : (dataCmd p d stop).sta = false := by
  cases p <;> cases d <;> cases stop <;> rfl

@[simp] theorem dataCmd_write_stop (p : NackPolicy) (stop : Bool) :
    (dataCmd p false stop).stop = stop := by
  cases stop <;> simp [dataCmd]

@[simp] theorem dataCmd_write_byte (p : NackPolicy) (stop : Bool) :
    (dataCmd p false stop).byte = if stop then 0x50 else 0x10 := by
  cases stop <;> rfl

/-! A data phase nobody answers: on a released bus, or in the other direction (R216, U4). -/

/-- The completion of a byte sent where nobody acknowledges it. -/
theorem coreTick_write_unanswered {c : Cmd} {l : Bool} (he : s.enabled = true)
    (hi : s.bus.inflight = some c) (hw : c.write = true) (hs : c.sta = false)
    (hn : s.bus.busOpen = false ∨ l = false) :
    coreTick l s = some { s with
      bus := { s.bus with
        wire := s.bus.wire ++ ([.tx s.bus.txr true] ++ (if c.stop then [.stop] else []))
        ack := true, tip := false, inflight := none, busOpen := s.bus.busOpen && !c.stop } } := by
  cases c <;> simp at hw hs <;>
    simp [coreTick, he, hi, coreComplete, startPart, writePart, readPart, stopPart, ackAnswer, hn,
      State.withBus, State.emit, State.openBus]

/-- The completion of a byte received where nobody supplies it. -/
theorem coreTick_read_unanswered {c : Cmd} {l : Bool} (he : s.enabled = true)
    (hi : s.bus.inflight = some c) (hr : c.read = true) (hn : s.bus.busOpen = false ∨ l = false) :
    coreTick l s = some { s with
      bus := { s.bus with
        wire := s.bus.wire ++ ([.rx (Config.freeByte .closedBusByte s.env.draws) c.nack]
          ++ (if c.stop then [.stop] else []))
        rxr := Config.freeByte .closedBusByte s.env.draws
        ack := Config.freeBit .ackAfterRead (s.env.draws + 1), tip := false, inflight := none
        busOpen := s.bus.busOpen && !c.stop }
      env := { s.env with draws := s.env.draws + 2 } } := by
  cases c <;> simp at hr <;>
    simp [coreTick, he, hi, coreComplete, startPart, writePart, readPart, stopPart, byteAnswer, hn,
      State.withBus, State.withEnv, State.emit, State.openBus, State.drawn]

/-- Where the policy is that nobody answers, the data command is written on every bus. -/
theorem tick_dataIssue_nobodyAnswers (he : s.enabled = true) (hi : s.bus.inflight = none)
    (hp : s.bm.phase = .dataIssue) (hc : s.cfg.closedBus = .nobodyAnswers) :
    tick s = .ok (some { s with
      bm := { s.bm with phase := .dataWait }
      bus := { s.bus with
        inflight := some (dataCmd s.cfg.nackPolicy s.bm.dir s.bm.stop), tip := true }
      io := s.io ++ [.cmd (dataCmd s.cfg.nackPolicy s.bm.dir s.bm.stop).byte] }) := by
  rw [tick_bm hi (by simp [hp])]
  simp only [bmTick, hp]
  rw [dataIssue, if_neg (by simp [hc]), ioWrite_cmd, cmdWrite_unanswered he hi (dataCmd_moves _ _ _) hc]
  rfl

/-- No transfer without address that nobody hears is heard at its wait. -/
theorem unanswered_dataWait (hp : s.bm.phase = .dataWait)
    (hn : s.bus.busOpen = false ∨ s.misdirected = true) :
    s.bus.busOpen = false ∨ s.listening = false := by
  simpa [State.listening, hp] using hn

/-- A transfer without address that nobody hears runs on a released bus or is misdirected. -/
theorem unheard_of (ha : s.bm.addr = false)
    (hn : s.bus.busOpen = false ∨ s.direction ≠ some s.bm.dir) :
    s.bus.busOpen = false ∨ s.misdirected = true := by
  cases ho : s.bus.busOpen with
  | false => exact .inl rfl
  | true => exact .inr (misdirected_other ha ho (hn.resolve_left (by simp [ho])))

/-- The data phase of a write that nobody hears: not acknowledged. -/
theorem write_unanswered_returns (he : s.enabled = true) (hi : s.bus.inflight = none)
    (hp : s.bm.phase = .dataLoad) (hd : s.bm.dir = false)
    (hn : s.bus.busOpen = false ∨ s.misdirected = true) (hc : s.cfg.closedBus = .nobodyAnswers)
    (hx : s.bm.dataOut = s.bm.dataIn) :
    Reaches s (bmReturn (returned (writeNack s s.bm.stop false s.bm.dataIn) s.env s)) := by
  have load := Reaches.of_tick (tick_dataLoad hi hp)
  have issue := load.trans (.of_tick (tick_dataIssue_nobodyAnswers (by exact he) (by exact hi) rfl
    (by exact hc)))
  have complete := issue.trans (.of_tick (tick_complete (by simp) rfl
    (coreTick_write_unanswered (by exact he) rfl (by simp [hd]) (by simp)
      (unanswered_dataWait rfl (by exact hn)))))
  have wait := complete.trans (.of_tick (tick_dataWait rfl rfl rfl))
  have checked := wait.trans (dataCheck_write_returns (by exact he) rfl rfl (by exact hd))
  simpa [returned, writeNack, addrEvents, addrWrites, stopIf, hi, hx, hd] using checked

/-- The data phase of a read that nobody hears: any byte. -/
theorem read_unanswered_returns (he : s.enabled = true) (hi : s.bus.inflight = none)
    (hp : s.bm.phase = .dataIssue) (hd : s.bm.dir = true)
    (hn : s.bus.busOpen = false ∨ s.misdirected = true) (hc : s.cfg.closedBus = .nobodyAnswers) :
    ∃ b v, Reaches s (bmReturn (returned
      { readByte s s.bm.stop false b v with busOpen := s.bus.busOpen && !s.bm.stop }
      { s.env with draws := s.env.draws + 2 } s)) := by
  have issue := Reaches.of_tick (tick_dataIssue_nobodyAnswers he hi hp hc)
  have complete := issue.trans (.of_tick (tick_complete (by simp) rfl
    (coreTick_read_unanswered (by exact he) rfl (by simp [hd])
      (unanswered_dataWait rfl (by exact hn)))))
  have wait := complete.trans (.of_tick (tick_dataWait rfl rfl rfl))
  have checked := wait.trans (.of_tick (tick_dataCheck_read rfl rfl (by exact hd)))
  exact ⟨_, _, by simpa [returned, readByte, addrEvents, addrWrites, stopIf, hi, hd] using checked⟩

/-! The direction a transfer leaves the bus held in (R216). -/

/-- An acknowledged write without STOP, after an address phase or on a bus held for writing. -/
theorem writeAck_holds {a : Bool} (x : Byte) (h : a = true ∨ s.direction = some false) :
    heldDirection (s.bus.wire ++ (writeAck s false a x).events).reverse = some false := by
  have addr : heldDirection (s.bus.wire ++ addrEvents s false a).reverse = some false := by
    cases a with
    | true => exact (heldDirection_addressed _ _).trans (congrArg some (slaveAddrByte_direction _ _))
    | false => simpa [addrEvents, State.direction] using h
  simpa [writeAck, stopIf] using heldDirection_tx addr x

/-- A read without STOP, after an address phase or on a bus held for reading. -/
theorem readByte_holds {a : Bool} (b : Byte) (v : Bool) (h : a = true ∨ s.direction = some true) :
    heldDirection (s.bus.wire ++ (readByte s false a b v).events).reverse = some true := by
  have addr : heldDirection (s.bus.wire ++ addrEvents s true a).reverse = some true := by
    cases a with
    | true => exact (heldDirection_addressed _ _).trans (congrArg some (slaveAddrByte_direction _ _))
    | false => simpa [addrEvents, State.direction] using h
  simpa [readByte, stopIf] using (heldDirection_rx _ b (readNack s.cfg false)).trans addr

/-! One transfer of an operation, by the slave's answers. -/

/-- Transfer `d stop a` with operand `x` of operation `i`, as it starts: the operation is latched (R62), the
descriptor loaded (R93). -/
abbrev begun (i : Instr) (n : BmSub) (d stop a : Bool) (x : Byte) (s : State) : State :=
  startXfer n d stop a x (s.withOp { s.op with cur := some i })

/-- From its start this transfer comes to its return, leaving `e`. -/
def XferReturns (i : Instr) (n : BmSub) (d stop a : Bool) (x : Byte) (s : State) (e : TransferEnd)
    (env : Env) : Prop :=
  Reaches (begun i n d stop a x s) (bmReturn (returned e env (begun i n d stop a x s)))

section Transfer

variable {i : Instr} {n : BmSub} {stop : Bool} {x : Byte} {acks : List Bool}
  (he : s.enabled = true) (hi : s.bus.inflight = none)
include he hi

theorem xfer_addrNack {d : Bool} (ha : s.env.slaveAcks = true :: acks) :
    XferReturns i n d stop true x s (addrNack s d x) { s.env with slaveAcks := acks } :=
  addrNack_returns (s := begun i n d stop true x s) he hi rfl ha

theorem xfer_write {nack : Bool} (ha : s.env.slaveAcks = false :: nack :: acks) :
    XferReturns i n false stop true x s (writeEnd s stop true x nack)
      { s.env with slaveAcks := acks } := by
  have addr := reaches_addressed (s := begun i n false stop true x s) he hi rfl ha
  have data := write_returns (s := addressed (nack :: acks) (begun i n false stop true x s)) he hi
    rfl rfl rfl (misdirected_addr rfl) rfl rfl
  rw [returned_writeEnd_addressed] at data
  · exact addr.trans data
  · rfl

theorem xfer_read {b : Byte} {bytes : List Byte} (ha : s.env.slaveAcks = false :: acks)
    (hb : s.env.slaveBytes = b :: bytes) :
    ∃ v, XferReturns i n true stop true x s (readByte s stop true b v)
      { s.env with slaveAcks := acks, slaveBytes := bytes, draws := s.env.draws + 1 } := by
  have addr := reaches_addressed (s := begun i n true stop true x s) he hi rfl ha
  obtain ⟨v, data⟩ := read_returns (s := addressed acks (begun i n true stop true x s)) he hi
    rfl rfl rfl (misdirected_addr rfl) hb
  rw [returned_readByte_addressed] at data
  · exact ⟨v, addr.trans data⟩
  · rfl

theorem xfer_write_held {nack : Bool} (ho : s.bus.busOpen = true) (hd : s.direction = some false)
    (ha : s.env.slaveAcks = nack :: acks) :
    XferReturns i n false stop false x s (writeEnd s stop false x nack)
      { s.env with slaveAcks := acks } :=
  write_returns (s := begun i n false stop false x s) he hi rfl rfl ho (misdirected_held hd) rfl ha

theorem xfer_read_held {b : Byte} {bytes : List Byte} (ho : s.bus.busOpen = true)
    (hd : s.direction = some true) (hb : s.env.slaveBytes = b :: bytes) :
    ∃ v, XferReturns i n true stop false x s (readByte s stop false b v)
      { s.env with slaveBytes := bytes, draws := s.env.draws + 1 } :=
  read_returns (s := begun i n true stop false x s) he hi rfl rfl ho (misdirected_held hd) hb

theorem xfer_write_unanswered (hc : s.cfg.closedBus = .nobodyAnswers)
    (hn : s.bus.busOpen = false ∨ s.direction ≠ some false) :
    XferReturns i n false stop false x s (writeNack s stop false x) s.env :=
  write_unanswered_returns (s := begun i n false stop false x s) he hi rfl rfl (unheard_of rfl hn)
    hc rfl

theorem xfer_read_unanswered (hc : s.cfg.closedBus = .nobodyAnswers)
    (hn : s.bus.busOpen = false ∨ s.direction ≠ some true) :
    ∃ b v, XferReturns i n true stop false x s
      { readByte s stop false b v with busOpen := s.bus.busOpen && !stop }
      { s.env with draws := s.env.draws + 2 } :=
  read_unanswered_returns (s := begun i n true stop false x s) he hi rfl rfl (unheard_of rfl hn) hc

end Transfer

end Sys2Proof.Machine

/-! What a BM operation answers, from what its transfers reach (R93, R96, R97). -/

namespace Sys2Proof.Machine

variable {s t : State} {i : Instr} {start : State → State} {n : BmSub} {d stop a : Bool} {x : Byte}
  {e : TransferEnd} {env : Env}

theorem acceptBus_of_reaches (h : BusReady s) (hs : ∀ u, (start u).env = u.env)
    (hr : Reaches (start (s.withOp { s.op with cur := some i })) t) (ht : tick t = .ok none) :
    acceptBus i start s = .next t := by
  obtain ⟨k, hk⟩ := hr
  exact acceptBus_of_runTicks h hs hk ht

/-- A `BM_XFER` ends when its transfer returns. -/
theorem bmXfer_ends (h : BusReady s) (hr : XferReturns (.bmXfer d stop a x) .none d stop a x s e env) :
    exec (.bmXfer d stop a x) s = .next (xferResults (transferEnd s d stop a x e env)) := by
  obtain ⟨-, hf, ht⟩ := busy_false_iff.1 h.free
  rw [XferReturns, bmReturn_xfer rfl (by simp [returned, startXfer])] at hr
  exact acceptBus_of_reaches h (fun _ => rfl) hr (tick_idle rfl rfl hf ht)

/-! The register-level operations: two transfers, one after the other. -/

/-- The operations whose first transfer sends a sub-address (R96, R97). -/
abbrev regStart (i : Instr) (sub : Byte) (s : State) : State := begun i .first false false true sub s

/-- A `BM_REGWR` ends when its second transfer returns, or its first with a failure (R96). -/
theorem bmRegwr_ends {sub val : Byte} (h : BusReady s) (hn : n = .first → e.success = false)
    (hr : Reaches (regStart (.bmRegwr sub val) sub s)
      (bmReturn (returned e env (begun (.bmRegwr sub val) n d stop a x s)))) :
    exec (.bmRegwr sub val) s = .next (regwrResults (transferEnd s d stop a x e env)) := by
  obtain ⟨-, hf, ht⟩ := busy_false_iff.1 h.free
  rw [bmReturn_regwr rfl hn] at hr
  exact acceptBus_of_reaches h (fun _ => rfl) hr (tick_idle rfl rfl hf ht)

/-- A `BM_REGRD` ends when one of its transfers returns with a failure: `val` is a free value (R97). -/
theorem bmRegrd_fails {sub : Byte} (h : BusReady s) (he : e.success = false)
    (hr : Reaches (regStart (.bmRegrd sub) sub s)
      (bmReturn (returned e env (begun (.bmRegrd sub) n d stop a x s)))) :
    ∃ v, exec (.bmRegrd sub) s = .next (regrdResults v
      (transferEnd s d stop a x e { env with draws := env.draws + 1 })) := by
  obtain ⟨-, hf, ht⟩ := busy_false_iff.1 h.free
  obtain ⟨events, writes, success, dataOut, txr, rxr, ack, busOpen⟩ := e
  obtain rfl : success = false := he
  rw [bmReturn_regrd_failed rfl rfl] at hr
  exact ⟨_, acceptBus_of_reaches h (fun _ => rfl) hr (tick_idle rfl rfl hf ht)⟩

/-- It ends when its second transfer returns: `val` is the byte read (R97). -/
theorem bmRegrd_succeeds {sub : Byte} (h : BusReady s) (he : e.success = true)
    (hr : Reaches (regStart (.bmRegrd sub) sub s)
      (bmReturn (returned e env (begun (.bmRegrd sub) .second d stop a x s)))) :
    exec (.bmRegrd sub) s = .next (regrdResults e.dataOut (transferEnd s d stop a x e env)) := by
  obtain ⟨-, hf, ht⟩ := busy_false_iff.1 h.free
  obtain ⟨events, writes, success, dataOut, txr, rxr, ack, busOpen⟩ := e
  obtain rfl : success = true := he
  rw [bmReturn_regrd rfl rfl (by simp [returned, startXfer])] at hr
  exact acceptBus_of_reaches h (fun _ => rfl) hr (tick_idle rfl rfl hf ht)

/-- What two transfers leave, one after the other. -/
def TransferEnd.andThen (e f : TransferEnd) : TransferEnd :=
  { f with events := e.events ++ f.events, writes := e.writes ++ f.writes }

/-- The first transfer has sent the sub-address and keeps the bus. -/
def subAddressSent (sub : Byte) (env : Env) (s : State) : State :=
  returned (writeAck s false true sub) env (startXfer .first false false true sub s)

theorem subAddressSent_direction (sub : Byte) (env : Env) (s : State) :
    (subAddressSent sub env s).direction = some false :=
  writeAck_holds (s := s) sub (.inl rfl)

theorem returned_subAddressSent (f : TransferEnd) (env env' : Env) (sub : Byte) :
    returned f env' (begun i n d stop a x (subAddressSent sub env s)) =
      returned ((writeAck s false true sub).andThen f) env' (begun i n d stop a x s) := by
  simp [returned, startXfer, subAddressSent, TransferEnd.andThen, State.withBm, State.withOp]

/-- The register write goes on with its value (R96). -/
theorem regwr_second (sub val : Byte) {acks : List Bool} (h : BusReady s)
    (ha : s.env.slaveAcks = false :: false :: acks) :
    Reaches (regStart (.bmRegwr sub val) sub s) (begun (.bmRegwr sub val) .second false true false val
      (subAddressSent sub { s.env with slaveAcks := acks } s)) := by
  have first := xfer_write (i := .bmRegwr sub val) (n := .first) (stop := false) (x := sub) h.enabled
    h.noCommand ha
  rw [XferReturns, bmReturn_regwr_second rfl rfl rfl] at first
  exact first

/-- The register read goes on with a read; its operand is a free value (R97). -/
theorem regrd_second (sub : Byte) {acks : List Bool} (h : BusReady s)
    (ha : s.env.slaveAcks = false :: false :: acks) :
    ∃ y, Reaches (regStart (.bmRegrd sub) sub s) (begun (.bmRegrd sub) .second true true true y
      (subAddressSent sub { s.env with slaveAcks := acks, draws := s.env.draws + 1 } s)) := by
  have first := xfer_write (i := .bmRegrd sub) (n := .first) (stop := false) (x := sub) h.enabled
    h.noCommand ha
  rw [XferReturns, bmReturn_regrd_second rfl rfl rfl] at first
  exact ⟨_, first⟩

/-- A second transfer that returns, as the return of both. -/
theorem Reaches.second_returns {sub : Byte} {m : BmSub} {env' : Env}
    (first : Reaches t (begun i m d stop a x (subAddressSent sub env s)))
    (second : XferReturns i m d stop a x (subAddressSent sub env s) e env') :
    Reaches t (bmReturn (returned ((writeAck s false true sub).andThen e) env'
      (begun i m d stop a x s))) := by
  rw [← returned_subAddressSent]
  exact first.trans second

end Sys2Proof.Machine

/-! A transfer that is refused where its data command is written (R216, U4). -/

namespace Sys2Proof.Machine

variable {s t : State} {i : Instr} {start : State → State} {n : BmSub} {d stop a : Bool} {x : Byte}

/-- A run that reaches a refusal within its steps is refused. -/
theorem drive_refused_of_runTicks {m k : Nat} {r : Refusal} (h : runTicks k s = some t)
    (ht : tick t = .error r) (hk : k < m) : drive m s = .refused r := by
  induction k generalizing s m with
  | zero =>
    obtain ⟨m, rfl⟩ : ∃ l, m = l + 1 := ⟨m - 1, by omega⟩
    cases h
    exact drive_refused ht
  | succ k ih =>
    obtain ⟨m, rfl⟩ : ∃ l, m = l + 1 := ⟨m - 1, by omega⟩
    simp only [runTicks] at h
    split at h <;> rename_i hs
    · rw [drive_moved hs]
      exact ih h (by omega)
    · cases h

theorem acceptBus_refused {r : Refusal} (h : BusReady s) (hs : ∀ u, (start u).env = u.env)
    (hr : Reaches (start (s.withOp { s.op with cur := some i })) t) (ht : tick t = .error r) :
    acceptBus i start s = .refused r := by
  obtain ⟨k, hk⟩ := hr
  have bound := runTicks_remaining hk
  have ample := remaining_lt (start (s.withOp { s.op with cur := some i }))
  unfold acceptBus launch
  rw [if_neg (by simp [h.free]), if_neg (by simp [h.inited]),
    resume_of_unpaced (by rw [hs]; exact h.unpaced)]
  exact drive_refused_of_runTicks hk ht (by omega)

/-- On a released bus the data command is refused by the default of `CLOSED_BUS_POLICY` (U4). -/
theorem tick_dataIssue_closed (he : s.enabled = true) (hi : s.bus.inflight = none)
    (hp : s.bm.phase = .dataIssue) (ho : s.bus.busOpen = false) (hc : s.cfg.closedBus = .refuse) :
    tick s = .error .closedBus := by
  rw [tick_bm hi (by simp [hp])]
  simp only [bmTick, hp]
  rw [dataIssue, if_neg (by simp [State.misdirected, ho]), ioWrite_cmd,
    cmdWrite_closed he hi (dataCmd_moves _ _ _) (dataCmd_sta _ _ _) ho hc]
  rfl

/-- A transfer without address comes to write its data command; a write has loaded its byte. -/
def atDataIssue (s : State) : State :=
  if s.bm.dir then s else { s with
    bm := { s.bm with phase := .dataIssue }
    bus := { s.bus with txr := s.bm.dataIn }
    io := s.io ++ [.data s.bm.dataIn] }

theorem begun_reaches_dataIssue (hi : s.bus.inflight = none) :
    Reaches (begun i n d stop false x s) (atDataIssue (begun i n d stop false x s)) := by
  cases d with
  | true => exact .refl _
  | false => exact .of_tick (tick_dataLoad hi rfl)

/-- A misdirected transfer is refused. -/
theorem bmXfer_wrongDirection (h : BusReady s) (ho : s.bus.busOpen = true)
    (hd : s.direction ≠ some d) (hc : s.cfg.closedBus = .refuse) :
    exec (.bmXfer d stop false x) s = .refused .wrongDirection := by
  have run := begun_reaches_dataIssue (i := .bmXfer d stop false x) (n := .none) (d := d) (stop := stop)
    (x := x) h.noCommand
  refine acceptBus_refused h (fun _ => rfl) run ?_
  cases d <;> exact tick_dataIssue_refused h.noCommand rfl (misdirected_other rfl ho hd) hc

/-- A transfer without address on a released bus is refused. -/
theorem bmXfer_closed (h : BusReady s) (ho : s.bus.busOpen = false) (hc : s.cfg.closedBus = .refuse) :
    exec (.bmXfer d stop false x) s = .refused .closedBus := by
  have run := begun_reaches_dataIssue (i := .bmXfer d stop false x) (n := .none) (d := d) (stop := stop)
    (x := x) h.noCommand
  refine acceptBus_refused h (fun _ => rfl) run ?_
  cases d <;> exact tick_dataIssue_closed h.enabled h.noCommand rfl ho hc

/-! A transfer that waits for the bus core (R91, R213). -/

/-- BM polls `TIP` in phase `p`, and command `c` cannot complete before the slave answers. -/
structure AwaitsCore (p : BmPhase) (c : Cmd) (s : State) : Prop where
  phase : s.bm.phase = p
  polls : p ≠ .idle
  flying : s.bus.inflight = some c
  tip : s.bus.tip = true
  listening : s.listening = true
  unanswered : coreTick true s = none
  unpaced : s.env.pace = []

/-- By ticks the block comes to such a poll, with `events` more on the wires. -/
def ComesToWait (s : State) (p : BmPhase) (c : Cmd) (events : List Event) : Prop :=
  ∃ t, Reaches s t ∧ AwaitsCore p c t ∧ t.bus.wire = s.bus.wire ++ events

variable {p : BmPhase} {c : Cmd} {events : List Event}

theorem ComesToWait.after {es : List Event} (hw : ComesToWait t p c events) (hr : Reaches s t)
    (he : t.bus.wire = s.bus.wire ++ es) : ComesToWait s p c (es ++ events) := by
  obtain ⟨u, run, waits, wire⟩ := hw
  exact ⟨u, hr.trans run, waits, by rw [wire, he, List.append_assoc]⟩

/-- A bus operation whose run comes to such a poll stays there. -/
theorem acceptBus_waits (h : BusReady s) (hs : ∀ u, (start u).env = u.env ∧ (start u).bus = u.bus)
    (hw : ComesToWait (start (s.withOp { s.op with cur := some i })) p c events) :
    ∃ t, acceptBus i start s = .next t ∧ WaitsForCore s t p c events := by
  obtain ⟨t, run, waits, wire⟩ := hw
  have held := tick_waits waits.flying waits.listening waits.unanswered
  refine ⟨t, acceptBus_of_reaches h (fun u => (hs u).1) run held, waits.phase, waits.flying, waits.tip,
    ?_, ?_, fun strobe host => step_held strobe host waits.unpaced held⟩
  · simp [State.busy, waits.phase, waits.polls]
  · rw [wire, (hs _).2, State.withOp_bus]

/-- The address byte is not answered. -/
theorem addr_waits (he : s.enabled = true) (hi : s.bus.inflight = none) (hp : s.bm.phase = .addrLoad)
    (hu : s.env.pace = []) (ha : s.env.slaveAcks = []) : ComesToWait s .addrWait .staWr [] :=
  ⟨_, ⟨2, run_addrWait he hi hp⟩, ⟨rfl, by simp, rfl, rfl, listening_phase (by simp),
    coreTick_waits rfl (.inl rfl) rfl ha, hu⟩, (List.append_nil _).symm⟩

/-- The byte of a write is not answered. -/
theorem write_waits (he : s.enabled = true) (hi : s.bus.inflight = none) (hp : s.bm.phase = .dataLoad)
    (hd : s.bm.dir = false) (ho : s.bus.busOpen = true) (hm : s.misdirected = false)
    (hu : s.env.pace = []) (ha : s.env.slaveAcks = []) :
    ComesToWait s .dataWait (dataCmd s.cfg.nackPolicy false s.bm.stop) [] :=
  hd ▸ ⟨_, ⟨2, run_writeWait he hi hp ho hm⟩, ⟨rfl, by simp, rfl, rfl, listening_of hm,
    coreTick_waits rfl (.inr ho) (by simp [hd]) ha, hu⟩, (List.append_nil _).symm⟩

/-- The byte of a read does not come. -/
theorem read_waits (he : s.enabled = true) (hi : s.bus.inflight = none) (hp : s.bm.phase = .dataIssue)
    (hd : s.bm.dir = true) (ho : s.bus.busOpen = true) (hm : s.misdirected = false)
    (hu : s.env.pace = []) (hb : s.env.slaveBytes = []) :
    ComesToWait s .dataWait (dataCmd s.cfg.nackPolicy true s.bm.stop) [] :=
  hd ▸ ⟨_, ⟨1, run_readWait he hi hp ho hm⟩, ⟨rfl, by simp, rfl, rfl, listening_of hm,
    coreTick_waits_byte rfl ho (by simp [hd]) hb, hu⟩, (List.append_nil _).symm⟩

section Waits

variable (he : s.enabled = true) (hi : s.bus.inflight = none) (hu : s.env.pace = [])
include he hi hu

theorem xfer_addr_waits (ha : s.env.slaveAcks = []) :
    ComesToWait (begun i n d stop true x s) .addrWait .staWr [] :=
  addr_waits (s := begun i n d stop true x s) he hi rfl hu ha

theorem xfer_write_waits (ha : s.env.slaveAcks = [false]) :
    ComesToWait (begun i n false stop true x s) .dataWait (dataCmd s.cfg.nackPolicy false stop)
      (addrEvents s false true) := by
  have addr := reaches_addressed (s := begun i n false stop true x s) he hi rfl ha
  have data := write_waits (s := addressed [] (begun i n false stop true x s)) he hi rfl rfl rfl
    (misdirected_addr rfl) hu rfl
  exact data.after addr rfl

theorem xfer_read_waits {acks : List Bool} (ha : s.env.slaveAcks = false :: acks)
    (hb : s.env.slaveBytes = []) :
    ComesToWait (begun i n true stop true x s) .dataWait (dataCmd s.cfg.nackPolicy true stop)
      (addrEvents s true true) := by
  have addr := reaches_addressed (s := begun i n true stop true x s) he hi rfl ha
  have data := read_waits (s := addressed acks (begun i n true stop true x s)) he hi rfl rfl rfl
    (misdirected_addr rfl) hu hb
  exact data.after addr rfl

theorem xfer_write_held_waits (ho : s.bus.busOpen = true) (hd : s.direction = some false)
    (ha : s.env.slaveAcks = []) :
    ComesToWait (begun i n false stop false x s) .dataWait (dataCmd s.cfg.nackPolicy false stop) [] :=
  write_waits (s := begun i n false stop false x s) he hi rfl rfl ho (misdirected_held hd) hu ha

theorem xfer_read_held_waits (ho : s.bus.busOpen = true) (hd : s.direction = some true)
    (hb : s.env.slaveBytes = []) :
    ComesToWait (begun i n true stop false x s) .dataWait (dataCmd s.cfg.nackPolicy true stop) [] :=
  read_waits (s := begun i n true stop false x s) he hi rfl rfl ho (misdirected_held hd) hu hb

end Waits

/-- A BM operation that comes to a poll of `TIP` waits there. -/
theorem bmXfer_waits (h : BusReady s)
    (hw : ComesToWait (begun (.bmXfer d stop a x) .none d stop a x s) p c events) :
    ∃ t, exec (.bmXfer d stop a x) s = .next t ∧ WaitsForCore s t p c events :=
  acceptBus_waits h (fun _ => ⟨rfl, rfl⟩) hw

theorem bmRegwr_waits {sub val : Byte} (h : BusReady s)
    (hw : ComesToWait (regStart (.bmRegwr sub val) sub s) p c events) :
    ∃ t, exec (.bmRegwr sub val) s = .next t ∧ WaitsForCore s t p c events :=
  acceptBus_waits h (fun _ => ⟨rfl, rfl⟩) hw

theorem bmRegrd_waits {sub : Byte} (h : BusReady s)
    (hw : ComesToWait (regStart (.bmRegrd sub) sub s) p c events) :
    ∃ t, exec (.bmRegrd sub) s = .next t ∧ WaitsForCore s t p c events :=
  acceptBus_waits h (fun _ => ⟨rfl, rfl⟩) hw

/-- A register-level operation whose second transfer waits: its first has put its events on the wires. -/
theorem Reaches.then_waits {m : BmSub} {sub : Byte} {env : Env}
    (first : Reaches (regStart i sub s) (begun i m d stop a x (subAddressSent sub env s)))
    (second : ComesToWait (begun i m d stop a x (subAddressSent sub env s)) p c events) :
    ComesToWait (regStart i sub s) p c (addrEvents s false true ++ [.tx sub false] ++ events) :=
  second.after first rfl

end Sys2Proof.Machine

/-! What a transfer that has ended has done to the bus (R93, R95, R216). -/

namespace Sys2Proof.Machine

variable {s : State} {d stop a : Bool} {x : Byte} {e : TransferEnd} {env : Env}

/-- The end `e` of a transfer `d stop a` keeps R95 (b), (d) and R93 (5). -/
structure ReleasesOrHolds (s : State) (d stop a : Bool) (e : TransferEnd) : Prop where
  stopWritten : e.success = false ∨ stop = true →
    ∃ c : Cmd, c.stop = true ∧ IoWrite.cmd c.byte ∈ e.writes
  released : e.success = false → e.busOpen = false
  held : e.success = true → stop = false → a = true ∨ s.cfg.closedBus = .refuse →
    e.busOpen = true ∧ heldDirection (s.bus.wire ++ e.events).reverse = some d

theorem addrNack_releases : ReleasesOrHolds s d stop a (addrNack s d x) where
  stopWritten _ := ⟨.sto, rfl, by simp [addrNack, Cmd.byte]⟩
  released _ := rfl
  held := nofun

theorem writeNack_releases : ReleasesOrHolds s false stop a (writeNack s stop a x) where
  stopWritten _ := ⟨.sto, rfl, by simp [writeNack, Cmd.byte]⟩
  released _ := rfl
  held := nofun

theorem writeAck_holdsOrStops (h : a = true ∨ s.direction = some false) :
    ReleasesOrHolds s false stop a (writeAck s stop a x) where
  stopWritten
    | .inr hs => ⟨.wrSto, rfl, by simp [writeAck, hs, Cmd.byte]⟩
  released := nofun
  held _ hs _ := by
    subst hs
    exact ⟨rfl, writeAck_holds x h⟩

theorem writeEnd_releasesOrHolds (nack : Bool) (h : a = true ∨ s.direction = some false) :
    ReleasesOrHolds s false stop a (writeEnd s stop a x nack) := by
  cases nack with
  | true => exact writeNack_releases
  | false => exact writeAck_holdsOrStops h

theorem readByte_holdsOrStops {b : Byte} {v : Bool} (h : a = true ∨ s.direction = some true) :
    ReleasesOrHolds s true stop a (readByte s stop a b v) where
  stopWritten
    | .inr hs => ⟨.rdNackSto, rfl, by simp [readByte, readWord, hs, Cmd.byte]⟩
  released := nofun
  held _ hs _ := by
    subst hs
    exact ⟨rfl, readByte_holds b v h⟩

/-- A read nobody hears holds no bus, and R216 asks none of it. -/
theorem readByte_unanswered_stops {b : Byte} {v o : Bool} (hc : s.cfg.closedBus = .nobodyAnswers) :
    ReleasesOrHolds s true stop false { readByte s stop false b v with busOpen := o } where
  stopWritten
    | .inr hs => ⟨.rdNackSto, rfl, by simp [readByte, readWord, hs, Cmd.byte]⟩
  released := nofun
  held _ _ h := by simp [hc] at h

/-- What a `BM_XFER` of a ready block can answer: a refusal, a wait, or an end of R94's table. -/
inductive XferAnswer (s : State) (d stop a : Bool) (x : Byte) :
    Host.Outcome State Fault Refusal → Prop where
  | refused (r : Refusal) : XferAnswer s d stop a x (.refused r)
  | waits (t : State) (busy : t.busy = true) : XferAnswer s d stop a x (.next t)
  | ended (e : TransferEnd) (env : Env) (rule : ReleasesOrHolds s d stop a e) :
    XferAnswer s d stop a x (.next (xferResults (transferEnd s d stop a x e env)))

theorem XferAnswer.of_waits {p : BmPhase} {c : Cmd} {events : List Event} (h : BusReady s)
    (hw : ComesToWait (begun (.bmXfer d stop a x) .none d stop a x s) p c events) :
    XferAnswer s d stop a x (exec (.bmXfer d stop a x) s) := by
  obtain ⟨t, answer, waits⟩ := bmXfer_waits h hw
  rw [answer]
  exact .waits t waits.busy

theorem XferAnswer.of_returns (h : BusReady s)
    (hr : XferReturns (.bmXfer d stop a x) .none d stop a x s e env)
    (rule : ReleasesOrHolds s d stop a e) : XferAnswer s d stop a x (exec (.bmXfer d stop a x) s) := by
  rw [bmXfer_ends h hr]
  exact .ended e env rule

theorem bmXfer_answer_addressed (h : BusReady s) :
    XferAnswer s d stop true x (exec (.bmXfer d stop true x) s) := by
  rcases ha : s.env.slaveAcks with _ | ⟨_ | _, acks⟩
  · exact .of_waits h (xfer_addr_waits h.enabled h.noCommand h.unpaced ha)
  · cases d with
    | false =>
      rcases acks with _ | ⟨nack, acks⟩
      · exact .of_waits h (xfer_write_waits h.enabled h.noCommand h.unpaced ha)
      · exact .of_returns h (xfer_write h.enabled h.noCommand ha) (writeEnd_releasesOrHolds _ (.inl rfl))
    | true =>
      rcases hb : s.env.slaveBytes with _ | ⟨b, bytes⟩
      · exact .of_waits h (xfer_read_waits h.enabled h.noCommand h.unpaced ha hb)
      · obtain ⟨v, run⟩ := xfer_read h.enabled h.noCommand ha hb
        exact .of_returns h run (readByte_holdsOrStops (.inl rfl))
  · exact .of_returns h (xfer_addrNack h.enabled h.noCommand ha) addrNack_releases

theorem bmXfer_answer_held (h : BusReady s) (ho : s.bus.busOpen = true) (hd : s.direction = some d) :
    XferAnswer s d stop false x (exec (.bmXfer d stop false x) s) := by
  cases d with
  | false =>
    rcases ha : s.env.slaveAcks with _ | ⟨nack, acks⟩
    · exact .of_waits h (xfer_write_held_waits h.enabled h.noCommand h.unpaced ho hd ha)
    · exact .of_returns h (xfer_write_held h.enabled h.noCommand ho hd ha)
        (writeEnd_releasesOrHolds _ (.inr hd))
  | true =>
    rcases hb : s.env.slaveBytes with _ | ⟨b, bytes⟩
    · exact .of_waits h (xfer_read_held_waits h.enabled h.noCommand h.unpaced ho hd hb)
    · obtain ⟨v, run⟩ := xfer_read_held h.enabled h.noCommand ho hd hb
      exact .of_returns h run (readByte_holdsOrStops (.inr hd))

theorem bmXfer_answer_unheard (h : BusReady s) (hn : s.bus.busOpen = false ∨ s.direction ≠ some d) :
    XferAnswer s d stop false x (exec (.bmXfer d stop false x) s) := by
  cases hc : s.cfg.closedBus with
  | refuse =>
    cases ho : s.bus.busOpen with
    | false => exact bmXfer_closed h ho hc ▸ .refused .closedBus
    | true =>
      have hd : s.direction ≠ some d := hn.resolve_left (by simp [ho])
      exact bmXfer_wrongDirection h ho hd hc ▸ .refused .wrongDirection
  | nobodyAnswers =>
    cases d with
    | false =>
      exact .of_returns h (xfer_write_unanswered h.enabled h.noCommand hc hn) writeNack_releases
    | true =>
      obtain ⟨b, v, run⟩ := xfer_read_unanswered h.enabled h.noCommand hc hn
      exact .of_returns h run (readByte_unanswered_stops hc)

theorem bmXfer_answer (h : BusReady s) : XferAnswer s d stop a x (exec (.bmXfer d stop a x) s) := by
  cases a with
  | true => exact bmXfer_answer_addressed h
  | false =>
    by_cases hn : s.bus.busOpen = false ∨ s.direction ≠ some d
    · exact bmXfer_answer_unheard h hn
    · obtain ⟨ho, hd⟩ := not_or.1 hn
      exact bmXfer_answer_held h (by simpa using ho) (not_not.1 hd)

end Sys2Proof.Machine

/-! The obligations of the bus master family. -/

section

open Sys2Proof Sys2Proof.Machine

/-- Settles O9: the write of a legal command byte that moves a byte. -/
theorem byteCommandWriteRaisesTip : Obligations.ByteCommandWriteRaisesTip := by
  intro c s hm he hi ho
  rw [ioWrite_cmd, cmdWrite_moves he hi hm ho]

/-- Settles O10: START needs no open bus. -/
theorem startWriteCompletes : Obligations.StartWriteCompletes := by
  intro s a rest he hi ha
  exact busCommand_write he hi rfl rfl (.inl rfl) ha

/-- Settles O11: the bus was open and is left so. -/
theorem writeCompletes : Obligations.WriteCompletes := by
  intro s a rest he hi ho ha
  exact busCommand_write he hi rfl rfl (.inr ho) ha

/-- Settles O12: the STOP part does not look at the acknowledge. -/
theorem writeStopCompletes : Obligations.WriteStopCompletes := by
  intro s a rest he hi ho ha
  exact busCommand_write he hi rfl rfl (.inr ho) ha

/-- Settles O13: the two bytes differ in the answer to the byte read. -/
theorem readsKeepingTheBusComplete : Obligations.ReadsKeepingTheBusComplete := by
  intro s b rest he hi ho hb
  exact ⟨⟨_, busCommand_read (c := .rd) he hi rfl rfl ho hb⟩,
    _, busCommand_read (c := .rdNack) he hi rfl rfl ho hb⟩

/-- Settles O14: the same two answers, then STOP. -/
theorem readsWithStopComplete : Obligations.ReadsWithStopComplete := by
  intro s b rest he hi ho hb
  exact ⟨⟨_, busCommand_read (c := .rdNackSto) he hi rfl rfl ho hb⟩,
    _, busCommand_read (c := .rdSto) he hi rfl rfl ho hb⟩

/-- Settles O15: STOP is on the wires at the write. -/
theorem stopAloneCompletes : Obligations.StopAloneCompletes := by
  intro s he hi
  exact busCommand_sto he hi

/-- Settles O18: three register writes, then the address. -/
theorem initConfiguresTheBus : Obligations.InitConfiguresTheBus := by
  intro v s hb ho
  exact execBmInit_accepted v hb ho

/-- Settles O19: the address phase fails, or the data phase is acknowledged or not. -/
theorem addressedWriteTransfer : Obligations.AddressedWriteTransfer := by
  intro s stop x rest h
  exact ⟨fun ha => bmXfer_ends h (xfer_addrNack h.enabled h.noCommand ha),
    fun ha => bmXfer_ends h (xfer_write (nack := false) h.enabled h.noCommand ha),
    fun ha => bmXfer_ends h (xfer_write (nack := true) h.enabled h.noCommand ha)⟩

/-- Settles O20: in the direction the bus is held in the slave answers; in another, the policy does. -/
theorem unaddressedWriteTransfer : Obligations.UnaddressedWriteTransfer := by
  intro s stop x rest h ho
  exact ⟨fun hd ha => bmXfer_ends h (xfer_write_held (nack := false) h.enabled h.noCommand ho hd ha),
    fun hd ha => bmXfer_ends h (xfer_write_held (nack := true) h.enabled h.noCommand ho hd ha),
    fun hd hc => bmXfer_wrongDirection h ho hd hc,
    fun hd hc => bmXfer_ends h (xfer_write_unanswered h.enabled h.noCommand hc (.inr hd))⟩

/-- Settles O21: the address phase fails, or a byte is received. -/
theorem addressedReadTransfer : Obligations.AddressedReadTransfer := by
  intro s stop x rest h
  refine ⟨fun ha => bmXfer_ends h (xfer_addrNack h.enabled h.noCommand ha), fun b more ha hb => ?_⟩
  obtain ⟨v, run⟩ := xfer_read h.enabled h.noCommand ha hb
  exact ⟨v, bmXfer_ends h run⟩

/-- Settles O22: the same for a read, whose byte nobody supplies in another direction. -/
theorem unaddressedReadTransfer : Obligations.UnaddressedReadTransfer := by
  intro s stop x h ho
  refine ⟨fun b more hd hb => ?_, fun hd hc => bmXfer_wrongDirection h ho hd hc, fun hd hc => ?_⟩
  · obtain ⟨v, run⟩ := xfer_read_held h.enabled h.noCommand ho hd hb
    exact ⟨v, bmXfer_ends h run⟩
  · obtain ⟨b, v, run⟩ := xfer_read_unanswered h.enabled h.noCommand hc (.inr hd)
    rw [ho] at run
    exact ⟨b, v, bmXfer_ends h run⟩

/-- Settles O23: the value is sent by a second transfer, and only after a good first one. -/
theorem registerWriteOutcomes : Obligations.RegisterWriteOutcomes := by
  intro s sub val rest h
  refine ⟨fun ha => ?_, fun ha => ?_, fun nack ha => ?_⟩
  · exact bmRegwr_ends h (fun _ => rfl) (xfer_addrNack h.enabled h.noCommand ha)
  · exact bmRegwr_ends h (fun _ => rfl) (xfer_write (nack := true) h.enabled h.noCommand ha)
  · have run := (regwr_second sub val h ha).second_returns
      (xfer_write_held (by exact h.enabled) rfl rfl (subAddressSent_direction _ _ _) rfl)
    have ends := bmRegwr_ends h (by simp) run
    cases nack <;> exact ends

/-- Settles O24: the first transfer fails, the second's address is not acknowledged, or the byte comes. -/
theorem registerReadOutcomes : Obligations.RegisterReadOutcomes := by
  intro s sub rest h
  refine ⟨fun ha => ?_, fun ha => ?_, fun ha => ?_, fun b more ha hb => ?_⟩
  · exact bmRegrd_fails h rfl (xfer_addrNack h.enabled h.noCommand ha)
  · exact bmRegrd_fails h rfl (xfer_write (nack := true) h.enabled h.noCommand ha)
  · obtain ⟨y, first⟩ := regrd_second sub h ha
    have run := first.second_returns (xfer_addrNack (by exact h.enabled) rfl rfl)
    obtain ⟨u, ends⟩ := bmRegrd_fails h rfl run
    exact ⟨u, y, ends⟩
  · obtain ⟨y, first⟩ := regrd_second sub h ha
    obtain ⟨v, second⟩ := xfer_read (s := subAddressSent sub
      { s.env with slaveAcks := false :: rest, draws := s.env.draws + 1 } s) h.enabled rfl rfl hb
    exact ⟨y, v, bmRegrd_succeeds h rfl (first.second_returns second)⟩

/-- Settles O25: a transfer that has come to its end is in a row of the table. -/
theorem transferReleasesOrHoldsTheBus : Obligations.TransferReleasesOrHoldsTheBus := by
  intro d stop a x s t h hx hb
  have answer := bmXfer_answer (d := d) (stop := stop) (a := a) (x := x) h
  rw [hx] at answer
  cases answer with
  | waits _ busy => rw [hb] at busy; cases busy
  | ended e env rule =>
    obtain ⟨stopWritten, released, held⟩ := rule
    refine ⟨fun hs => ?_, released, held⟩
    obtain ⟨c, hc, written⟩ := stopWritten hs
    exact ⟨c, hc, by simpa [xferResults, transferEnd] using written⟩

/-- Settles O27: each byte that can stay unanswered, in the order the operations send them. -/
theorem transferWaitsForTheCore : Obligations.TransferWaitsForTheCore := by
  refine ⟨fun s stop x h => ⟨fun d ha => ?_, fun ha => ?_, fun rest ha hb => ?_, fun ho hd ha => ?_,
    fun ho hd hb => ?_⟩, fun s sub val h => ⟨fun i hi => ⟨fun ha => ?_, fun ha => ?_⟩, fun ha => ⟨?_, ?_⟩,
    fun rest ha hb => ?_⟩⟩
  · exact bmXfer_waits h (xfer_addr_waits h.enabled h.noCommand h.unpaced ha)
  · exact bmXfer_waits h (xfer_write_waits h.enabled h.noCommand h.unpaced ha)
  · exact bmXfer_waits h (xfer_read_waits h.enabled h.noCommand h.unpaced ha hb)
  · exact bmXfer_waits h (xfer_write_held_waits h.enabled h.noCommand h.unpaced ho hd ha)
  · exact bmXfer_waits h (xfer_read_held_waits h.enabled h.noCommand h.unpaced ho hd hb)
  · have first := fun i => xfer_addr_waits (i := i) (n := .first) (d := false) (stop := false) (x := sub)
      h.enabled h.noCommand h.unpaced ha
    rcases hi with rfl | rfl
    · exact bmRegwr_waits h (first _)
    · exact bmRegrd_waits h (first _)
  · have first := fun i => xfer_write_waits (i := i) (n := .first) (stop := false) (x := sub)
      h.enabled h.noCommand h.unpaced ha
    rcases hi with rfl | rfl
    · exact bmRegwr_waits h (first _)
    · exact bmRegrd_waits h (first _)
  · have waits := (regwr_second sub val h ha).then_waits (xfer_write_held_waits (by exact h.enabled) rfl
      (by exact h.unpaced) rfl (subAddressSent_direction _ _ _) rfl)
    exact bmRegwr_waits h waits
  · obtain ⟨y, first⟩ := regrd_second sub h ha
    have waits := first.then_waits (xfer_addr_waits (by exact h.enabled) rfl (by exact h.unpaced) rfl)
    exact bmRegrd_waits h waits
  · obtain ⟨y, first⟩ := regrd_second sub h ha
    have waits := first.then_waits (xfer_read_waits (by exact h.enabled) rfl (by exact h.unpaced) rfl
      (by exact hb))
    exact bmRegrd_waits h waits

end

/-! One sample of a capture, and the summary byte (R125, R126, R128). -/

namespace Sys2Proof.Machine

variable {s : State} {p : Byte} {rest : List Byte}

theorem readFgPixel_answered (hp : s.env.pixels = p :: rest) :
    readFgPixel s = (p, s.withEnv { s.env with pixels := rest }) := by
  simp [readFgPixel, hp]

/-- The sample the latch answers is stored at its decimated coordinate and enters minimum and maximum. -/
theorem sampleAndStore_answered (hp : s.env.pixels = p :: rest) :
    sampleAndStore s = { s with
      fb := Memory.write s.fb (pixAddr s.cfg (decMap s.cfg s.fg.r s.fg.c).1
        (decMap s.cfg s.fg.r s.fg.c).2) p
      fg := { s.fg with min := byteMin s.fg.min p, max := byteMax s.fg.max p }
      env := { s.env with pixels := rest } } := by
  rw [sampleAndStore, readFgPixel_answered hp]
  rfl

/-- The tick of the sampling phase samples if the coordinate is kept, and goes on to the next column. -/
theorem tick_sample (hi : s.bus.inflight = none) (hb : s.bm.phase = .idle) (hf : s.fg.phase = .sample) :
    tick s = .ok (some (enterCol (s.fg.c + 1)
      (if kept s.cfg s.fg.r s.fg.c then sampleAndStore s else s))) := by
  rw [tick_fg hi hb (by simp [hf])]
  simp [fgTick, hf]

/-- Two halves of bytes do not carry out of a byte. -/
theorem summaryOf_toNat (lo hi : Byte) : (summaryOf lo hi).toNat = lo.toNat / 2 + hi.toNat / 2 := by
  have low := lo.isLt
  have high := hi.isLt
  rw [summaryOf, BitVec.toNat_add, BitVec.toNat_ushiftRight, BitVec.toNat_ushiftRight,
    Nat.shiftRight_one, Nat.shiftRight_one]
  exact Nat.mod_eq_of_lt (by omega)

end Sys2Proof.Machine

/-! The obligations of the frame grabber family. -/

section

open Sys2Proof Sys2Proof.Machine

/-- Settles O31: the sampling phase takes a kept sample, and passes over another. -/
theorem sampleStep : Obligations.SampleStep := by
  intro s hi hb hf
  refine ⟨fun hk p rest hp => ?_, fun hk => ?_⟩
  · rw [tick_sample hi hb hf, if_pos hk, sampleAndStore_answered hp]
  · rw [tick_sample hi hb hf, hk, if_neg Bool.false_ne_true]

/-- Settles O29: the started capture is held at once, in its first wait. -/
theorem captureWaitsForTheSensor : Obligations.CaptureWaitsForTheSensor := by
  intro s idle hs
  obtain ⟨hb, -, -⟩ := busy_false_iff.1 idle.free
  have held : tick (startCapture (s.withOp { s.op with cur := some .fgCapture })) = .ok none :=
    tick_wait_held idle.noCommand hb rfl hs
  exact accept_of_reaches idle (fun _ => rfl) (.refl _) held

/-- Settles O32: the sum is formed without wrap-around, and each half is at most 127. -/
theorem summaryHalvesThenAdds : Obligations.SummaryHalvesThenAdds := by
  intro lo hi
  have low := lo.isLt
  have high := hi.isLt
  rw [summaryOf_toNat]
  omega

end

/-! The addresses of the frame buffer, and its two operations on an idle block (R140 to R143). -/

namespace Sys2Proof.Machine

variable {s : State} {c : Cfg} {row col row' col' : Int}

theorem clampInt_clampInt {v lo hi : Int} (h : lo ≤ hi) :
    clampInt (clampInt v lo hi) lo hi = clampInt v lo hi :=
  clampInt_of_mem (clampInt_mem h).1 (clampInt_mem h).2

/-- The sum that is the address is not negative, so it is not cut off at zero. -/
theorem pixAddr_toInt (hr : 1 ≤ c.rows) (hc : 1 ≤ c.cols) (row col : Int) :
    (pixAddr c row col : Int) =
      clampInt row 0 ((c.rows : Int) - 1) * (c.cols : Int) + clampInt col 0 ((c.cols : Int) - 1) := by
  obtain ⟨row0, -⟩ := clampInt_mem (v := row) (lo := 0) (hi := (c.rows : Int) - 1) (by omega)
  obtain ⟨col0, -⟩ := clampInt_mem (v := col) (lo := 0) (hi := (c.cols : Int) - 1) (by omega)
  exact Int.toNat_of_nonneg (add_nonneg (mul_nonneg row0 (Int.natCast_nonneg _)) col0)

/-- The clamped coordinates are quotient and remainder of the address by the row length. -/
theorem pixAddr_ediv_emod (hr : 1 ≤ c.rows) (hc : 1 ≤ c.cols) (row col : Int) :
    (pixAddr c row col : Int) / c.cols = clampInt row 0 ((c.rows : Int) - 1) ∧
      (pixAddr c row col : Int) % c.cols = clampInt col 0 ((c.cols : Int) - 1) := by
  obtain ⟨col0, col1⟩ := clampInt_mem (v := col) (lo := 0) (hi := (c.cols : Int) - 1) (by omega)
  rw [Int.ediv_emod_unique (by omega), pixAddr_toInt hr hc]
  exact ⟨by ring, col0, by omega⟩

theorem pixAddr_eq_iff (hr : 1 ≤ c.rows) (hc : 1 ≤ c.cols) :
    pixAddr c row col = pixAddr c row' col' ↔
      clampInt row 0 ((c.rows : Int) - 1) = clampInt row' 0 ((c.rows : Int) - 1) ∧
        clampInt col 0 ((c.cols : Int) - 1) = clampInt col' 0 ((c.cols : Int) - 1) := by
  constructor
  · intro same
    obtain ⟨quot, rem⟩ := pixAddr_ediv_emod hr hc row col
    obtain ⟨quot', rem'⟩ := pixAddr_ediv_emod hr hc row' col'
    rw [← quot, ← rem, ← quot', ← rem', same]
    exact ⟨rfl, rfl⟩
  · rintro ⟨rows, cols⟩
    rw [pixAddr, pixAddr, rows, cols]

/-- The byte just stored is loaded, whatever the policy for unwritten bytes. -/
theorem fbRead_fbWrite_same {v : Byte} (h : pixAddr s.cfg row col = pixAddr s.cfg row' col') :
    fbRead row col (fbWrite row' col' v s) = .ok v :=
  fbRead_written (by rw [fbWrite_cfg, fbWrite_fb, h, Memory.read_write_same])

/-- A store elsewhere changes neither a written byte nor what an unwritten one answers. -/
theorem fbRead_fbWrite_other {v : Byte} (h : pixAddr s.cfg row col ≠ pixAddr s.cfg row' col') :
    fbRead row col (fbWrite row' col' v s) = fbRead row col s := by
  rw [fbRead, fbWrite_cfg, fbWrite_fb, fbWrite_env, Memory.read_write_other _ _ _ _ h, fbRead]

theorem fbRead_unwritten_refused (h : Memory.read s.fb (pixAddr s.cfg row col) = none)
    (policy : s.cfg.unwritten = .refuse) : fbRead row col s = .error .unwrittenPixel := by
  rw [fbRead, h, policy]

theorem fbRead_unwritten_anyValue (h : Memory.read s.fb (pixAddr s.cfg row col) = none)
    (policy : s.cfg.unwritten = .anyValue) : ∃ v, fbRead row col s = .ok v :=
  ⟨Config.unwrittenByte s.env.resets (pixAddr s.cfg row col), by rw [fbRead, h, policy]⟩

theorem exec_fbRdpix_of_ok {v : Byte} (hb : s.busy = false) (h : fbRead row col s = .ok v) :
    exec (.fbRdpix row col) s = .next (s.results { s.op.res with val := v }) := by
  rw [exec, execFbRdpix, if_neg (by simp [hb]), h]

theorem exec_fbRdpix_of_error {r : Refusal} (hb : s.busy = false) (h : fbRead row col s = .error r) :
    exec (.fbRdpix row col) s = .refused r := by
  rw [exec, execFbRdpix, if_neg (by simp [hb]), h]

theorem exec_fbWrpix_of_idle (v : Byte) (hb : s.busy = false) :
    exec (.fbWrpix row col v) s = .next (fbWrite row col v s) := by
  rw [exec, execFbWrpix, if_neg (by simp [hb])]

end Sys2Proof.Machine

/-! The obligations of the frame buffer family. -/

section

open Sys2Proof Sys2Proof.Machine

/-- Settles O33: the outcome of the load follows `FbRead`, case by case. -/
theorem pixelLoad : Obligations.PixelLoad := by
  intro row col s idle
  refine ⟨fun v written => ?_, fun unwritten policy => ?_, fun unwritten policy => ?_⟩
  · exact exec_fbRdpix_of_ok idle (fbRead_written written)
  · exact exec_fbRdpix_of_error idle (fbRead_unwritten_refused unwritten policy)
  · obtain ⟨v, answered⟩ := fbRead_unwritten_anyValue unwritten policy
    exact ⟨v, exec_fbRdpix_of_ok idle answered⟩

/-- Settles O34: the memory after the store is the old one with one byte written. -/
theorem pixelStore : Obligations.PixelStore := by
  intro row col v s idle
  exact ⟨Memory.write s.fb (pixAddr s.cfg row col) v, exec_fbWrpix_of_idle v idle,
    Memory.read_write_same _ _ _, fun k other => Memory.read_write_other _ _ _ _ other⟩

/-- Settles O35: an address determines the clamped coordinates, and in range clamping does nothing. -/
theorem clampLaw : Obligations.ClampLaw := by
  intro c row col rows cols
  refine ⟨?_, pixAddr_lt rows cols row col, fun row' col' r0 r1 c0 c1 r0' r1' c0' c1' same => ?_⟩
  · exact (pixAddr_eq_iff rows cols).2
      ⟨(clampInt_clampInt (by omega)).symm, (clampInt_clampInt (by omega)).symm⟩
  · have clamped := (pixAddr_eq_iff rows cols).1 same
    rwa [clampInt_of_mem r0 (by omega), clampInt_of_mem r0' (by omega), clampInt_of_mem c0 (by omega),
      clampInt_of_mem c0' (by omega)] at clamped

/-- Settles O36: equal clamped coordinates are equal addresses, where the store is seen. -/
theorem loadAfterStore : Obligations.LoadAfterStore := by
  intro row col row' col' v s rows cols
  split
  case isTrue same => exact fbRead_fbWrite_same ((pixAddr_eq_iff rows cols).2 same)
  case isFalse apart => exact fbRead_fbWrite_other fun same => apart ((pixAddr_eq_iff rows cols).1 same)

end

/-! Where a run ends (R48, R50). -/

namespace Sys2Proof.Machine

variable {s t u : State} {i : Instr}

/-- The block comes from `s` to `t` by ticks, and nothing can go on there. -/
structure EndsAt (s t : State) : Prop where
  reaches : Reaches s t
  held : tick t = .ok none

/-- A run that comes to another state starts with a tick. -/
theorem Reaches.first_tick (h : Reaches s t) : t = s ∨ ∃ u, tick s = .ok (some u) ∧ Reaches u t := by
  obtain ⟨k, hk⟩ := h
  cases k with
  | zero => exact .inl (Option.some.inj hk).symm
  | succ k =>
    rw [runTicks] at hk
    split at hk
    case h_1 u hu => exact .inr ⟨u, hu, k, hk⟩
    case h_2 => cases hk

/-- What every tick keeps, a run in ticks keeps. -/
theorem Reaches.keeps {P : State → Prop} (hP : ∀ u v, P u → tick u = .ok (some v) → P v)
    (h : Reaches s t) (hs : P s) : P t := by
  obtain ⟨k, hk⟩ := h
  induction k generalizing s with
  | zero => cases hk; exact hs
  | succ k ih =>
    rw [runTicks] at hk
    split at hk
    case h_1 u hu => exact ih (hP s u hs hu) hk
    case h_2 => cases hk

/-- A run of the block is a run in ticks. -/
theorem drive_reaches {n : Nat} (h : drive n s = .next t) : Reaches s t :=
  drive_keeps (Reaches s) (fun _ _ r ht => r.trans (.of_tick ht)) n s t (.refl s) h

theorem EndsAt.of_held (h : EndsAt s t) (hs : tick s = .ok none) : t = s := by
  rcases h.reaches.first_tick with e | ⟨u, hu, -⟩
  · exact e
  · rw [hs] at hu
    cases hu

theorem EndsAt.of_tick (h : EndsAt s t) (hs : tick s = .ok (some u)) : EndsAt u t := by
  rcases h.reaches.first_tick with rfl | ⟨v, hv, run⟩
  · rw [h.held] at hs
    cases hs
  · rw [hs] at hv
    cases hv
    exact ⟨run, h.held⟩

/-- A run that ends is not refused at its first tick. -/
theorem EndsAt.tick_ne_error {r : Refusal} (h : EndsAt s t) : tick s ≠ .error r := by
  intro hs
  rcases h.reaches.first_tick with rfl | ⟨v, hv, -⟩
  · rw [h.held] at hs
    cases hs
  · rw [hs] at hv
    cases hv

/-- A first tick that is a computation followed by a function answers as the computation does. -/
theorem EndsAt.of_map {α : Type} {x : Except Refusal α} {f : α → State} (h : EndsAt s t)
    (hs : tick s = x.map fun a => some (f a)) : ∃ a, x = .ok a ∧ EndsAt (f a) t := by
  cases x with
  | error r => exact absurd hs h.tick_ne_error
  | ok a => exact ⟨a, rfl, h.of_tick hs⟩

/-- An operation accepted by an idle block answers the state its run ends at. -/
theorem accept_next_iff {start : State → State} (idle : Idle s) (hs : ∀ v, (start v).env = v.env) :
    accept i start s = .next t ↔ EndsAt (start (s.withOp { s.op with cur := some i })) t := by
  constructor
  · intro h
    obtain ⟨-, run⟩ := accept_next h
    rw [resume_of_unpaced (by rw [hs]; exact idle.unpaced)] at run
    exact ⟨drive_reaches run, drive_ends_held (remaining_lt _) run⟩
  · intro h
    exact accept_of_reaches idle hs h.reaches h.held

/-- An operation that starts on the video side alone leaves the block idle, once it is not busy. -/
theorem accept_idle {start : State → State} (idle : Idle s) (hbus : ∀ v, SameBus v (start v))
    (hs : ∀ v, (start v).env = v.env) (h : accept i start s = .next t) (free : t.busy = false) :
    Idle t := by
  have same := accept_sameBus idle.noCommand hbus h
  have run := ((accept_next_iff idle hs).1 h).reaches
  have pace : t.env.pace = [] := run.keeps (P := fun v => v.env.pace = [])
    (fun _ _ hp ht => (tick_around ht).1.pace.trans hp) (by rw [hs]; exact idle.unpaced)
  exact ⟨free, by rw [same.bus, idle.noCommand], pace⟩

end Sys2Proof.Machine

/-! The operations of the tracker, each as one equation (R151, R152, R156, R157; log 34). -/

namespace Sys2Proof.Machine

variable {s t u : State} {roi : Rect} {thr : Byte}

/-- The sequencers and the bus core other than TR have nothing to do. -/
structure Quiet (s : State) : Prop where
  noCommand : s.bus.inflight = none
  bmIdle : s.bm.phase = .idle
  fgIdle : s.fg.phase = .idle

theorem Idle.quiet (h : Idle s) : Quiet s :=
  have ⟨hb, hf, _⟩ := busy_false_iff.1 h.free
  ⟨h.noCommand, hb, hf⟩

theorem Idle.trIdle (h : Idle s) : s.tr.phase = .idle :=
  (busy_false_iff.1 h.free).2.2

/-- Only the units that `Quiet` names matter to it. -/
theorem Quiet.congr (h : Quiet s) (hbus : t.bus = s.bus := by rfl) (hbm : t.bm = s.bm := by rfl)
    (hfg : t.fg = s.fg := by rfl) : Quiet t :=
  ⟨hbus ▸ h.noCommand, hbm ▸ h.bmIdle, hfg ▸ h.fgIdle⟩

theorem Quiet.tick (h : Quiet s) : tick s = trTick s := tick_tr h.noCommand h.bmIdle h.fgIdle

theorem Quiet.of_scanned (h : Quiet s) (k : Scanned s t) : Quiet t := by
  obtain ⟨x, rfl, -⟩ := k
  exact h.congr

theorem initBox_scanned (h : Quiet s) (k : pass .row roi thr (initBox roi s) = .ok t) : Quiet t := by
  rw [initBox_eq] at k
  exact (Quiet.congr (t := s.withTr (boxed roi s)) h).of_scanned (pass_scanned k)

theorem overlay_tr (s : State) : (overlay s).tr = s.tr := by
  obtain ⟨m, hm, -⟩ := overlay_eq s
  rw [hm]
  rfl

theorem Quiet.overlay (h : Quiet s) : Quiet (overlay s) := by
  obtain ⟨m, hm, -⟩ := overlay_eq s
  rw [hm]
  exact h.congr

/-- The overlay does not look at the port. -/
theorem overlay_withOp (o : Port) (s : State) : overlay (s.withOp o) = (overlay s).withOp o := by
  unfold overlay
  cases h : s.cfg.overlay with
  | identity => simp [h]
  | debug =>
    simp only [State.withOp_cfg, h, State.withOp_fb, State.withOp_tr]
    exact List.foldl_hom (State.withOp · o) fun _ _ => rfl

/-! What each phase of TR does, under whatever operation stands on the port. -/

variable (o : Port)

theorem trTick_withOp_capture (hp : s.tr.phase = .capture) :
    trTick (s.withOp o) = .ok (some ((s.trTo .threshold).withOp o)) := by
  rw [trTick, State.withOp_tr, hp]
  rfl

theorem trTick_withOp_threshold (hp : s.tr.phase = .threshold) :
    trTick (s.withOp o) = (updateThreshold (roiOf o.cur) s).map fun u => some (
      if isCycle o.cur then (u.trTo .rowPass).withOp o else trFinish o.res (u.withOp o)) := by
  rw [trTick, State.withOp_tr, hp]
  simp only [State.withOp_op]
  rw [updateThreshold_withOp]
  cases updateThreshold (roiOf o.cur) s <;> rfl

theorem trTick_withOp_rowPass (hp : s.tr.phase = .rowPass) :
    trTick (s.withOp o) = (pass .row (roiOf o.cur) (thrOf (s.withOp o))
      (initBox (roiOf o.cur) s)).map fun u => some ((u.trTo .colPass).withOp o) := by
  have box : initBox (roiOf o.cur) (s.withOp o) = (initBox (roiOf o.cur) s).withOp o := by
    rw [initBox_eq, initBox_eq]
    rfl
  rw [trTick, State.withOp_tr, hp]
  simp only [State.withOp_op]
  rw [box, pass_withOp]
  cases pass .row (roiOf o.cur) (thrOf (s.withOp o)) (initBox (roiOf o.cur) s) <;> rfl

theorem trTick_withOp_colPass (hp : s.tr.phase = .colPass) :
    trTick (s.withOp o) = (pass .col (roiOf o.cur) (thrOf (s.withOp o)) s).map fun u => some (
      if isCycle o.cur then ((overlay u).trTo .error).withOp o
      else trFinish { o.res with box := rectOut u.tr.box } ((overlay u).withOp o)) := by
  rw [trTick, State.withOp_tr, hp]
  simp only [State.withOp_op]
  rw [pass_withOp]
  cases pass .col (roiOf o.cur) (thrOf (s.withOp o)) s with
  | error r => rfl
  | ok u =>
    simp only [Except.map, overlay_withOp, State.withOp_op, State.withOp_tr, overlay_tr]
    rfl

theorem trTick_withOp_error (hp : s.tr.phase = .error) :
    trTick (s.withOp o) = .ok (some (
      let u := computeError (errorArgs (s.withOp o)).1 (errorArgs (s.withOp o)).2 s
      if isCycle o.cur then (u.trTo .command).withOp o
      else trFinish { o.res with
        panError := coordOut u.tr.panErr, tiltError := coordOut u.tr.tiltErr } (u.withOp o))) := by
  rw [trTick, State.withOp_tr, hp]
  rfl

/-! The operations. -/

/-- The machine `t` with TR done and the port of `s` after the operation, its results `r`. -/
def finished (s : State) (r : Results) (t : State) : State :=
  (t.trTo .idle).withOp { s.op with cur := none, res := r }

theorem Quiet.finished_held (h : Quiet t) (s : State) (r : Results) :
    Machine.tick (finished s r t) = .ok none :=
  tick_idle h.noCommand h.bmIdle h.fgIdle rfl

/-- An operation that TR carries out from phase `p` answers where TR's run ends. -/
theorem tracker_next_iff (idle : Idle s) (i : Instr) (p : TrPhase) :
    accept i (fun v => v.trTo p) s = .next t ↔
      EndsAt ((s.trTo p).withOp { s.op with cur := some i }) t :=
  accept_next_iff (start := fun v => v.trTo p) idle fun _ => rfl

theorem Quiet.tick_withOp (h : Quiet s) : Machine.tick (s.withOp o) = trTick (s.withOp o) :=
  (h.congr (t := s.withOp o)).tick

/-- `TR_UPDTHR` answers exactly when its scan does (R151). -/
theorem trUpdthr_next_iff (idle : Idle s) : exec (.trUpdthr roi) s = .next t ↔
    ∃ u, updateThreshold roi (s.trTo .threshold) = .ok u ∧ t = finished s s.op.res u := by
  have quiet : Quiet (s.trTo .threshold) := idle.quiet.congr
  have first := (quiet.tick_withOp _).trans (trTick_withOp_threshold
    { s.op with cur := some (.trUpdthr roi) } rfl)
  have last : ∀ u, updateThreshold roi (s.trTo .threshold) = .ok u →
      tick (finished s s.op.res u) = .ok none := fun u hu =>
    (quiet.of_scanned (updateThreshold_scanned hu)).finished_held s _
  refine (tracker_next_iff idle _ _).trans ⟨fun run => ?_, ?_⟩
  · obtain ⟨u, hu, run⟩ := run.of_map first
    exact ⟨u, hu, run.of_held (last u hu)⟩
  · rintro ⟨u, hu, rfl⟩
    exact ⟨.of_tick (first.trans (congrArg (Except.map _) hu)), last u hu⟩

/-- `TR_LOCATE` answers exactly when its two passes do (R152). -/
theorem trLocate_next_iff (idle : Idle s) : exec (.trLocate roi thr) s = .next t ↔
    ∃ u v, pass .row roi thr (initBox roi (s.trTo .rowPass)) = .ok u ∧
      pass .col roi thr (u.trTo .colPass) = .ok v ∧
      t = finished s { s.op.res with box := rectOut v.tr.box } (overlay v) := by
  have quiet : Quiet (s.trTo .rowPass) := idle.quiet.congr
  have quiet' : ∀ u, pass .row roi thr (initBox roi (s.trTo .rowPass)) = .ok u →
      Quiet (u.trTo .colPass) := fun u hu => (initBox_scanned quiet hu).congr
  have first := (quiet.tick_withOp _).trans (trTick_withOp_rowPass
    { s.op with cur := some (.trLocate roi thr) } rfl)
  have second := fun u hu => ((quiet' u hu).tick_withOp _).trans (trTick_withOp_colPass
    { s.op with cur := some (.trLocate roi thr) } rfl)
  have last : ∀ u v, pass .row roi thr (initBox roi (s.trTo .rowPass)) = .ok u →
      pass .col roi thr (u.trTo .colPass) = .ok v →
      tick (finished s { s.op.res with box := rectOut v.tr.box } (overlay v)) = .ok none :=
    fun u v hu hv => ((quiet' u hu).of_scanned (pass_scanned hv)).overlay.finished_held s _
  refine (tracker_next_iff idle _ _).trans ⟨fun run => ?_, ?_⟩
  · obtain ⟨u, hu, run⟩ := run.of_map first
    obtain ⟨v, hv, run⟩ := run.of_map (second u hu)
    exact ⟨u, v, hu, hv, run.of_held (last u v hu hv)⟩
  · rintro ⟨u, v, hu, hv, rfl⟩
    exact ⟨(Reaches.of_tick (first.trans (congrArg (Except.map _) hu))).trans
      (.of_tick ((second u hu).trans (congrArg (Except.map _) hv))), last u v hu hv⟩

/-- `TR_ERROR` (R156). -/
theorem trError_eq (idle : Idle s) (box : Rect) (c : Point) : exec (.trError box c) s = .next (finished s
    { s.op.res with
      panError := coordOut (c.col - (rectCenter s.cfg.midpoint box).col)
      tiltError := coordOut (c.row - (rectCenter s.cfg.midpoint box).row) } (computeError box c s)) := by
  have quiet : Quiet (s.trTo .error) := idle.quiet.congr
  have first := (quiet.tick_withOp _).trans (trTick_withOp_error
    { s.op with cur := some (.trError box c) } rfl)
  exact (tracker_next_iff idle _ _).2 ⟨.of_tick first, idle.quiet.congr.finished_held s _⟩

/-- `TR_COMMAND` (R157). -/
theorem trCommand_eq (idle : Idle s) (pe te : Int) (lp lt : Pos) :
    exec (.trCommand pe te lp lt) s = .next (finished s
      { s.op.res with newPan := newPan s.cfg pe lp, newTilt := newTilt s.cfg te lt }
      (commandActuators pe te lp lt s)) := by
  have quiet : Quiet (s.trTo .command) := idle.quiet.congr
  have first : tick ((s.trTo .command).withOp { s.op with cur := some (.trCommand pe te lp lt) })
      = .ok (some (finished s
        { s.op.res with newPan := newPan s.cfg pe lp, newTilt := newTilt s.cfg te lt }
        (commandActuators pe te lp lt s))) := by
    rw [quiet.tick_withOp, trTick, State.withOp_tr]
    simp [State.trTo, commandPhase, afterCommand, trFinish, finished, commandActuators_eq,
      State.withOp, State.withTr, State.results, State.retired]
  refine (tracker_next_iff idle _ _).2 ⟨.of_tick first, ?_⟩
  rw [commandActuators_eq]
  exact idle.quiet.congr.finished_held s _

end Sys2Proof.Machine

/-! What a result register carries of an integer (R62). -/

namespace Sys2Proof.Machine

theorem coordOut_toInt {v : Int} (h : coordOk v = true) : (coordOut v).toInt = v := by
  rw [coordOut, if_pos h, coord_toInt_ofInt h]

end Sys2Proof.Machine

/-! A loop of a scan, position by position (R150). -/

namespace Sys2Proof.Machine

variable {s t u : State} {roi : Rect} {p : Int → Int → Byte}

/-- A loop over `a .. b` each of whose steps takes the claim of its position to that of the next. -/
theorem foldlM_span {f : State → Int → Except Refusal State} {P : Int → State → Prop} {a b : Int}
    (step : ∀ x u, a ≤ x → x ≤ b → P x u → ∃ v, f u x = .ok v ∧ P (x + 1) v) (h : P a s) :
    ∃ t, (span a b).foldlM f s = .ok t ∧ P (max a (b + 1)) t := by
  induction n : (b + 1 - a).toNat generalizing a s with
  | zero =>
    rw [span_nil (by omega), max_eq_left (by omega)]
    exact ⟨s, rfl, h⟩
  | succ n ih =>
    obtain ⟨v, hv, hp⟩ := step a s le_rfl (by omega) h
    obtain ⟨t, ht, hq⟩ := ih (fun x u hx => step x u (by omega)) hp (by omega)
    refine ⟨t, ?_, ?_⟩
    · rw [span_cons (by omega), List.foldlM_cons, hv]
      exact ht
    · rwa [max_eq_right (by omega)] at hq ⊢

/-- What a scan has read has the value the region gives it, in every state the scan comes to. -/
theorem RegionReads.fbRead_withTr (h : RegionReads s roi p) (x : Tr) {i j : Int}
    (hi : roi.rowStart ≤ i ∧ i ≤ roi.rowEnd) (hj : roi.colStart ≤ j ∧ j ≤ roi.colEnd) :
    fbRead i j (s.withTr x) = .ok (p i j) :=
  h i j hi.1 hi.2 hj.1 hj.2

end Sys2Proof.Machine

/-! The threshold scan (R151). -/

namespace Sys2Proof.Machine

variable {s t u : State} {roi : Rect} {p : Int → Int → Byte} {lo hi : Byte}

/-- `lo` and `hi` are the extremes of `p` over the pixels `seen`; 255 and 0 while there are none. -/
structure Extremes (p : Int → Int → Byte) (seen : Int → Int → Prop) (lo hi : Byte) : Prop where
  bounds : ∀ r c, seen r c → lo ≤ p r c ∧ p r c ≤ hi
  neutral : (∀ r c, ¬ seen r c) → lo = 255 ∧ hi = 0
  attained : ∀ r c, seen r c → (∃ r c, seen r c ∧ p r c = lo) ∧ ∃ r c, seen r c ∧ p r c = hi

theorem Extremes.none {seen : Int → Int → Prop} (h : ∀ r c, ¬ seen r c) : Extremes p seen 255 0 :=
  ⟨fun r c hrc => absurd hrc (h r c), fun _ => ⟨rfl, rfl⟩, fun r c hrc => absurd hrc (h r c)⟩

theorem byteMin_le (a b : Byte) : byteMin a b ≤ a ∧ byteMin a b ≤ b := by
  unfold byteMin
  split <;> bv_omega

theorem le_byteMax (a b : Byte) : a ≤ byteMax a b ∧ b ≤ byteMax a b := by
  unfold byteMax
  split <;> bv_omega

theorem byteMin_eq (a b : Byte) : byteMin a b = a ∨ byteMin a b = b := by
  unfold byteMin
  split <;> simp

theorem byteMax_eq (a b : Byte) : byteMax a b = a ∨ byteMax a b = b := by
  unfold byteMax
  split <;> simp

theorem byteMin_neutral (b : Byte) : byteMin 255 b = b := by
  unfold byteMin
  split <;> bv_omega

theorem byteMax_neutral (b : Byte) : byteMax 0 b = b := by
  unfold byteMax
  split <;> bv_omega

/-- The extremes after one more pixel. -/
theorem Extremes.insert {seen seen' : Int → Int → Prop} {i j : Int} (h : Extremes p seen lo hi)
    (hs : ∀ r c, seen' r c ↔ seen r c ∨ r = i ∧ c = j) :
    Extremes p seen' (byteMin lo (p i j)) (byteMax hi (p i j)) := by
  have new : seen' i j := (hs i j).2 (.inr ⟨rfl, rfl⟩)
  refine ⟨fun r c hrc => ?_, fun unseen => absurd new (unseen i j), fun _ _ _ => ?_⟩
  · have hlo := byteMin_le lo (p i j)
    have hhi := le_byteMax hi (p i j)
    rcases (hs r c).1 hrc with old | ⟨rfl, rfl⟩
    · exact ⟨BitVec.le_trans hlo.1 (h.bounds r c old).1, BitVec.le_trans (h.bounds r c old).2 hhi.1⟩
    · exact ⟨hlo.2, hhi.2⟩
  · by_cases any : ∃ r c, seen r c
    · obtain ⟨r, c, old⟩ := any
      obtain ⟨⟨r₁, c₁, old₁, hmin⟩, ⟨r₂, c₂, old₂, hmax⟩⟩ := h.attained r c old
      constructor
      · rcases byteMin_eq lo (p i j) with e | e <;> rw [e]
        · exact ⟨r₁, c₁, (hs _ _).2 (.inl old₁), hmin⟩
        · exact ⟨i, j, new, rfl⟩
      · rcases byteMax_eq hi (p i j) with e | e <;> rw [e]
        · exact ⟨r₂, c₂, (hs _ _).2 (.inl old₂), hmax⟩
        · exact ⟨i, j, new, rfl⟩
    · obtain ⟨rfl, rfl⟩ := h.neutral fun r c old => any ⟨r, c, old⟩
      rw [byteMin_neutral, byteMax_neutral]
      exact ⟨⟨i, j, new, rfl⟩, ⟨i, j, new, rfl⟩⟩

theorem Extremes.congr {seen seen' : Int → Int → Prop} (h : Extremes p seen lo hi)
    (hs : ∀ r c, seen r c ↔ seen' r c) : Extremes p seen' lo hi := by
  rwa [← funext fun r => funext fun c => propext (hs r c)]

/-- The pixels of a region before column `j` of row `i`, in the order of the scan. -/
def scannedBefore (roi : Rect) (i j r c : Int) : Prop :=
  roi.rowStart ≤ r ∧ r ≤ roi.rowEnd ∧ roi.colStart ≤ c ∧ c ≤ roi.colEnd ∧ (r < i ∨ r = i ∧ c < j)

/-- The threshold scan has come from `s` to `u`, with column `j` of row `i` next. -/
def ThresholdAt (s : State) (roi : Rect) (p : Int → Int → Byte) (i j : Int) (u : State) : Prop :=
  ∃ lo hi i' j', u = s.withTr { s.tr with min := lo, max := hi, i := i', j := j' } ∧
    Extremes p (scannedBefore roi i j) lo hi

theorem thresholdPixel_at (reads : RegionReads s roi p) {i j : Int}
    (hi : roi.rowStart ≤ i ∧ i ≤ roi.rowEnd) (hj : roi.colStart ≤ j ∧ j ≤ roi.colEnd)
    (h : ThresholdAt s roi p i j u) :
    ∃ v, thresholdPixel i j u = .ok v ∧ ThresholdAt s roi p i (j + 1) v := by
  obtain ⟨lo, hi', i', j', rfl, ext⟩ := h
  refine ⟨_, by rw [thresholdPixel, reads.fbRead_withTr _ hi hj]; rfl, _, _, i, j, rfl,
    ext.insert fun r c => ?_⟩
  unfold scannedBefore
  omega

theorem thresholdRow_at (reads : RegionReads s roi p) {i : Int}
    (hi : roi.rowStart ≤ i ∧ i ≤ roi.rowEnd) (h : ThresholdAt s roi p i roi.colStart u) :
    ∃ v, (colsOf roi).foldlM (fun u j => thresholdPixel i j u) (u.withTr { u.tr with i := i }) = .ok v ∧
      ThresholdAt s roi p (i + 1) roi.colStart v := by
  obtain ⟨lo, hi', i', j', rfl, ext⟩ := h
  obtain ⟨v, hv, lo, hi', i', j', rfl, ext⟩ := foldlM_span (P := ThresholdAt s roi p i)
    (fun j u h1 h2 hu => thresholdPixel_at reads hi ⟨h1, h2⟩ hu) ⟨lo, hi', i, j', rfl, ext⟩
  refine ⟨_, hv, lo, hi', i', j', rfl, ext.congr fun r c => ?_⟩
  unfold scannedBefore
  omega

/-- The threshold scan of a readable region finds its extremes, and forms their midpoint. -/
theorem updateThreshold_extremes (reads : RegionReads s roi p) :
    ∃ lo hi i j, updateThreshold roi s = .ok (s.withTr { s.tr with
        min := lo, max := hi, i := i, j := j, threshold := thresholdOf lo hi }) ∧
      Extremes p (fun r c => roi.rowStart ≤ r ∧ r ≤ roi.rowEnd ∧ roi.colStart ≤ c ∧ c ≤ roi.colEnd)
        lo hi := by
  have start : ThresholdAt s roi p roi.rowStart roi.colStart
      (s.withTr { s.tr with min := 255, max := 0 }) :=
    ⟨255, 0, _, _, rfl, .none fun r c => by unfold scannedBefore; omega⟩
  obtain ⟨t, ht, lo, hi, i, j, rfl, ext⟩ := foldlM_span
    (P := fun i => ThresholdAt s roi p i roi.colStart)
    (fun i u h1 h2 hu => thresholdRow_at reads ⟨h1, h2⟩ hu) start
  refine ⟨lo, hi, i, j, ?_, ext.congr fun r c => ?_⟩
  · rw [updateThreshold, rowsOf, ht]
    rfl
  · unfold scannedBefore
    omega

theorem thresholdOf_toNat (lo hi : Byte) : (thresholdOf lo hi).toNat = (lo.toNat + hi.toNat) / 2 := by
  rw [thresholdOf, BitVec.toNat_ofNat]
  omega

end Sys2Proof.Machine

/-! Runs of bright pixels (R153), and the one a pass has selected so far. -/

namespace Sys2Proof.Machine

variable {a : Axis} {roi : Rect} {p : Int → Int → Byte} {thr : Byte} {minRun : Nat} {l : Int}

/-- The runs of a pass that end before position `e` of line `l`, in the order of the scan. -/
def RunBefore (a : Axis) (roi : Rect) (p : Int → Int → Byte) (thr : Byte) (l e l' lo hi : Int) : Prop :=
  firstLine a roi ≤ l' ∧ IsRun (brightAt a p thr l') (firstAlong a roi) (lastOf a roi) lo hi ∧
    (l' < l ∨ l' = l ∧ hi < e)

/-- What a pass holds of the runs `seen`, in order of their line `l` and first pixel `lo`: the first of the
longest, where it is longer than the minimum; the bounds it started with, where none is. -/
def BestOf (seen : Int → Int → Int → Prop) (minRun : Nat) (before : Int × Int) (best : Nat)
    (bounds : Int × Int) : Prop :=
  (best = 0 ∧ bounds = before ∧ ∀ l lo hi, seen l lo hi → hi - lo + 1 ≤ (minRun : Int)) ∨
  ∃ l, seen l bounds.1 bounds.2 ∧ (best : Int) = bounds.2 - bounds.1 + 1 ∧ minRun < best ∧
    ∀ l' lo hi, seen l' lo hi → hi - lo ≤ bounds.2 - bounds.1 ∧
      (hi - lo = bounds.2 - bounds.1 → l < l' ∨ l = l' ∧ bounds.1 ≤ lo)

/-- The bounds after a run of `n` pixels that ends at `last` (R153). -/
def closedBounds (minRun n best : Nat) (last : Int) (bounds : Int × Int) : Int × Int :=
  if qualifies minRun n best then (last - n + 1, last) else bounds

/-- The longest run after a run of `n` pixels (R153). -/
def closedBest (minRun n best : Nat) : Nat := if qualifies minRun n best then n else best

variable {seen seen' : Int → Int → Int → Prop} {before bounds : Int × Int} {best n : Nat} {last x : Int}

theorem BestOf.congr (h : BestOf seen minRun before best bounds)
    (hs : ∀ l lo hi, seen l lo hi ↔ seen' l lo hi) : BestOf seen' minRun before best bounds := by
  rwa [← funext fun l => funext fun lo => funext fun hi => propext (hs l lo hi)]

/-- A run that comes after all those seen replaces the one held exactly when it qualifies. -/
theorem BestOf.close (h : BestOf seen minRun before best bounds)
    (hs : ∀ l' lo hi, seen' l' lo hi ↔
      seen l' lo hi ∨ 0 < n ∧ l' = l ∧ lo = last - n + 1 ∧ hi = last)
    (later : ∀ l' lo hi, seen l' lo hi → l' < l ∨ l' = l ∧ hi ≤ last - n) :
    BestOf seen' minRun before (closedBest minRun n best) (closedBounds minRun n best last bounds) := by
  unfold closedBest closedBounds
  by_cases q : qualifies minRun n best = true
  · rw [if_pos q, if_pos q]
    obtain ⟨long, better⟩ : minRun < n ∧ best < n := by simpa [qualifies] using q
    refine .inr ⟨l, (hs _ _ _).2 (.inr ⟨by omega, rfl, rfl, rfl⟩), by simp only; omega, long, fun l' lo hi hr => ?_⟩
    rcases (hs l' lo hi).1 hr with old | ⟨-, rfl, rfl, rfl⟩
    · have shorter : hi - lo + 1 < n := by
        rcases h with ⟨-, -, short⟩ | ⟨_, _, hbest, _, longest⟩
        · have := short l' lo hi old
          omega
        · have := (longest l' lo hi old).1
          omega
      exact ⟨by simp only; omega, by simp only; omega⟩
    · exact ⟨le_rfl, fun _ => .inr ⟨rfl, le_rfl⟩⟩
  · rw [if_neg q, if_neg q]
    have fails : n ≤ minRun ∨ n ≤ best := by
      by_contra hn
      push Not at hn
      exact q (by simpa [qualifies] using hn)
    rcases h with ⟨rfl, rfl, short⟩ | ⟨k, held, hbest, long, longest⟩
    · refine .inl ⟨rfl, rfl, fun l' lo hi hr => ?_⟩
      rcases (hs l' lo hi).1 hr with old | ⟨hn, rfl, rfl, rfl⟩
      · exact short l' lo hi old
      · omega
    · refine .inr ⟨k, (hs _ _ _).2 (.inl held), hbest, long, fun l' lo hi hr => ?_⟩
      rcases (hs l' lo hi).1 hr with old | ⟨hn, rfl, rfl, rfl⟩
      · exact longest l' lo hi old
      · refine ⟨by omega, fun _ => ?_⟩
        rcases later _ _ _ held with hk | ⟨rfl, hk⟩
        · exact .inl hk
        · exact .inr ⟨rfl, by omega⟩

/-- The pixels `x - n .. x - 1` of line `l` are bright, and the pixel before them, if any, is not: the
run a pass counts when position `x` is next. -/
structure OpenRun (a : Axis) (roi : Rect) (p : Int → Int → Byte) (thr : Byte) (l x : Int) (n : Nat) :
    Prop where
  first : firstAlong a roi ≤ x - n
  bright : ∀ y, x - n ≤ y → y < x → brightAt a p thr l y
  maximal : x - n = firstAlong a roi ∨ ¬ brightAt a p thr l (x - n - 1)

theorem OpenRun.start : OpenRun a roi p thr l (firstAlong a roi) 0 :=
  ⟨by simp, fun y h1 h2 => by simp at h1; omega, .inl (by simp)⟩

theorem OpenRun.extend (h : OpenRun a roi p thr l x n) (hx : brightAt a p thr l x) :
    OpenRun a roi p thr l (x + 1) (n + 1) := by
  have e : x + 1 - ((n + 1 : Nat) : Int) = x - n := by push_cast; omega
  refine ⟨e ▸ h.first, fun y h1 h2 => ?_, e ▸ h.maximal⟩
  rcases eq_or_ne y x with rfl | hy
  · exact hx
  · exact h.bright y (by omega) (by omega)

theorem OpenRun.restart (hf : firstAlong a roi ≤ x) (hx : ¬ brightAt a p thr l x) :
    OpenRun a roi p thr l (x + 1) 0 :=
  ⟨by simp; omega, fun y h1 h2 => by simp at h1; omega, .inr (by simpa using hx)⟩

/-- Where the counted run cannot go on, the runs that end before it and the run itself are all the runs
that end there. -/
theorem OpenRun.runBefore_iff (h : OpenRun a roi p thr l x n) (hl : firstLine a roi ≤ l)
    (hx : x = lastOf a roi + 1 ∨ x ≤ lastOf a roi ∧ ¬ brightAt a p thr l x) (l' lo hi : Int) :
    RunBefore a roi p thr l (x + 1) l' lo hi ↔
      RunBefore a roi p thr l (x - n) l' lo hi ∨ 0 < n ∧ l' = l ∧ lo = x - 1 - n + 1 ∧ hi = x - 1 := by
  obtain ⟨first, bright, maximal⟩ := h
  constructor
  · rintro ⟨hl', run, order | ⟨rfl, hhi⟩⟩
    · exact .inl ⟨hl', run, .inl order⟩
    · by_cases inside : hi < x - n
      · exact .inl ⟨hl', run, .inr ⟨rfl, inside⟩⟩
      · obtain ⟨hlo, hle, hlast, hb, left, right⟩ := run
        have hne : hi ≠ x := by
          rintro rfl
          rcases hx with hx | ⟨-, dark⟩
          · omega
          · exact dark (hb hi hle le_rfl)
        have hhi : hi = x - 1 := by
          by_contra hne'
          rcases right with right | right
          · omega
          · exact right (bright (hi + 1) (by omega) (by omega))
        have hge : x - n ≤ lo := by
          by_contra hlt
          rcases maximal with e | dark
          · omega
          · exact dark (hb _ (by omega) (by omega))
        have hlo : lo = x - n := by
          by_contra hne'
          rcases left with e | dark
          · omega
          · exact dark (bright (lo - 1) (by omega) (by omega))
        exact .inr ⟨by omega, rfl, by omega, hhi⟩
  · rintro (⟨hl', run, order⟩ | ⟨hn, rfl, rfl, rfl⟩)
    · exact ⟨hl', run, by omega⟩
    · have e : x - 1 - (n : Int) + 1 = x - n := by omega
      rw [e]
      refine ⟨hl, ⟨first, by omega, by omega, fun y h1 h2 => bright y h1 (by omega), maximal, ?_⟩,
        .inr ⟨rfl, by omega⟩⟩
      rcases hx with hx | ⟨-, dark⟩
      · exact .inl (by omega)
      · exact .inr (by rwa [sub_add_cancel])

/-- The counted run closes. -/
theorem BestOf.closeRun (h : BestOf (RunBefore a roi p thr l (x - n)) minRun before best bounds)
    (run : OpenRun a roi p thr l x n) (hl : firstLine a roi ≤ l)
    (hx : x = lastOf a roi + 1 ∨ x ≤ lastOf a roi ∧ ¬ brightAt a p thr l x) :
    BestOf (RunBefore a roi p thr l (x + 1)) minRun before (closedBest minRun n best)
      (closedBounds minRun n best (x - 1) bounds) := by
  refine h.close (run.runBefore_iff hl hx) fun l' lo hi old => ?_
  obtain ⟨-, -, order⟩ := old
  omega

/-- Past the last line, what is held is what R153 selects. -/
theorem BestOf.selected (h : BestOf (RunBefore a roi p thr
      (max (firstLine a roi) (lastLine a roi + 1)) (firstAlong a roi)) minRun before best bounds) :
    Selected a roi p thr minRun bounds.1 bounds.2 ∨
      NoneQualifies a roi p thr minRun ∧ bounds = before := by
  have seen : ∀ {l lo hi}, firstLine a roi ≤ l → l ≤ lastLine a roi →
      IsRun (brightAt a p thr l) (firstAlong a roi) (lastOf a roi) lo hi →
      RunBefore a roi p thr (max (firstLine a roi) (lastLine a roi + 1)) (firstAlong a roi) l lo hi :=
    fun h1 h2 run => ⟨h1, run, .inl (by omega)⟩
  rcases h with ⟨-, same, short⟩ | ⟨l, ⟨hl, run, order⟩, hbest, long, longest⟩
  · exact .inr ⟨fun l lo hi h1 h2 run => short l lo hi (seen h1 h2 run), same⟩
  · have hl' : l ≤ lastLine a roi := by
      obtain ⟨h1, h2, -⟩ := run
      omega
    exact .inl ⟨l, hl, hl', run, by omega, fun l' lo hi h1 h2 run' => longest l' lo hi (seen h1 h2 run')⟩

end Sys2Proof.Machine

/-! A pass over a readable region (R153 to R155). -/

namespace Sys2Proof.Machine

variable {s t u : State} {a : Axis} {roi : Rect} {p : Int → Int → Byte} {thr : Byte} {l x : Int}

@[simp] theorem setBounds_setBounds (a : Axis) (lo hi lo' hi' : Int) (b : Rect) :
    setBounds a lo hi (setBounds a lo' hi' b) = setBounds a lo hi b := by cases a <;> rfl

@[simp] theorem setBounds_boundsOf (a : Axis) (b : Rect) :
    setBounds a (boundsOf a b).1 (boundsOf a b).2 b = b := by cases a <;> rfl

/-- What a pass may make of the registers of TR. -/
def passTr (s : State) (a : Axis) (bounds : Int × Int) (run best : Nat) (i j : Int) : Tr :=
  { s.tr with
    box := setBounds a bounds.1 bounds.2 s.tr.box, run := run, best := best, i := i, j := j }

theorem closeRun_passTr (s : State) (a : Axis) (bounds : Int × Int) (run best : Nat) (i j last : Int) :
    closeRun a last (s.withTr (passTr s a bounds run best i j)) =
      s.withTr (passTr s a (closedBounds s.cfg.minRun run best last bounds) run
        (closedBest s.cfg.minRun run best) i j) := by
  unfold closeRun closedBounds closedBest
  by_cases q : qualifies s.cfg.minRun run best = true <;> simp [passTr, q]

theorem scanAt_passTr (s : State) (a : Axis) (bounds : Int × Int) (run best : Nat) (i j l x : Int) :
    (s.withTr (passTr s a bounds run best i j)).scanAt a l x =
      s.withTr (passTr s a bounds run best (pixelOf a l x).1 (pixelOf a l x).2) := rfl

/-- The pass has come from `s` to `u`, with position `x` of line `l` next. -/
def LineAt (s : State) (a : Axis) (roi : Rect) (p : Int → Int → Byte) (thr : Byte) (l x : Int)
    (u : State) : Prop :=
  ∃ bounds run best i j, u = s.withTr (passTr s a bounds run best i j) ∧
    OpenRun a roi p thr l x run ∧
    BestOf (RunBefore a roi p thr l (x - run)) s.cfg.minRun (boundsOf a s.tr.box) best bounds

/-- The pass has come from `s` to `u`, with line `l` next. -/
def PassAt (s : State) (a : Axis) (roi : Rect) (p : Int → Int → Byte) (thr : Byte) (l : Int)
    (u : State) : Prop :=
  ∃ bounds run best i j, u = s.withTr (passTr s a bounds run best i j) ∧
    BestOf (RunBefore a roi p thr l (firstAlong a roi)) s.cfg.minRun (boundsOf a s.tr.box) best bounds

/-- The pixel at a position of a scan line is one of the region's. -/
theorem RegionReads.fbRead_along (h : RegionReads s roi p) (y : Tr)
    (hl : firstLine a roi ≤ l ∧ l ≤ lastLine a roi) (hx : firstAlong a roi ≤ x ∧ x ≤ lastOf a roi) :
    fbRead (pixelOf a l x).1 (pixelOf a l x).2 (s.withTr y)
      = .ok (p (pixelOf a l x).1 (pixelOf a l x).2) := by
  cases a with
  | row => exact h.fbRead_withTr y hl hx
  | col => exact h.fbRead_withTr y hx hl

/-- What a pixel that reads as `v` makes of the scan. -/
theorem scanPixel_read {v : Byte} (thr : Byte)
    (h : fbRead (pixelOf a l x).1 (pixelOf a l x).2 s = .ok v) :
    scanPixel a thr l s x = .ok (if thr < v then (s.scanAt a l x).runTo (s.tr.run + 1)
      else (closeRun a (x - 1) (s.scanAt a l x)).runTo 0) := by
  rw [scanPixel, h]
  rfl

/-- One pixel of a pass: the run goes on, or closes. -/
theorem scanPixel_at (reads : RegionReads s roi p) (hl : firstLine a roi ≤ l ∧ l ≤ lastLine a roi)
    (hx : firstAlong a roi ≤ x ∧ x ≤ lastOf a roi) (h : LineAt s a roi p thr l x u) :
    ∃ v, scanPixel a thr l u x = .ok v ∧ LineAt s a roi p thr l (x + 1) v := by
  obtain ⟨bounds, run, best, i, j, rfl, opened, held⟩ := h
  refine ⟨_, scanPixel_read thr (reads.fbRead_along _ hl hx), ?_⟩
  by_cases bright : brightAt a p thr l x
  · rw [if_pos (by exact bright)]
    refine ⟨bounds, run + 1, best, _, _, rfl, opened.extend bright, ?_⟩
    rwa [show x + 1 - ((run + 1 : Nat) : Int) = x - run by push_cast; omega]
  · rw [if_neg (by exact bright)]
    rw [scanAt_passTr, closeRun_passTr]
    exact ⟨_, 0, _, _, _, rfl, .restart hx.1 bright,
      (held.closeRun opened hl.1 (.inr ⟨hx.2, bright⟩)).congr fun l' lo hi => by simp⟩

/-- Of the runs of a line only the order matters, which they are inside of. -/
theorem RunBefore.congr_order {k e k' e' l' lo hi : Int}
    (h : firstAlong a roi ≤ lo ∧ lo ≤ hi ∧ hi ≤ lastOf a roi →
      (l' < k ∨ l' = k ∧ hi < e ↔ l' < k' ∨ l' = k' ∧ hi < e')) :
    RunBefore a roi p thr k e l' lo hi ↔ RunBefore a roi p thr k' e' l' lo hi :=
  and_congr_right fun _ => and_congr_right fun ⟨h1, h2, h3, _⟩ => h ⟨h1, h2, h3⟩

/-- The end of a scan line closes its run, and every run of the line has been seen. -/
theorem closeRun_at (hl : firstLine a roi ≤ l)
    (h : LineAt s a roi p thr l (max (firstAlong a roi) (lastOf a roi + 1)) u) :
    PassAt s a roi p thr (l + 1) (closeRun a (lastOf a roi) u) := by
  obtain ⟨bounds, run, best, i, j, rfl, opened, held⟩ := h
  rw [closeRun_passTr]
  refine ⟨_, _, _, _, _, rfl, ?_⟩
  by_cases empty : lastOf a roi < firstAlong a roi
  · have noRun : run = 0 := by
      have := opened.first
      omega
    subst noRun
    exact held.congr fun l' lo hi => RunBefore.congr_order (by omega)
  · rw [max_eq_right (by omega)] at held opened
    have closed := held.closeRun opened hl (.inl rfl)
    rw [add_sub_cancel_right] at closed
    exact closed.congr fun l' lo hi => RunBefore.congr_order (by omega)

/-- One line of a pass. -/
theorem scanLine_at (reads : RegionReads s roi p) (hl : firstLine a roi ≤ l ∧ l ≤ lastLine a roi)
    (h : PassAt s a roi p thr l u) :
    ∃ v, scanLine a roi thr u l = .ok v ∧ PassAt s a roi p thr (l + 1) v := by
  have along : alongOf a roi = span (firstAlong a roi) (lastOf a roi) := by cases a <;> rfl
  have start : LineAt s a roi p thr l (firstAlong a roi) ((u.lineAt a l).runTo 0) := by
    obtain ⟨bounds, run, best, i, j, rfl, held⟩ := h
    have held' : BestOf (RunBefore a roi p thr l (firstAlong a roi - ((0 : Nat) : Int))) s.cfg.minRun
        (boundsOf a s.tr.box) best bounds := by rwa [Nat.cast_zero, sub_zero]
    cases a with
    | row => exact ⟨bounds, 0, best, l, j, rfl, .start, held'⟩
    | col => exact ⟨bounds, 0, best, i, l, rfl, .start, held'⟩
  obtain ⟨v, hv, done⟩ := foldlM_span (f := scanPixel a thr l) (P := LineAt s a roi p thr l)
    (fun x u h1 h2 hu => scanPixel_at reads hl ⟨h1, h2⟩ hu) start
  exact ⟨_, by rw [scanLine, along, hv]; rfl, closeRun_at hl.1 done⟩

/-- A pass over a readable region leaves the bounds R153 selects, and changes scan registers beside. -/
theorem pass_selects (a : Axis) (thr : Byte) (reads : RegionReads s roi p) :
    ∃ bounds run best i j, pass a roi thr s = .ok (s.withTr (passTr s a bounds run best i j)) ∧
      (Selected a roi p thr s.cfg.minRun bounds.1 bounds.2 ∨
        NoneQualifies a roi p thr s.cfg.minRun ∧ bounds = boundsOf a s.tr.box) := by
  have lines : linesOf a roi = span (firstLine a roi) (lastLine a roi) := by cases a <;> rfl
  have start : PassAt s a roi p thr (firstLine a roi) (s.withTr { s.tr with best := 0 }) := by
    refine ⟨boundsOf a s.tr.box, s.tr.run, 0, s.tr.i, s.tr.j, ?_, .inl ⟨rfl, rfl, fun l lo hi seen => ?_⟩⟩
    · rw [passTr, setBounds_boundsOf]
    · obtain ⟨hl, ⟨h1, h2, -⟩, order⟩ := seen
      omega
  obtain ⟨v, hv, bounds, run, best, i, j, rfl, held⟩ := foldlM_span (f := scanLine a roi thr)
    (P := PassAt s a roi p thr) (fun l u h1 h2 hu => scanLine_at reads ⟨h1, h2⟩ hu) start
  exact ⟨bounds, run, best, i, j, by rw [pass, lines, hv], held.selected⟩

/-- A locate over a readable region, under the identity overlay: each axis of the box gets the bounds its
pass selects, from the box `boxBefore` (R152). -/
theorem trLocate_selects (idle : Idle s) (reads : RegionReads s roi p)
    (hid : s.cfg.overlay = .identity) (thr : Byte) :
    ∃ box run best i j,
      exec (.trLocate roi thr) s = .next { s with
        tr := { s.tr with box := box, boxValid := true, run := run, best := best, i := i, j := j }
        op := { s.op with cur := none, res := { s.op.res with box := rectOut box } } } ∧
      ∀ a, Selected a roi p thr s.cfg.minRun (boundsOf a box).1 (boundsOf a box).2 ∨
        (NoneQualifies a roi p thr s.cfg.minRun ∧ boundsOf a box = boundsOf a (boxBefore s roi)) := by
  obtain ⟨cols, run, best, i, j, rowPass, colsFound⟩ :=
    pass_selects (s := (s.trTo .rowPass).withTr (boxed roi (s.trTo .rowPass))) .row thr reads
  generalize hu : passTr _ _ _ _ _ _ _ = x at rowPass
  obtain ⟨rows, run, best, i, j, colPass, rowsFound⟩ :=
    pass_selects (s := (s.withTr x).trTo .colPass) .col thr reads
  refine ⟨setBounds .col rows.1 rows.2 x.box, run, best, i, j, (trLocate_next_iff idle).2
    ⟨_, _, by rw [initBox_eq]; exact rowPass, colPass, ?_⟩, ?_⟩
  · rw [finished, overlay, State.withTr_cfg]
    subst hu
    simp [State.trTo, hid, passTr, boxed, State.withTr, State.withOp, idle.trIdle]
  · subst hu
    rintro (_ | _)
    · exact colsFound
    · exact rowsFound

end Sys2Proof.Machine

/-! Locating on uniform scenes (R161). -/

namespace Sys2Proof.Machine

variable {a : Axis} {roi rect : Rect} {p : Int → Int → Byte} {thr : Byte} {minRun : Nat} {lo hi : Int}

/-- A scene: one rectangle of brightness `fore` on a background `back`. -/
def scene (rect : Rect) (fore back : Byte) (i j : Int) : Byte :=
  if rect.rowStart ≤ i ∧ i ≤ rect.rowEnd ∧ rect.colStart ≤ j ∧ j ≤ rect.colEnd then fore else back

theorem brightAt_scene {fore back : Byte} (hf : thr < fore) (hb : back ≤ thr) (l x : Int) :
    brightAt a (scene rect fore back) thr l x ↔
      (firstLine a rect ≤ l ∧ l ≤ lastLine a rect) ∧ firstAlong a rect ≤ x ∧ x ≤ lastOf a rect := by
  have inside : ∀ i j, thr < scene rect fore back i j ↔
      rect.rowStart ≤ i ∧ i ≤ rect.rowEnd ∧ rect.colStart ≤ j ∧ j ≤ rect.colEnd := by
    intro i j
    unfold scene
    split
    case isTrue h => exact ⟨fun _ => h, fun _ => hf⟩
    case isFalse h => exact ⟨fun lt => absurd lt (by bv_omega), fun h' => absurd h' h⟩
  cases a with
  | row => exact (inside l x).trans (by simp only [firstLine, lastLine, firstAlong, lastOf]; omega)
  | col => exact (inside x l).trans (by simp only [firstLine, lastLine, firstAlong, lastOf]; omega)

section Rectangle

variable (bright : ∀ l x, brightAt a p thr l x ↔
    (firstLine a rect ≤ l ∧ l ≤ lastLine a rect) ∧ firstAlong a rect ≤ x ∧ x ≤ lastOf a rect)
  (along : firstAlong a roi ≤ firstAlong a rect ∧ lastOf a rect ≤ lastOf a roi)
include bright along

/-- Where a rectangle alone is bright, every run is one of its lines. -/
theorem IsRun.of_rectangle {l : Int}
    (run : IsRun (brightAt a p thr l) (firstAlong a roi) (lastOf a roi) lo hi) :
    lo = firstAlong a rect ∧ hi = lastOf a rect := by
  obtain ⟨hlo, hle, hhi, hb, left, right⟩ := run
  have first := (bright l lo).1 (hb lo le_rfl hle)
  have last := (bright l hi).1 (hb hi hle le_rfl)
  constructor
  · rcases left with e | dark
    · omega
    · by_contra hne
      exact dark ((bright l (lo - 1)).2 (by omega))
  · rcases right with e | dark
    · omega
    · by_contra hne
      exact dark ((bright l (hi + 1)).2 (by omega))

/-- A line of the rectangle is a run. -/
theorem isRun_rectangle {l : Int} (hl : firstLine a rect ≤ l ∧ l ≤ lastLine a rect)
    (hne : firstAlong a rect ≤ lastOf a rect) :
    IsRun (brightAt a p thr l) (firstAlong a roi) (lastOf a roi) (firstAlong a rect) (lastOf a rect) :=
  ⟨along.1, hne, along.2, fun x h1 h2 => (bright l x).2 ⟨hl, h1, h2⟩,
    .inr fun h => by have := (bright l _).1 h; omega, .inr fun h => by have := (bright l _).1 h; omega⟩

/-- The rectangle is what a pass selects, where it is long enough. -/
theorem selected_rectangle {before : Int × Int} {bounds : Int × Int}
    (lines : firstLine a roi ≤ firstLine a rect ∧ lastLine a rect ≤ lastLine a roi)
    (hne : firstLine a rect ≤ lastLine a rect)
    (long : (minRun : Int) < lastOf a rect - firstAlong a rect + 1)
    (found : Selected a roi p thr minRun bounds.1 bounds.2 ∨
      NoneQualifies a roi p thr minRun ∧ bounds = before) :
    bounds = (firstAlong a rect, lastOf a rect) := by
  rcases found with ⟨l, -, -, run, -⟩ | ⟨short, -⟩
  · obtain ⟨first, last⟩ := run.of_rectangle bright along
    exact Prod.ext first last
  · have := short (firstLine a rect) _ _ lines.1 (by omega)
      (isRun_rectangle bright along ⟨le_rfl, hne⟩ (by omega))
    omega

end Rectangle

/-- With no pixel bright a pass selects nothing. -/
theorem not_selected_of_dark
    (dark : ∀ i j, roi.rowStart ≤ i → i ≤ roi.rowEnd → roi.colStart ≤ j → j ≤ roi.colEnd → p i j ≤ thr) :
    ¬ Selected a roi p thr minRun lo hi := by
  rintro ⟨l, h1, h2, ⟨h3, h4, h5, bright, -⟩, -⟩
  have lit := bright lo le_rfl h4
  cases a with
  | row => exact absurd (dark l lo h1 h2 h3 (h4.trans h5)) (BitVec.not_le.2 lit)
  | col => exact absurd (dark lo l h3 (h4.trans h5) h1 h2) (BitVec.not_le.2 lit)

/-- A box is its bounds on the two axes. -/
theorem Rect.eq_of_boundsOf {b c : Rect} (h : ∀ a, boundsOf a b = boundsOf a c) : b = c := by
  obtain ⟨cs, ce⟩ := Prod.ext_iff.1 (h .row)
  obtain ⟨rs, re⟩ := Prod.ext_iff.1 (h .col)
  cases b
  cases c
  simp_all [boundsOf]

theorem boundsOf_eq (a : Axis) (b : Rect) : boundsOf a b = (firstAlong a b, lastOf a b) := by
  cases a <;> rfl

end Sys2Proof.Machine

/-! A running cycle (R158, R159): what its ticks keep. -/

namespace Sys2Proof.Machine

variable {s t u : State} {roi : Rect} {i j : Instr} {o : Port}

/-- The block carries out a cycle operation, and no other unit is at work but FG in the cycle's capture. -/
structure Cycling (i : Instr) (s : State) : Prop where
  noCommand : s.bus.inflight = none
  bmIdle : s.bm.phase = .idle
  cur : s.op.cur = some i
  running : s.tr.phase ≠ .idle
  capture : s.fg.phase ≠ .idle → s.tr.phase = .capture

theorem Cycling.busy (h : Cycling i s) : s.busy = true := by
  by_contra hb
  exact h.running (busy_false_iff.1 (Bool.eq_false_of_not_eq_true hb)).2.2

/-- A tick of a cycle goes on with it or ends it, and tracking does not end. -/
theorem Cycling.of_tick (h : Cycling i s) (ht : tick s = .ok (some t)) :
    Cycling i t ∨ (t.op.cur = none ∧ ∀ roi, i ≠ .trTrack roi) := by
  obtain ⟨hi, hb, cur, running, capture⟩ := h
  have same := tick_sameBus hi hb ht
  rcases tick_cases s with ⟨hi', -⟩ | ⟨-, hb', -⟩ | ⟨-, -, hf, hk⟩ | ⟨-, -, hf, hk⟩
  · exact absurd hi hi'
  · exact absurd hb hb'
  · rw [hk] at ht
    have moved := (fgTick_moved (Except.ok.inj ht)).1
    have cur' : t.op.cur = s.op.cur :=
      (fgTick_flow (Except.ok.inj ht)).resolve_right fun ⟨hne, _⟩ => hne (capture hf)
    exact .inl ⟨by rw [same.bus, hi], by rw [same.bm, hb], cur'.trans cur, by rwa [moved.tr],
      fun _ => by rw [moved.tr, capture hf]⟩
  · rw [hk] at ht
    rcases trTick_flow ht with ⟨cur', running', -⟩ | ⟨ended, -, other⟩
    · refine .inl ⟨by rw [same.bus, hi], by rw [same.bm, hb], cur'.trans cur, running', fun hf' => ?_⟩
      rcases (trTick_moved ht).grabber with hfg | ⟨-, -, hc⟩
      · exact absurd (hfg ▸ hf) hf'
      · exact hc
    · exact .inr ⟨ended, fun roi => by simpa [cur] using other roi⟩

theorem Cycling.withEnv (h : Cycling i s) (e : Env) : Cycling i (s.withEnv e) :=
  ⟨h.noCommand, h.bmIdle, h.cur, h.running, h.capture⟩

/-- However long it runs on, tracking goes on (R159). -/
theorem Cycling.of_resume (h : Cycling (.trTrack roi) s) (hr : resume s = .next t) :
    Cycling (.trTrack roi) t :=
  resume_keeps (Cycling (.trTrack roi))
    (fun _ _ hu ht => (hu.of_tick ht).resolve_right fun ⟨_, other⟩ => other roi rfl)
    (fun _ _ hu => hu.withEnv _) h hr

/-- A cycle operation accepted by an idle block. -/
theorem Idle.cycling (h : Idle s) (i : Instr) :
    Cycling i (startCycle (s.withOp { s.op with cur := some i })) :=
  ⟨h.noCommand, h.quiet.bmIdle, rfl, by simp [startCycle, State.trTo], fun _ => rfl⟩

/-! The two cycle operations go the same way up to their command. -/

theorem thrOf_cycle (hc : CycleOn roi i) (ho : o.cur = some i) (s : State) :
    thrOf (s.withOp o) = s.tr.threshold := by
  cases hc <;> simp [thrOf, ho]

theorem roiOf_cycle (hc : CycleOn roi i) : roiOf (some i) = roi := by
  cases hc <;> rfl

theorem isCycle_cycle (hc : CycleOn roi i) : isCycle (some i) = true := by
  cases hc <;> rfl

theorem errorArgs_cycle (hc : CycleOn roi i) (ho : o.cur = some i) (s : State) :
    errorArgs (s.withOp o) = (s.tr.box, rectCenter s.cfg.midpoint roi) := by
  cases hc <;> simp [errorArgs, roiOf, ho]

/-- A step of TR before the command of a cycle, as a function of the state alone. -/
def cycleStep (roi : Rect) (s : State) : Except Refusal State :=
  match s.tr.phase with
  | .capture => .ok (s.trTo .threshold)
  | .threshold => (updateThreshold roi s).map fun u => u.trTo .rowPass
  | .rowPass => (pass .row roi s.tr.threshold (initBox roi s)).map fun u => u.trTo .colPass
  | .colPass => (pass .col roi s.tr.threshold s).map fun u => (overlay u).trTo .error
  | .error => .ok ((computeError s.tr.box (rectCenter s.cfg.midpoint roi) s).trTo .command)
  | .idle => .ok s
  | .command => .ok s

theorem trTick_cycle (hc : CycleOn roi i) (ho : o.cur = some i) (hr : s.tr.phase ≠ .idle)
    (hp : s.tr.phase ≠ .command) :
    trTick (s.withOp o) = (cycleStep roi s).map fun u => some (u.withOp o) := by
  unfold cycleStep
  split
  case h_1 hp => rw [trTick_withOp_capture o hp]; rfl
  case h_2 hp =>
    rw [trTick_withOp_threshold o hp, ho, roiOf_cycle hc, isCycle_cycle hc]
    cases updateThreshold roi s <;> rfl
  case h_3 hp =>
    rw [trTick_withOp_rowPass o hp, ho, roiOf_cycle hc, thrOf_cycle hc ho]
    cases pass .row roi s.tr.threshold (initBox roi s) <;> rfl
  case h_4 hp =>
    rw [trTick_withOp_colPass o hp, ho, isCycle_cycle hc, roiOf_cycle hc, thrOf_cycle hc ho]
    cases pass .col roi s.tr.threshold s <;> rfl
  case h_5 hp =>
    rw [trTick_withOp_error o hp, errorArgs_cycle hc ho, ho, isCycle_cycle hc]
    rfl
  case h_6 hi => exact absurd hi hr
  case h_7 hc => exact absurd hc hp

end Sys2Proof.Machine

/-! The capture does not look at the port or at TR, up to its end (R121 to R127). -/

namespace Sys2Proof.Machine

variable {s t u : State} (o : Port) (x : Tr)

/-- The same machine with another port and other registers of TR. -/
def recast (s : State) : State := (s.withOp o).withTr x

theorem pollLevel_recast {bit : Nat} {level : Bool} {next : State → State}
    (hn : ∀ u, next (recast o x u) = recast o x (next u)) (s : State) :
    pollLevel bit level next (recast o x s) = (pollLevel bit level next s).map (recast o x) := by
  cases h : s.env.status with
  | nil => simp [pollLevel, readFgStatus, recast, h]
  | cons b rest =>
    rw [pollLevel_answered (s := recast o x s) h, pollLevel_answered h, Option.map_some]
    by_cases hb : b.getLsbD bit = level
    · rw [if_pos hb, if_pos hb]
      exact congrArg some (hn (s.withEnv { s.env with status := rest }))
    · rw [if_neg hb, if_neg hb]
      rfl

theorem enterCol_recast (n : Nat) (s : State) : enterCol n (recast o x s) = recast o x (enterCol n s) := by
  by_cases h : n < s.cfg.sensorCols
  · rw [enterCol, enterCol, if_pos h, if_pos (by exact h)]
    rfl
  · rw [enterCol, enterCol, if_neg h, if_neg (by exact h)]
    rfl

theorem sampleAndStore_recast (s : State) :
    sampleAndStore (recast o x s) = recast o x (sampleAndStore s) := by
  unfold sampleAndStore readFgPixel
  cases h : s.env.pixels <;> simp [recast, h] <;> rfl

theorem enterRow_phase (n : Nat) (s : State) : (enterRow n s).fg.phase ≠ .idle := by
  simp only [enterRow, State.withFg_fg]
  split <;> simp

theorem enterCol_phase (n : Nat) (s : State) : (enterCol n s).fg.phase ≠ .idle := by
  unfold enterCol
  split
  · simp
  · exact enterRow_phase _ _

/-- What follows a wait looks at neither, and is not the end of the capture. -/
theorem waitOf_next {c : Cfg} {q : FgPhase} {bit : Nat} {level : Bool} {next : State → State}
    (hw : waitOf c q = some (bit, level, next)) (s : State) :
    next (recast o x s) = recast o x (next s) ∧ (next s).fg.phase ≠ .idle := by
  cases q <;> cases hw
  case frameWaitB => exact ⟨rfl, enterRow_phase 0 s⟩
  case rowWaitRise => exact ⟨enterCol_recast o x 0 s, enterCol_phase 0 s⟩
  all_goals exact ⟨rfl, by simp [State.fgTo]⟩

/-- The phases that wait for nothing. -/
theorem waitOf_none {c : Cfg} {q : FgPhase} (hw : waitOf c q = none) :
    q = .idle ∨ q = .sample ∨ q = .done := by
  cases q <;> simp [waitOf] at hw ⊢

/-- Every step of a capture but its last makes the same of the rest of the machine, and does not end it. -/
theorem fgTick_recast (hd : s.fg.phase ≠ .done) :
    fgTick (recast o x s) = (fgTick s).map (recast o x) ∧
      ∀ t, fgTick s = some t → t.fg.phase ≠ .idle := by
  cases hw : waitOf s.cfg s.fg.phase with
  | some w =>
    obtain ⟨bit, level, next⟩ := w
    rw [fgTick_wait hw, fgTick_wait (s := recast o x s) hw]
    refine ⟨pollLevel_recast o x (fun u => (waitOf_next o x hw u).1) s, fun t h => ?_⟩
    cases hs : s.env.status with
    | nil => simp [pollLevel, readFgStatus, hs] at h
    | cons b rest =>
      rw [pollLevel_answered hs] at h
      cases h
      split
      · exact (waitOf_next o x hw _).2
      · exact waitOf_phase hw
  | none =>
    rcases waitOf_none hw with h | h | h
    · rw [fgTick, fgTick, show (recast o x s).fg = s.fg from rfl, h]
      exact ⟨rfl, fun t ht => by cases ht⟩
    · rw [fgTick, fgTick, show (recast o x s).fg = s.fg from rfl, h]
      refine ⟨congrArg some ?_, fun t ht => by cases ht; exact enterCol_phase _ _⟩
      rw [← enterCol_recast, show (recast o x s).cfg = s.cfg from rfl]
      split
      · rw [sampleAndStore_recast]
      · rfl
    · exact absurd h hd

variable {o x}

/-- A capture that comes to an end goes through its last phase, and the same way whatever stands on the
port and in TR. -/
theorem capture_reaches_done (hi : s.bus.inflight = none) (hb : s.bm.phase = .idle)
    (hf : s.fg.phase ≠ .idle) (h : Reaches s t) (ht : t.fg.phase = .idle) :
    ∃ d, d.fg.phase = .done ∧ GrabberMoved s d ∧ d.op = s.op ∧ Reaches d t ∧
      ∀ o x, Reaches (recast o x s) (recast o x d) := by
  obtain ⟨k, hk⟩ := h
  induction k generalizing s with
  | zero => cases hk; exact absurd ht hf
  | succ k ih =>
    by_cases hd : s.fg.phase = .done
    · exact ⟨s, hd, .refl s, rfl, ⟨k + 1, hk⟩, fun o x => .refl _⟩
    · rcases Reaches.first_tick ⟨_, hk⟩ with rfl | ⟨u, hu, -⟩
      · exact absurd ht hf
      · rw [runTicks_moved hu] at hk
        rw [tick_fg hi hb hf] at hu
        have hu := Except.ok.inj hu
        have moved := (fgTick_moved hu).1
        obtain ⟨d, done, moved', op, run, same⟩ := ih (by rw [moved.video.bus.bus, hi])
          (by rw [moved.video.bus.bm, hb]) ((fgTick_recast s.op s.tr hd).2 u hu) hk
        refine ⟨d, done, moved.trans moved', op.trans ?_, run, fun o x => .trans (.of_tick ?_) (same o x)⟩
        · have keeps : fgTick s = (fgTick s).map (recast s.op s.tr) := (fgTick_recast s.op s.tr hd).1
          rw [hu] at keeps
          have u_eq : u = recast s.op s.tr u := Option.some.inj keeps
          rw [u_eq]
          rfl
        · rw [tick_fg (s := recast o x s) hi hb hf, (fgTick_recast o x hd).1, hu]
          rfl

end Sys2Proof.Machine

/-! A cycle that comes to its command (R158, R159). -/

namespace Sys2Proof.Machine

variable {s t u : State} {roi : Rect} {i j : Instr} {o : Port}

/-- A step of a cycle's capture does not look at the port, its end included (R158). -/
theorem fgTick_withOp (o : Port) (hc : s.tr.phase = .capture) :
    fgTick (s.withOp o) = (fgTick s).map fun v => v.withOp o := by
  by_cases hd : s.fg.phase = .done
  · rw [fgTick, fgTick, State.withOp_fg, hd]
    refine congrArg some ?_
    rw [captureDone_of_cycle hc, captureDone_of_cycle (s := s.withOp o) hc]
    rfl
  · have same : fgTick (s.withOp o) = (fgTick s).map (recast o s.tr) := (fgTick_recast o s.tr hd).1
    rw [same]
    cases h : fgTick s with
    | none => rfl
    | some v =>
      have tr := (fgTick_moved h).1.tr
      rw [Option.map_some, Option.map_some, recast, ← tr]
      rfl

/-- Up to the command, a tick is the same for both cycle operations. -/
theorem Cycling.tick_withOp (h : Cycling i s) (hc : CycleOn roi i) (hk : CycleOn roi j)
    (ho : o.cur = some j) (hp : s.tr.phase ≠ .command) :
    tick (s.withOp o) = (tick s).map (Option.map fun v => v.withOp o) := by
  by_cases hf : s.fg.phase = .idle
  · have this := trTick_cycle hk ho h.running hp
    have other : trTick s = _ := trTick_cycle (s := s) (o := s.op) hc h.cur h.running hp
    rw [tick_tr (s := s.withOp o) h.noCommand h.bmIdle hf, tick_tr h.noCommand h.bmIdle hf, this, other]
    cases cycleStep roi s <;> rfl
  · rw [tick_fg (s := s.withOp o) h.noCommand h.bmIdle hf, tick_fg h.noCommand h.bmIdle hf,
      fgTick_withOp o (h.capture hf)]
    rfl

/-- A cycle that comes to an end comes to its command, and the other operation comes to the same. -/
theorem Cycling.reaches_command (h : Cycling i s) (hc : CycleOn roi i) (run : Reaches s t)
    (free : t.busy = false) :
    ∃ d, Cycling i d ∧ d.tr.phase = .command ∧ d.op = s.op ∧ Reaches d t ∧
      ∀ j o, CycleOn roi j → o.cur = some j → Reaches (s.withOp o) (d.withOp o) := by
  obtain ⟨k, hk⟩ := run
  induction k generalizing s with
  | zero =>
    cases hk
    rw [h.busy] at free
    cases free
  | succ k ih =>
    by_cases hp : s.tr.phase = .command
    · exact ⟨s, h, hp, rfl, ⟨k + 1, hk⟩, fun j o _ _ => .refl _⟩
    · rcases Reaches.first_tick ⟨_, hk⟩ with rfl | ⟨u, hu, -⟩
      · rw [h.busy] at free
        cases free
      · rw [runTicks_moved hu] at hk
        have op : u.op = s.op := by
          have keeps : tick s = (tick s).map (Option.map fun v => v.withOp s.op) :=
            h.tick_withOp hc hc h.cur hp
          rw [hu] at keeps
          have u_eq : u = u.withOp s.op := Option.some.inj (Except.ok.inj keeps)
          rw [u_eq]
          rfl
        have goes : Cycling i u := (h.of_tick hu).resolve_right fun ⟨ended, _⟩ => by
          rw [op, h.cur] at ended
          cases ended
        obtain ⟨d, hd, phase, op', run, same⟩ := ih goes hk
        refine ⟨d, hd, phase, op'.trans op, run, fun j o hj ho => .trans (.of_tick ?_) (same j o hj ho)⟩
        rw [h.tick_withOp hc hj ho hp, hu]
        rfl

/-- At its command only TR is at work. -/
theorem Cycling.quiet (h : Cycling i s) (hp : s.tr.phase = .command) : Quiet s := by
  refine ⟨h.noCommand, h.bmIdle, ?_⟩
  by_contra hf
  rw [h.capture hf] at hp
  cases hp

theorem Quiet.commanded (h : Quiet s) : Quiet (commanded s) :=
  h.congr (commanded_bus s) (commanded_bm s) (commanded_fg s)

/-- From its command a snapshot ends with the next tick. -/
theorem trSnapshot_command (hd : Cycling (.trSnapshot roi) s) (hp : s.tr.phase = .command)
    (h : EndsAt s t) : ∃ r, t = trFinish r (commanded s) := by
  obtain ⟨r, last⟩ := trTick_command_snapshot hd.cur hp
  rw [← (hd.quiet hp).tick] at last
  exact ⟨r, (h.of_tick last).of_held ((hd.quiet hp).commanded.finished_held _ _)⟩

end Sys2Proof.Machine

/-! The parts of a cycle issued one by one (R71, R158). -/

namespace Sys2Proof.Machine

variable {s t u : State} {roi : Rect} {thr : Byte} {i : Instr} {o : Port}

theorem foldlM_keeps {α : Type} {f : State → α → Except Refusal State} {P : State → Prop}
    (hf : ∀ u a v, P u → f u a = .ok v → P v) :
    ∀ (l : List α) (s t : State), P s → l.foldlM f s = .ok t → P t := by
  intro l
  induction l with
  | nil => intro s t h hl; cases hl; exact h
  | cons a l ih =>
    intro s t h hl
    rw [List.foldlM_cons] at hl
    obtain ⟨u, hu, hl⟩ := except_bind_ok hl
    exact ih u t (hf s a u h hu) hl

theorem closeRun_threshold (a : Axis) (last : Int) (s : State) :
    (closeRun a last s).tr.threshold = s.tr.threshold := by
  unfold closeRun
  split <;> rfl

theorem scanPixel_threshold {a : Axis} {l x : Int} (h : scanPixel a thr l s x = .ok t) :
    t.tr.threshold = s.tr.threshold := by
  obtain ⟨v, -, rfl⟩ := except_map_ok h
  simp only
  split
  · rfl
  · exact closeRun_threshold a _ _

/-- A pass compares with the threshold it is given, and leaves `TR.threshold` alone (R154, R155). -/
theorem pass_threshold {a : Axis} (h : pass a roi thr s = .ok t) :
    t.tr.threshold = s.tr.threshold := by
  unfold pass at h
  refine foldlM_keeps (P := fun v => v.tr.threshold = s.tr.threshold) (fun u l v hu hv => ?_) _ _ _ (by rfl) h
  obtain ⟨w, hw, rfl⟩ := except_map_ok hv
  rw [closeRun_threshold]
  refine foldlM_keeps (P := fun v => v.tr.threshold = s.tr.threshold)
    (fun _ _ _ hu hv => (scanPixel_threshold hv).trans hu) _ _ _ ?_ hw
  cases a <;> exact hu

theorem initBox_threshold (roi : Rect) (s : State) : (initBox roi s).tr.threshold = s.tr.threshold := by
  rw [initBox_eq]
  rfl

/-- A step of TR in a cycle that answers. -/
theorem reaches_cycleStep (quiet : Quiet s) (hc : CycleOn roi i) (ho : o.cur = some i)
    (hr : s.tr.phase ≠ .idle) (hp : s.tr.phase ≠ .command) (h : cycleStep roi s = .ok t) :
    Reaches (s.withOp o) (t.withOp o) := by
  refine .of_tick ?_
  rw [quiet.tick_withOp, trTick_cycle hc ho hr hp, h]
  rfl

section Parts

variable (idle : Idle s) (hc : CycleOn roi i) (ho : o.cur = some i)
include idle

/-- A capture issued by itself leaves what the first part of a cycle leaves, and its summary on the port
beside. -/
theorem capture_part (o : Port) (h : exec .fgCapture s = .next t) (free : t.busy = false) :
    Reaches (startCycle (s.withOp o)) ((t.trTo .capture).withOp o) ∧
      t.op = { s.op with cur := none, res := { s.op.res with summary := t.op.res.summary } } := by
  have run := (accept_next_iff (start := startCapture) idle fun _ => rfl).1 h
  obtain ⟨d, done, moved, op, run', same⟩ := capture_reaches_done
    (s := startCapture (s.withOp { s.op with cur := some .fgCapture })) idle.noCommand
    idle.quiet.bmIdle (by simp [startCapture]) run.reaches (busy_false_iff.1 free).2.1
  have bus : d.bus.inflight = none := by rw [moved.video.bus.bus]; exact idle.noCommand
  have bm : d.bm.phase = .idle := by rw [moved.video.bus.bm]; exact idle.quiet.bmIdle
  have tr : d.tr = s.tr := moved.tr
  have ends (v : State) (hbus : v.bus = d.bus) (hbm : v.bm = d.bm) (hfg : v.fg = d.fg) :
      tick v = .ok (some (captureDone v)) := by
    rw [tick_fg (by rw [hbus, bus]) (by rw [hbm, bm]) (by rw [hfg, done]; simp), fgTick, hfg, done]
  have last := ends d rfl rfl rfl
  rw [captureDone_of_operation (by rw [tr, idle.trIdle]; simp)] at last
  obtain rfl := (EndsAt.of_tick ⟨run', run.held⟩ last).of_held
    (tick_idle bus bm rfl (by rw [← idle.trIdle, ← tr]))
  refine ⟨?_, by rw [op]; rfl⟩
  have cycles := ends (recast o { s.tr with phase := .capture } d) rfl rfl rfl
  rw [captureDone_of_cycle rfl] at cycles
  refine (same o { s.tr with phase := .capture }).trans (.of_tick (cycles.trans ?_))
  rw [← tr]
  rfl

include hc ho

/-- The capture's end, and the threshold. -/
theorem threshold_part (h : exec (.trUpdthr roi) s = .next t) :
    Reaches ((s.trTo .capture).withOp o) ((t.trTo .rowPass).withOp o) := by
  obtain ⟨u, scan, rfl⟩ := (trUpdthr_next_iff idle).1 h
  have first : Reaches ((s.trTo .capture).withOp o) ((s.trTo .threshold).withOp o) :=
    reaches_cycleStep idle.quiet.congr hc ho (by simp [State.trTo]) (by simp [State.trTo]) rfl
  exact first.trans (reaches_cycleStep (t := u.trTo .rowPass) idle.quiet.congr hc ho
    (by simp [State.trTo]) (by simp [State.trTo]) (congrArg (Except.map _) scan))

/-- The two passes, against the cycle's own threshold. -/
theorem locate_part (h : exec (.trLocate roi s.tr.threshold) s = .next t) :
    Reaches ((s.trTo .rowPass).withOp o) ((t.trTo .error).withOp o) := by
  obtain ⟨u, v, rows, cols, rfl⟩ := (trLocate_next_iff idle).1 h
  have first : Reaches ((s.trTo .rowPass).withOp o) ((u.trTo .colPass).withOp o) :=
    reaches_cycleStep idle.quiet.congr hc ho (by simp [State.trTo]) (by simp [State.trTo])
      (congrArg (Except.map _) rows)
  have kept : u.tr.threshold = s.tr.threshold := (pass_threshold rows).trans (initBox_threshold _ _)
  refine first.trans (reaches_cycleStep (t := (overlay v).trTo .error)
    (initBox_scanned idle.quiet.congr rows).congr hc ho (by simp [State.trTo]) (by simp [State.trTo]) ?_)
  rw [← kept] at cols
  exact congrArg (Except.map _) cols

/-- The error of the cycle's own box and of the region's centre. -/
theorem error_part (h : exec (.trError s.tr.box (rectCenter s.cfg.midpoint roi)) s = .next t) :
    Reaches ((s.trTo .error).withOp o) ((t.trTo .command).withOp o) := by
  rw [trError_eq idle] at h
  cases h
  exact reaches_cycleStep (t := (computeError s.tr.box (rectCenter s.cfg.midpoint roi) s).trTo .command)
    idle.quiet.congr hc ho (by simp [State.trTo]) (by simp [State.trTo]) rfl

end Parts

/-! What each leaves on the port (R62). -/

theorem trUpdthr_port (idle : Idle s) (h : exec (.trUpdthr roi) s = .next t) :
    t.op = { s.op with cur := none } := by
  obtain ⟨u, -, rfl⟩ := (trUpdthr_next_iff idle).1 h
  rfl

theorem trLocate_port (idle : Idle s) (h : exec (.trLocate roi thr) s = .next t) :
    t.op = { s.op with cur := none, res := { s.op.res with box := rectOut t.tr.box } } := by
  obtain ⟨u, v, -, -, rfl⟩ := (trLocate_next_iff idle).1 h
  rw [← overlay_tr v]
  rfl

theorem trError_port (idle : Idle s) {box : Rect} {c : Point}
    (h : exec (.trError box c) s = .next t) : t.tr.box = s.tr.box ∧ t.op = { s.op with
      cur := none
      res := { s.op.res with
        panError := coordOut t.tr.panErr, tiltError := coordOut t.tr.tiltErr } } := by
  rw [trError_eq idle] at h
  cases h
  exact ⟨rfl, rfl⟩

theorem trCommand_port (idle : Idle s) {pe te : Int} {lp lt : Pos}
    (h : exec (.trCommand pe te lp lt) s = .next t) :
    t.tr.box = s.tr.box ∧ t.tr.panErr = s.tr.panErr ∧ t.tr.tiltErr = s.tr.tiltErr ∧ t.op = { s.op with
      cur := none, res := { s.op.res with newPan := t.tr.lastPan, newTilt := t.tr.lastTilt } } := by
  rw [trCommand_eq idle, commandActuators_eq] at h
  cases h
  exact ⟨rfl, rfl, rfl, rfl⟩

/-- The results a snapshot leaves on the port (R62, R158). -/
def snapshotResults (r : Results) (s : State) : Results :=
  { r with
    box := rectOut s.tr.box, panError := coordOut s.tr.panErr, tiltError := coordOut s.tr.tiltErr
    newPan := s.tr.lastPan, newTilt := s.tr.lastTilt }

/-- The command of the cycle's own error ends a snapshot. -/
theorem command_part (idle : Idle s) (ho : o.cur = some (.trSnapshot roi))
    (h : exec (.trCommand s.tr.panErr s.tr.tiltErr s.tr.lastPan s.tr.lastTilt) s = .next t) :
    EndsAt ((s.trTo .command).withOp o) (t.withOp { o with cur := none, res := snapshotResults o.res t }) := by
  rw [trCommand_eq idle] at h
  cases h
  have quiet : Quiet (s.trTo .command) := idle.quiet.congr
  refine ⟨.of_tick ?_, ?_⟩
  · rw [quiet.tick_withOp, trTick, State.withOp_tr]
    simp [State.trTo, commandPhase, afterCommand, ho, trFinish, finished, commandActuators_eq,
      errorResults, snapshotResults, State.withOp, State.withTr, State.results, State.retired]
  · rw [commandActuators_eq]
    exact tick_idle idle.noCommand idle.quiet.bmIdle idle.quiet.fgIdle rfl

/-- The five parts, issued one after the other, are the run of a snapshot, and what stands on the port is
what it reports, the capture's summary beside. -/
theorem snapshot_of_parts {s1 s2 s3 s4 s5 : State} (idle : Idle s)
    (h1 : exec .fgCapture s = .next s1) (free : s1.busy = false)
    (h2 : exec (.trUpdthr roi) s1 = .next s2)
    (h3 : exec (.trLocate roi s2.tr.threshold) s2 = .next s3)
    (h4 : exec (.trError s3.tr.box (rectCenter s3.cfg.midpoint roi)) s3 = .next s4)
    (h5 : exec (.trCommand s4.tr.panErr s4.tr.tiltErr s4.tr.lastPan s4.tr.lastTilt) s4 = .next s5)
    (ho : o.cur = some (.trSnapshot roi)) :
    EndsAt (startCycle (s.withOp o)) (s5.withOp { o with cur := none, res := snapshotResults o.res s5 }) ∧
      s5.op = { s.op with
        cur := none, res := { snapshotResults s.op.res s5 with summary := s1.op.res.summary } } := by
  have idle1 := accept_idle idle startCapture_sameBus (fun _ => rfl) h1 free
  have idle2 := accept_idle idle1 (trTo_sameBus .threshold) (fun _ => rfl) h2 (accept_next h3).1
  have idle3 := accept_idle idle2 (trTo_sameBus .rowPass) (fun _ => rfl) h3 (accept_next h4).1
  have idle4 := accept_idle idle3 (trTo_sameBus .error) (fun _ => rfl) h4 (accept_next h5).1
  obtain ⟨capture, op1⟩ := capture_part idle o h1 free
  have threshold := threshold_part idle1 .snapshot ho h2
  have locate := locate_part idle2 .snapshot ho h3
  have error := error_part idle3 .snapshot ho h4
  obtain ⟨command, held⟩ := command_part idle4 ho h5
  refine ⟨⟨capture.trans (threshold.trans (locate.trans (error.trans command))), held⟩, ?_⟩
  have op2 := trUpdthr_port idle1 h2
  have op3 := trLocate_port idle2 h3
  obtain ⟨box4, op4⟩ := trError_port idle3 h4
  obtain ⟨box5, pan5, tilt5, op5⟩ := trCommand_port idle4 h5
  rw [op5, op4, op3, op2, op1, snapshotResults, box5, box4, pan5, tilt5]

end Sys2Proof.Machine

/-! The obligations of the tracker family. -/

section

open Sys2Proof Sys2Proof.Machine

/-- Settles O37: the scan keeps the extremes of the pixels it has seen. -/
theorem thresholdOfRegion : Obligations.ThresholdOfRegion := by
  refine ⟨thresholdOf_toNat, fun roi p s idle reads => ?_⟩
  obtain ⟨lo, hi, i, j, scan, ext⟩ := updateThreshold_extremes (s := s.trTo .threshold) reads
  refine ⟨lo, hi, i, j, (trUpdthr_next_iff idle).2 ⟨_, scan, ?_⟩, ?_, fun empty => ?_, fun rows cols => ?_⟩
  · rw [finished, ← idle.trIdle]
    rfl
  · exact fun r c r₁ r₂ c₁ c₂ => ext.bounds r c ⟨r₁, r₂, c₁, c₂⟩
  · exact ext.neutral fun r c => by omega
  · simpa only [and_assoc] using ext.attained roi.rowStart roi.colStart ⟨le_rfl, rows, le_rfl, cols⟩

/-- Settles O39: each pass holds the first of the longest runs it has seen. -/
theorem locateFindsTheLongestRuns : Obligations.LocateFindsTheLongestRuns := by
  intro roi thr p s idle reads hid
  exact trLocate_selects idle reads hid thr

/-- Settles O40: every run of the first scene is a line of the rectangle, the second has none. -/
theorem locateOnUniformScenes : Obligations.LocateOnUniformScenes := by
  intro roi thr s idle hid
  refine ⟨fun rect fore back reads hf hb r₁ r₂ c₁ c₂ tall wide => ?_, fun p reads valid dark => ?_⟩
  · obtain ⟨box, run, best, i, j, located, found⟩ := trLocate_selects idle reads hid thr
    refine ⟨_, located, Rect.eq_of_boundsOf fun a => ?_⟩
    have bright := brightAt_scene (a := a) (rect := rect) hf hb
    rw [boundsOf_eq a rect]
    cases a with
    | row =>
      have rows : rect.rowStart ≤ rect.rowEnd := by omega
      exact selected_rectangle bright ⟨c₁, c₂⟩ ⟨r₁, r₂⟩ rows wide (found .row)
    | col =>
      have cols : rect.colStart ≤ rect.colEnd := by omega
      exact selected_rectangle bright ⟨r₁, r₂⟩ ⟨c₁, c₂⟩ cols tall (found .col)
  · obtain ⟨box, run, best, i, j, located, found⟩ := trLocate_selects idle reads hid thr
    refine ⟨_, located, Rect.eq_of_boundsOf fun a => ?_⟩
    rcases found a with selected | ⟨-, kept⟩
    · exact absurd selected (not_selected_of_dark dark)
    · rwa [boxBefore, if_pos valid] at kept

/-- Settles O41: the error phase is one step, and an error that fits its register is carried. -/
theorem errorOfTheBox : Obligations.ErrorOfTheBox := by
  intro box c s idle floor
  refine ⟨coordOut _, coordOut _, ?_, fun fits => coordOut_toInt fits, fun fits => coordOut_toInt fits⟩
  rw [trError_eq idle, finished, computeError, rectCenter, floor, ← idle.trIdle]
  rfl

/-- Settles O42: the command phase is one step, and clamped positions lie in their limits. -/
theorem commandMovesTheActuators : Obligations.CommandMovesTheActuators := by
  intro pe te lp lt s idle
  refine ⟨newPan s.cfg pe lp, newTilt s.cfg te lt, rfl, rfl, ?_, fun ok => ?_⟩
  · rw [trCommand_eq idle, commandActuators_eq, finished, ← idle.trIdle]
    rfl
  · obtain ⟨pan₁, pan₂⟩ := newPan_mem ok pe lp
    obtain ⟨tilt₁, tilt₂⟩ := newTilt_mem ok te lt
    obtain ⟨pan₀, -, pan₃⟩ := ok.panLimits
    obtain ⟨tilt₀, -, tilt₃⟩ := ok.tiltLimits
    exact ⟨pan₁, pan₂, tilt₁, tilt₂, pan₀.trans pan₁, pan₂.trans pan₃, tilt₀.trans tilt₁,
      tilt₂.trans tilt₃⟩

/-- Settles O43: each operation leaves what its part of the cycle leaves, the port apart. -/
theorem snapshotIsTheCycleOnce : Obligations.SnapshotIsTheCycleOnce := by
  intro roi s s1 s2 s3 s4 s5 idle h1 free h2 h3 h4 h5
  obtain ⟨run, port⟩ := snapshot_of_parts idle h1 free h2 h3 h4 h5
    (o := { s.op with cur := some (.trSnapshot roi) }) rfl
  refine ((accept_next_iff (start := startCycle) idle fun _ => rfl).2 run).trans ?_
  rw [port]
  rfl

/-- Settles O44: both operations come to the same command; the snapshot ends there, tracking waits. -/
theorem trackingRepeatsTheSnapshot : Obligations.TrackingRepeatsTheSnapshot := by
  intro roi s t idle h free hs
  have run := (accept_next_iff (start := startCycle) idle fun _ => rfl).1 h
  obtain ⟨d, hd, hp, op, run', same⟩ := (idle.cycling _).reaches_command .snapshot run.reaches free
  obtain ⟨r, rfl⟩ := trSnapshot_command hd hp ⟨run', run.held⟩
  have quiet := hd.quiet hp
  have last := trTick_command_track (s := d.withOp { s.op with cur := some (.trTrack roi) }) rfl hp
  rw [← quiet.tick_withOp, commanded_withOp] at last
  have status : (commanded d).env.status = [] := hs
  exact (accept_next_iff (start := startCycle) idle fun _ => rfl).2
    ⟨(same _ { s.op with cur := some (.trTrack roi) } .track rfl).trans (.of_tick last),
      tick_wait_held quiet.commanded.noCommand quiet.commanded.bmIdle rfl status⟩

/-- Settles O46: a tick of tracking leaves it tracking. -/
theorem trackingNeverCompletes : Obligations.TrackingNeverCompletes := by
  refine ⟨fun roi s t idle h => ?_, fun roi s t one cur running hs hh hst => ?_⟩
  · obtain ⟨-, run⟩ := accept_next h
    exact ((idle.cycling _).of_resume run).busy
  · have ⟨alone, pair, _⟩ := one
    have hb : s.bm.phase = .idle := by
      by_contra hb
      exact running (alone hb).2
    have tracking : Cycling (.trTrack roi) s :=
      ⟨one.inflight_none hb, hb, cur, running, fun hf => (pair hf).resolve_left running⟩
    rw [step_runs hs hh] at hst
    have tracks := tracking.of_resume hst
    exact ⟨tracks.cur, tracks.running, tracks.busy⟩

end

/-! A scan that comes to a pixel nothing has written (R217, U7; log 11). -/

namespace Sys2Proof.Machine

variable {s t : State} {roi : Rect} {thr : Byte} {i j : Int} {a : Axis} {l x : Int} {r : Refusal}

/-- Nothing has written the pixel, and the policy refuses its read. -/
structure RefusedPixel (i j : Int) (s : State) : Prop where
  policy : s.cfg.unwritten = .refuse
  unwritten : Memory.read s.fb (pixAddr s.cfg i j) = none

theorem RefusedPixel.fbRead (h : RefusedPixel i j s) :
    Machine.fbRead i j s = .error .unwrittenPixel :=
  fbRead_unwritten_refused h.unwritten h.policy

/-- A scan writes no pixel. -/
theorem RefusedPixel.of_scanned (h : RefusedPixel i j s) (k : Scanned s t) : RefusedPixel i j t := by
  obtain ⟨x, rfl, -⟩ := k
  exact ⟨h.policy, h.unwritten⟩

/-- A load is refused for one reason only. -/
theorem fbRead_error (h : fbRead i j s = .error r) : r = .unwrittenPixel := by
  unfold fbRead at h
  split at h
  case h_1 => cases h
  case h_2 =>
    split at h
    case h_1 => exact (Except.error.inj h).symm
    case h_2 => cases h

/-- A computation followed by a function is refused as the computation is. -/
theorem except_map_error {α β : Type} {x : Except Refusal α} {f : α → β} (h : x.map f = .error r) :
    x = .error r := by
  cases x with
  | error r' => exact congrArg Except.error (Except.error.inj h)
  | ok a => cases h

/-- A loop is refused as one of its steps is. -/
theorem foldlM_error {α : Type} {f : State → α → Except Refusal State} {l : List α}
    (h : l.foldlM f s = .error r) : ∃ u a, f u a = .error r := by
  induction l generalizing s with
  | nil => cases h
  | cons a l ih =>
    rw [List.foldlM_cons] at h
    cases hu : f s a with
    | error r' =>
      rw [hu] at h
      exact ⟨s, a, hu.trans h⟩
    | ok u =>
      rw [hu] at h
      exact ih h

/-- A loop one of whose steps reads the pixel is refused, there or at an unwritten pixel before it. -/
theorem foldlM_refused {α : Type} {f : State → α → Except Refusal State} {l : List α} {a : α}
    (hf : ∀ u b v, f u b = .ok v → Scanned u v)
    (only : ∀ u b r, f u b = .error r → r = .unwrittenPixel) (ha : a ∈ l)
    (reads : ∀ u, RefusedPixel i j u → f u a = .error .unwrittenPixel) (h : RefusedPixel i j s) :
    l.foldlM f s = .error .unwrittenPixel := by
  induction l generalizing s with
  | nil => cases ha
  | cons b l ih =>
    rw [List.foldlM_cons]
    cases hu : f s b with
    | error r => exact congrArg Except.error (only s b r hu)
    | ok u =>
      have later : a ∈ l := (List.mem_cons.1 ha).resolve_left fun here => by
        rw [← here, reads s h] at hu
        cases hu
      exact ih later (h.of_scanned (hf s b u hu))

theorem thresholdPixel_error (h : thresholdPixel i j s = .error r) : r = .unwrittenPixel :=
  fbRead_error (except_map_error h)

theorem RefusedPixel.thresholdPixel (h : RefusedPixel i j s) :
    Machine.thresholdPixel i j s = .error .unwrittenPixel := by
  rw [Machine.thresholdPixel, h.fbRead]
  rfl

theorem thresholdRow_error
    (h : (colsOf roi).foldlM (fun s j => thresholdPixel i j s) s = .error r) : r = .unwrittenPixel :=
  have ⟨_, _, pixel⟩ := foldlM_error h
  thresholdPixel_error pixel

theorem thresholdRow_refused (h : RefusedPixel i j s) (hj : j ∈ colsOf roi) :
    (colsOf roi).foldlM (fun s j => thresholdPixel i j s) s = .error .unwrittenPixel :=
  foldlM_refused (fun _ _ _ => thresholdPixel_scanned) (fun _ _ _ => thresholdPixel_error) hj
    (fun _ => RefusedPixel.thresholdPixel) h

/-- The threshold scan of a region with such a pixel (R151). -/
theorem updateThreshold_refused (h : RefusedPixel i j s) (hi : i ∈ rowsOf roi) (hj : j ∈ colsOf roi) :
    updateThreshold roi s = .error .unwrittenPixel := by
  have rows := foldlM_refused (s := s.withTr { s.tr with min := 255, max := 0 })
    (f := fun s i => (colsOf roi).foldlM (fun s j => thresholdPixel i j s)
      (s.withTr { s.tr with i := i }))
    (fun _ _ _ => thresholdRow_scanned) (fun _ _ _ => thresholdRow_error) hi
    (fun _ hu => thresholdRow_refused ⟨hu.policy, hu.unwritten⟩ hj) ⟨h.policy, h.unwritten⟩
  rw [updateThreshold, rows]
  rfl

theorem scanPixel_error (h : scanPixel a thr l s x = .error r) : r = .unwrittenPixel :=
  fbRead_error (except_map_error h)

theorem RefusedPixel.scanPixel (h : RefusedPixel (pixelOf a l x).1 (pixelOf a l x).2 s) :
    Machine.scanPixel a thr l s x = .error .unwrittenPixel := by
  rw [Machine.scanPixel, h.fbRead]
  rfl

theorem scanLine_error (h : scanLine a roi thr s l = .error r) : r = .unwrittenPixel :=
  have ⟨_, _, pixel⟩ := foldlM_error (except_map_error h)
  scanPixel_error pixel

theorem scanLine_refused (h : RefusedPixel (pixelOf a l x).1 (pixelOf a l x).2 s)
    (hx : x ∈ alongOf a roi) : scanLine a roi thr s l = .error .unwrittenPixel := by
  have started : RefusedPixel (pixelOf a l x).1 (pixelOf a l x).2 ((s.lineAt a l).runTo 0) := by
    cases a <;> exact ⟨h.policy, h.unwritten⟩
  have along := foldlM_refused (f := scanPixel a thr l) (fun _ _ _ => scanPixel_scanned)
    (fun _ _ _ => scanPixel_error) hx (fun _ => RefusedPixel.scanPixel) started
  rw [scanLine, along]
  rfl

/-- A pass over a region with such a pixel (R154, R155). -/
theorem pass_refused (h : RefusedPixel (pixelOf a l x).1 (pixelOf a l x).2 s) (hl : l ∈ linesOf a roi)
    (hx : x ∈ alongOf a roi) : pass a roi thr s = .error .unwrittenPixel :=
  foldlM_refused (fun _ _ _ => scanLine_scanned) (fun _ _ _ => scanLine_error) hl
    (fun _ hu => scanLine_refused hu hx) ⟨h.policy, h.unwritten⟩

end Sys2Proof.Machine

/-! Operations that are refused at their acceptance or at their first tick (R210, R217). -/

namespace Sys2Proof.Machine

variable {s : State} {i : Instr} {start : State → State} {r : Refusal}

/-- `BM_INIT` inside a held transaction (U8). -/
theorem bmInit_onOpenBus (v : Byte) (hb : s.busy = false) (ho : s.bus.busOpen = true) :
    exec (.bmInit v) s = .refused .initOnOpenBus := by
  rw [exec, execBmInit, if_neg (by simp [hb]), if_pos ho]

/-- A bus operation before `BM_INIT` (U6). -/
theorem acceptBus_notInitialised (start : State → State) (hb : s.busy = false)
    (hn : s.bm.inited = false) : acceptBus i start s = .refused .notInitialised := by
  rw [acceptBus, if_neg (by simp [hb]), if_pos hn]

/-- An accepted operation whose sequencer is refused at its first tick. -/
theorem accept_refused (idle : Idle s) (hs : ∀ u, (start u).env = u.env)
    (ht : tick (start (s.withOp { s.op with cur := some i })) = .error r) :
    accept i start s = .refused r := by
  rw [accept, if_neg (by simp [idle.free]), launch,
    resume_of_unpaced (by rw [hs]; exact idle.unpaced)]
  exact drive_refused_of_runTicks (k := 0) rfl ht (by unfold ampleSteps; omega)

/-- `TR_UPDTHR` is refused as its scan is (R151). -/
theorem trUpdthr_refused {roi : Rect} (idle : Idle s)
    (h : updateThreshold roi (s.trTo .threshold) = .error r) : exec (.trUpdthr roi) s = .refused r := by
  have quiet : Quiet (s.trTo .threshold) := idle.quiet.congr
  have first := (quiet.tick_withOp _).trans (trTick_withOp_threshold
    { s.op with cur := some (.trUpdthr roi) } rfl)
  exact accept_refused (start := fun v => v.trTo .threshold) idle (fun _ => rfl)
    (first.trans (congrArg (Except.map _) h))

/-- `TR_LOCATE` is refused as its row pass is (R152). -/
theorem trLocate_refused {roi : Rect} {thr : Byte} (idle : Idle s)
    (h : pass .row roi thr (initBox roi (s.trTo .rowPass)) = .error r) :
    exec (.trLocate roi thr) s = .refused r := by
  have quiet : Quiet (s.trTo .rowPass) := idle.quiet.congr
  have first := (quiet.tick_withOp _).trans (trTick_withOp_rowPass
    { s.op with cur := some (.trLocate roi thr) } rfl)
  exact accept_refused (start := fun v => v.trTo .rowPass) idle (fun _ => rfl)
    (first.trans (congrArg (Except.map _) h))

end Sys2Proof.Machine

/-! The obligations of the family of reset and hazards. -/

section

open Sys2Proof Sys2Proof.Machine

/-- Settles O26: the first two are refused at acceptance, the last where its data command is written. -/
theorem busOperationRefusals : Obligations.BusOperationRefusals := by
  refine ⟨fun v s free held => ?_, fun d stop a x sub val s free raw => ⟨?_, ?_, ?_⟩,
    fun d stop x s ready released policy => ?_⟩
  · exact bmInit_onOpenBus v free held
  · exact acceptBus_notInitialised _ free raw
  · exact acceptBus_notInitialised _ free raw
  · exact acceptBus_notInitialised _ free raw
  · exact bmXfer_closed ready released policy

/-- Settles O38: the threshold scan and the row pass both read every pixel of the region. -/
theorem scanOfUnwrittenPixelRefused : Obligations.ScanOfUnwrittenPixelRefused := by
  intro roi thr r c s idle policy r₁ r₂ c₁ c₂ unwritten
  have row : r ∈ rowsOf roi := mem_span.2 ⟨r₁, r₂⟩
  have col : c ∈ colsOf roi := mem_span.2 ⟨c₁, c₂⟩
  constructor
  · exact trUpdthr_refused idle (updateThreshold_refused ⟨policy, unwritten⟩ row col)
  · refine trLocate_refused idle ?_
    rw [initBox_eq]
    exact pass_refused (a := .row) (l := r) (x := c) ⟨policy, unwritten⟩ row col

end
